-- ==== Sys2Proof/Config.lean ====
section
/-! DEFINITION. Config: the parameters of `spec/00_scope.md` R7 at the values the spec takes, and the one
free value of the model: what a byte of `BUF` holds that nothing has written since reset. -/

namespace Sys2Proof.Config

/-- R7 `WMAX`: the largest size a value register can hold. -/
abbrev wmax : Nat := 65535

/-- R7 `BUFSZ`: the number of bytes in `BUF`. -/
abbrev bufsz : Nat := 65536

/-- R7 `K_ADD`: the cost of an add per bit of result width. -/
abbrev kAdd : Nat := 4

/-- R7 `K_CMPL`: the cost of a complement per bit. -/
abbrev kCmpl : Nat := 1

/-- R7 `MDIV_MAX_ITER`: the pass bound of multiplicative division. -/
abbrev mdivMaxIter : Nat := 5

/-- R7 `RDIV_MAX_ITER`: the pass bound of divisor reciprocation. -/
abbrev rdivMaxIter : Nat := 5

/-- R7 `TOL_SLACK`: the 3 of the tolerance `2^(3 - W)`. -/
abbrev tolSlack : Nat := 3

/-- FREE VALUE (log entry 1): `freeByte epoch a` is what `BUF[a]` holds after the reset numbered `epoch` while
nothing has written it. `spec/10_state.md` R44: "unspecified: each byte may hold any value 0 to 255". It has no
body, so no proof can rest on a byte the spec leaves open. -/
opaque freeByte : Nat → Nat → BitVec 8

end Sys2Proof.Config
end

