-- ==== Sys2Proof/Word.lean ====
section
/-! DEFINITION. Word: bytes, command words, register numbers, and the value type `FPN` of `spec/10_state.md`
R20 to R24. -/

namespace Sys2Proof

/-- One byte of `BUF` (`spec/10_state.md` R41), also one character of a text (`spec/00_scope.md` R18). -/
abbrev Byte := BitVec 8

/-- A command word (`spec/30_encoding.md` R65). -/
abbrev Word := BitVec 64

/-- The number of a value register, `v0` to `v15` (`spec/10_state.md` R25). -/
abbrev Reg := Fin 16

/-- A fixed-point number (`spec/10_state.md` R20). The sixth field of the rule, `size`, is the length of `bits`
"for the lifetime of the value" (R21 (a)); it is computed, so that a value that breaks (a) cannot be built. -/
structure Fpn where
  /-- R20: how many trailing bits are fractional. -/
  decimal : Nat
  /-- R20: the digits, index 0 the least significant bit. -/
  bits : List Bool
  /-- R22: carry out of the top bit on the last add-family operation. -/
  overflow : Bool := false
  /-- R22: written to the same value as `overflow` by every rule that writes it. -/
  carryin : Bool := false
  /-- R22: an operation discarded low bit positions. -/
  truncated : Bool := false
deriving DecidableEq, Repr

/-- R20, R21 (a): the total bit width. -/
def Fpn.size (v : Fpn) : Nat := v.bits.length

/-- `FPN(n, d, b)` of `spec/00_scope.md` R10, with `n` the length of `b`: all three flags false. -/
def Fpn.plain (d : Nat) (b : List Bool) : Fpn := { decimal := d, bits := b }

end Sys2Proof
end

