-- ==== Sys2Proof/Syntax.lean ====
section
/-! DEFINITION. Syntax: the 28 commands of `spec/30_encoding.md` R70 and `spec/opcode_table.json`, the raw fields
of a command word (R66), why a word is no command (R72), and the pseudo-instructions (R76). -/

namespace Sys2Proof

/-- One constructor per row of `spec/opcode_table.json`. Every operand has exactly the width its field has (R66 to
R68), so every term is a command that some word encodes. -/
inductive Instr where
  /-- `NEW vd, size, dec` (R95). -/
  | new (rd : Reg) (size dec : BitVec 16)
  /-- `SETINT vd, int` (R96); `imm` is `w[31:0]`, read as a signed integer. -/
  | setint (rd : Reg) (imm : BitVec 32)
  /-- `LDSTR vd, addr, len` (R97). -/
  | ldstr (rd : Reg) (addr len : BitVec 16)
  /-- `ASGSTR vd, addr, len` (R98). -/
  | asgstr (rd : Reg) (addr len : BitVec 16)
  /-- `MOV vd, vs` (R99). -/
  | mov (rd rs1 : Reg)
  /-- `COMPL vd` (R100). -/
  | compl (rd : Reg)
  /-- `SHL vd, n` (R101). -/
  | shl (rd : Reg) (n : BitVec 16)
  /-- `SHR vd, n` (R102). -/
  | shr (rd : Reg) (n : BitVec 16)
  /-- `SETDIG vd, index, bit` (R103). -/
  | setdig (rd : Reg) (index bit : BitVec 16)
  /-- `SETDEC vd, dec` (R104). -/
  | setdec (rd : Reg) (dec : BitVec 16)
  /-- `RESIZE vd, vs, n` (R108). -/
  | resize (rd rs1 : Reg) (n : BitVec 16)
  /-- `PAD vd, vs, n` (R109). -/
  | pad (rd rs1 : Reg) (n : BitVec 16)
  /-- `TRUNC vd, vs, n` (R110). -/
  | trunc (rd rs1 : Reg) (n : BitVec 16)
  /-- `SIZE vs` (R111). -/
  | size (rs1 : Reg)
  /-- `DECIDX vs` (R112). -/
  | decidx (rs1 : Reg)
  /-- `OVF vs` (R113). -/
  | ovf (rs1 : Reg)
  /-- `CIN vs` (R114). -/
  | cin (rs1 : Reg)
  /-- `TRUNCF vs` (R115). -/
  | truncf (rs1 : Reg)
  /-- `TOREAL vs` (R117). -/
  | toreal (rs1 : Reg)
  /-- `STSTR vs, addr` (R118). -/
  | ststr (rs1 : Reg) (addr : BitVec 16)
  /-- `EQ vs1, vs2` (R119). -/
  | eq (rs1 rs2 : Reg)
  /-- `FA a, b, cin` (R141): three single bits of `immB` (R68). -/
  | fa (a b c : Bool)
  /-- `ADD vd, vs1, vs2` (R148). -/
  | add (rd rs1 rs2 : Reg)
  /-- `SUB vd, vs1, vs2` (R150). -/
  | sub (rd rs1 rs2 : Reg)
  /-- `MUL vd, vs1, vs2` (R171). -/
  | mul (rd rs1 rs2 : Reg)
  /-- `MDIV vd, vs1, vs2` (R191). -/
  | mdiv (rd rs1 rs2 : Reg)
  /-- `RDIV vd, vs1, vs2` (R203). -/
  | rdiv (rd rs1 rs2 : Reg)
  /-- `CLRCOST` (R221). -/
  | clrcost
deriving DecidableEq, Repr

/-- The fields of a command word, before decoding (R66). -/
structure Fields where
  op : BitVec 8
  rd : BitVec 4
  rs1 : BitVec 4
  rs2 : BitVec 4
  zero : BitVec 12
  immA : BitVec 16
  immB : BitVec 16
deriving DecidableEq, Repr

/-- Why a word is no command (R72): either makes it illegal. -/
inductive Illegal where
  /-- The opcode is one of the 228 unassigned ones. -/
  | unassignedOpcode
  /-- The opcode is assigned and a field the format does not use is not zero (R69). -/
  | nonzeroUnusedField
deriving DecidableEq, Repr

/-- The pseudo-instructions of R76 that expand to commands. -/
inductive Pseudo where
  /-- `NEWZ vd, size`. -/
  | newz (rd : Reg) (size : BitVec 16)
  /-- `NEWI vd, size, dec, int`. -/
  | newi (rd : Reg) (size dec : BitVec 16) (imm : BitVec 32)
  /-- `NEG vd, vs`. -/
  | neg (rd rs1 : Reg)
deriving DecidableEq, Repr

end Sys2Proof
end

