-- ==== Sys2Proof/WellFormed.lean ====
section
/-! DEFINITION. WellFormed: which command words are legal, by the match and mask table of `spec/30_encoding.md` R70
alone (Decode.lean reads the word by its fields instead, R66 to R69), and which values a register may hold
(`spec/10_state.md` R21, R22). Every term of `Instr` is well formed, because its operands have the widths of their
fields; the checks are on words and on values. -/

namespace Sys2Proof

/-- One row of the table of R70. -/
structure OpRow where
  mnemonic : String
  bits : Word
  mask : Word
deriving DecidableEq, Repr

/-- R70, first part: construct and copy, mutate in place. -/
def opcodeTableA : List OpRow :=
  [ ⟨"NEW", 0x0100000000000000#64, 0xFF0FFFFF00000000#64⟩,
    ⟨"SETINT", 0x0200000000000000#64, 0xFF0FFFFF00000000#64⟩,
    ⟨"LDSTR", 0x0300000000000000#64, 0xFF0FFFFF00000000#64⟩,
    ⟨"ASGSTR", 0x0400000000000000#64, 0xFF0FFFFF00000000#64⟩,
    ⟨"MOV", 0x0500000000000000#64, 0xFF00FFFFFFFFFFFF#64⟩,
    ⟨"COMPL", 0x0800000000000000#64, 0xFF0FFFFFFFFFFFFF#64⟩,
    ⟨"SHL", 0x0900000000000000#64, 0xFF0FFFFFFFFF0000#64⟩,
    ⟨"SHR", 0x0A00000000000000#64, 0xFF0FFFFFFFFF0000#64⟩,
    ⟨"SETDIG", 0x0B00000000000000#64, 0xFF0FFFFF00000000#64⟩,
    ⟨"SETDEC", 0x0C00000000000000#64, 0xFF0FFFFFFFFF0000#64⟩,
    ⟨"RESIZE", 0x0D00000000000000#64, 0xFF00FFFFFFFF0000#64⟩,
    ⟨"PAD", 0x0E00000000000000#64, 0xFF00FFFFFFFF0000#64⟩,
    ⟨"TRUNC", 0x0F00000000000000#64, 0xFF00FFFFFFFF0000#64⟩ ]

/-- R70, second part: queries, arithmetic, system. -/
def opcodeTableB : List OpRow :=
  [ ⟨"SIZE", 0x1000000000000000#64, 0xFFF0FFFFFFFFFFFF#64⟩,
    ⟨"DECIDX", 0x1100000000000000#64, 0xFFF0FFFFFFFFFFFF#64⟩,
    ⟨"OVF", 0x1200000000000000#64, 0xFFF0FFFFFFFFFFFF#64⟩,
    ⟨"CIN", 0x1300000000000000#64, 0xFFF0FFFFFFFFFFFF#64⟩,
    ⟨"TRUNCF", 0x1400000000000000#64, 0xFFF0FFFFFFFFFFFF#64⟩,
    ⟨"TOREAL", 0x1500000000000000#64, 0xFFF0FFFFFFFFFFFF#64⟩,
    ⟨"STSTR", 0x1600000000000000#64, 0xFFF0FFFF0000FFFF#64⟩,
    ⟨"EQ", 0x1700000000000000#64, 0xFFF00FFFFFFFFFFF#64⟩,
    ⟨"FA", 0x2000000000000000#64, 0xFFFFFFFFFFFFFFF8#64⟩,
    ⟨"ADD", 0x2100000000000000#64, 0xFF000FFFFFFFFFFF#64⟩,
    ⟨"SUB", 0x2200000000000000#64, 0xFF000FFFFFFFFFFF#64⟩,
    ⟨"MUL", 0x2300000000000000#64, 0xFF000FFFFFFFFFFF#64⟩,
    ⟨"MDIV", 0x2400000000000000#64, 0xFF000FFFFFFFFFFF#64⟩,
    ⟨"RDIV", 0x2500000000000000#64, 0xFF000FFFFFFFFFFF#64⟩,
    ⟨"CLRCOST", 0x3000000000000000#64, 0xFFFFFFFFFFFFFFFF#64⟩ ]

/-- The 28 rows of R70, in its order. -/
def opcodeTable : List OpRow := opcodeTableA ++ opcodeTableB

/-- R70: "A word `w` is the command of a row when `(w & mask) == match`." -/
def OpRow.accepts (r : OpRow) (w : Word) : Bool := w &&& r.mask == r.bits

/-- R72: a word is a command exactly when it matches a row. -/
def legalWord (w : Word) : Bool := opcodeTable.any (fun r => r.accepts w)

/-- The row of R70 that a command belongs to. -/
def Instr.mnemonic : Instr → String
  | .new .. => "NEW"
  | .setint .. => "SETINT"
  | .ldstr .. => "LDSTR"
  | .asgstr .. => "ASGSTR"
  | .mov .. => "MOV"
  | .compl .. => "COMPL"
  | .shl .. => "SHL"
  | .shr .. => "SHR"
  | .setdig .. => "SETDIG"
  | .setdec .. => "SETDEC"
  | .resize .. => "RESIZE"
  | .pad .. => "PAD"
  | .trunc .. => "TRUNC"
  | .size .. => "SIZE"
  | .decidx .. => "DECIDX"
  | .ovf .. => "OVF"
  | .cin .. => "CIN"
  | .truncf .. => "TRUNCF"
  | .toreal .. => "TOREAL"
  | .ststr .. => "STSTR"
  | .eq .. => "EQ"
  | .fa .. => "FA"
  | .add .. => "ADD"
  | .sub .. => "SUB"
  | .mul .. => "MUL"
  | .mdiv .. => "MDIV"
  | .rdiv .. => "RDIV"
  | .clrcost => "CLRCOST"

/-- R21 (b), (c): the format of a value a register may hold. -/
def Fpn.formatOk (v : Fpn) : Bool :=
  decide (1 ≤ v.size) && decide (v.size ≤ Config.wmax) && decide (v.decimal ≤ v.size)

/-- R22: `overflow` and `carryin` "are always equal in a value produced by this block". -/
def Fpn.flagsOk (v : Fpn) : Bool := v.overflow == v.carryin

/-- A value the block can produce (R21, R22). -/
def Fpn.wf (v : Fpn) : Bool := v.formatOk && v.flagsOk

end Sys2Proof
end

