-- ==== Sys2Proof/Decode.lean ====
section
/-! DEFINITION. Decode: command words to commands by their fields (`spec/30_encoding.md` R66 to R69, R72, R73), and
after it the encoder (R66, R68). The match and mask table of R70 stands in WellFormed.lean and is not used here. -/

namespace Sys2Proof

/-- R66: the fields of a word. -/
def fields (w : Word) : Fields :=
  { op := w.extractLsb' 56 8
    rd := w.extractLsb' 52 4
    rs1 := w.extractLsb' 48 4
    rs2 := w.extractLsb' 44 4
    zero := w.extractLsb' 32 12
    immA := w.extractLsb' 16 16
    immB := w.extractLsb' 0 16 }

/-- R68: `imm32`, `immA` the high half and `immB` the low half. -/
def imm32 (f : Fields) : BitVec 32 := BitVec.ofNat 32 (f.immA.toNat * 2 ^ 16 + f.immB.toNat)

/-- R73: every 4-bit value names a register. -/
def regOf (x : BitVec 4) : Reg := x.toFin

/-- R69 for the formats `DAI` and `DW` (R67): `rs1`, `rs2` and `zero` are 0. -/
def unusedDAI (f : Fields) : Bool := f.rs1 == 0#4 && f.rs2 == 0#4 && f.zero == 0#12

/-- R69 for the format `DS`. -/
def unusedDS (f : Fields) : Bool := f.rs2 == 0#4 && f.zero == 0#12 && f.immA == 0#16 && f.immB == 0#16

/-- R69 for the format `D`. -/
def unusedD (f : Fields) : Bool :=
  f.rs1 == 0#4 && f.rs2 == 0#4 && f.zero == 0#12 && f.immA == 0#16 && f.immB == 0#16

/-- R69 for the format `DI`. -/
def unusedDI (f : Fields) : Bool := f.rs1 == 0#4 && f.rs2 == 0#4 && f.zero == 0#12 && f.immA == 0#16

/-- R69 for the format `DSI`. -/
def unusedDSI (f : Fields) : Bool := f.rs2 == 0#4 && f.zero == 0#12 && f.immA == 0#16

/-- R69 for the format `S`. -/
def unusedS (f : Fields) : Bool :=
  f.rd == 0#4 && f.rs2 == 0#4 && f.zero == 0#12 && f.immA == 0#16 && f.immB == 0#16

/-- R69 for the format `SA`. -/
def unusedSA (f : Fields) : Bool := f.rd == 0#4 && f.rs2 == 0#4 && f.zero == 0#12 && f.immB == 0#16

/-- R69 for the format `SS`. -/
def unusedSS (f : Fields) : Bool := f.rd == 0#4 && f.zero == 0#12 && f.immA == 0#16 && f.immB == 0#16

/-- R69 for the format `B`: "in `FA`, bits `immB[15:3]` must be zero as well". -/
def unusedB (f : Fields) : Bool :=
  f.rd == 0#4 && f.rs1 == 0#4 && f.rs2 == 0#4 && f.zero == 0#12 && f.immA == 0#16 && f.immB.extractLsb' 3 13 == 0#13

/-- R69 for the format `DSS`. -/
def unusedDSS (f : Fields) : Bool := f.zero == 0#12 && f.immA == 0#16 && f.immB == 0#16

/-- R69 for the format `N`. -/
def unusedN (f : Fields) : Bool :=
  f.rd == 0#4 && f.rs1 == 0#4 && f.rs2 == 0#4 && f.zero == 0#12 && f.immA == 0#16 && f.immB == 0#16

/-- R69, R72: the command, if every unused field is zero. -/
def whenUnusedZero (ok : Bool) (i : Instr) : Except Illegal Instr :=
  if ok then .ok i else .error .nonzeroUnusedField

/-- The command that the fields stand for: opcodes of R70, formats of R67, operand order of R75. -/
def decodeFields (f : Fields) : Except Illegal Instr :=
  match f.op.toNat with
  | 0x01 => whenUnusedZero (unusedDAI f) (.new (regOf f.rd) f.immA f.immB)
  | 0x02 => whenUnusedZero (unusedDAI f) (.setint (regOf f.rd) (imm32 f))
  | 0x03 => whenUnusedZero (unusedDAI f) (.ldstr (regOf f.rd) f.immA f.immB)
  | 0x04 => whenUnusedZero (unusedDAI f) (.asgstr (regOf f.rd) f.immA f.immB)
  | 0x05 => whenUnusedZero (unusedDS f) (.mov (regOf f.rd) (regOf f.rs1))
  | 0x08 => whenUnusedZero (unusedD f) (.compl (regOf f.rd))
  | 0x09 => whenUnusedZero (unusedDI f) (.shl (regOf f.rd) f.immB)
  | 0x0A => whenUnusedZero (unusedDI f) (.shr (regOf f.rd) f.immB)
  | 0x0B => whenUnusedZero (unusedDAI f) (.setdig (regOf f.rd) f.immA f.immB)
  | 0x0C => whenUnusedZero (unusedDI f) (.setdec (regOf f.rd) f.immB)
  | 0x0D => whenUnusedZero (unusedDSI f) (.resize (regOf f.rd) (regOf f.rs1) f.immB)
  | 0x0E => whenUnusedZero (unusedDSI f) (.pad (regOf f.rd) (regOf f.rs1) f.immB)
  | 0x0F => whenUnusedZero (unusedDSI f) (.trunc (regOf f.rd) (regOf f.rs1) f.immB)
  | 0x10 => whenUnusedZero (unusedS f) (.size (regOf f.rs1))
  | 0x11 => whenUnusedZero (unusedS f) (.decidx (regOf f.rs1))
  | 0x12 => whenUnusedZero (unusedS f) (.ovf (regOf f.rs1))
  | 0x13 => whenUnusedZero (unusedS f) (.cin (regOf f.rs1))
  | 0x14 => whenUnusedZero (unusedS f) (.truncf (regOf f.rs1))
  | 0x15 => whenUnusedZero (unusedS f) (.toreal (regOf f.rs1))
  | 0x16 => whenUnusedZero (unusedSA f) (.ststr (regOf f.rs1) f.immA)
  | 0x17 => whenUnusedZero (unusedSS f) (.eq (regOf f.rs1) (regOf f.rs2))
  | 0x20 => whenUnusedZero (unusedB f) (.fa (f.immB.getLsbD 0) (f.immB.getLsbD 1) (f.immB.getLsbD 2))
  | 0x21 => whenUnusedZero (unusedDSS f) (.add (regOf f.rd) (regOf f.rs1) (regOf f.rs2))
  | 0x22 => whenUnusedZero (unusedDSS f) (.sub (regOf f.rd) (regOf f.rs1) (regOf f.rs2))
  | 0x23 => whenUnusedZero (unusedDSS f) (.mul (regOf f.rd) (regOf f.rs1) (regOf f.rs2))
  | 0x24 => whenUnusedZero (unusedDSS f) (.mdiv (regOf f.rd) (regOf f.rs1) (regOf f.rs2))
  | 0x25 => whenUnusedZero (unusedDSS f) (.rdiv (regOf f.rd) (regOf f.rs1) (regOf f.rs2))
  | 0x30 => whenUnusedZero (unusedN f) .clrcost
  | _ => .error .unassignedOpcode

/-- R73: decoding is total; it answers the command or why the word is illegal. -/
def decode (w : Word) : Except Illegal Instr := decodeFields (fields w)

/-- R66: a word from its fields, `zero` being 0. -/
def pack (op rd rs1 rs2 immA immB : Nat) : Word :=
  BitVec.ofNat 64 (op * 2 ^ 56 + rd * 2 ^ 52 + rs1 * 2 ^ 48 + rs2 * 2 ^ 44 + immA * 2 ^ 16 + immB)

/-- R68: `immB` of `FA`, `a + 2·b + 4·cin`. -/
def packFa (a b c : Bool) : Nat := a.toNat + 2 * b.toNat + 4 * c.toNat

/-- The one word of a command (R69: "every command has exactly one encoding"). -/
def encode : Instr → Word
  | .new rd size dec => pack 0x01 rd 0 0 size.toNat dec.toNat
  | .setint rd imm => pack 0x02 rd 0 0 (imm.toNat / 2 ^ 16) (imm.toNat % 2 ^ 16)
  | .ldstr rd addr len => pack 0x03 rd 0 0 addr.toNat len.toNat
  | .asgstr rd addr len => pack 0x04 rd 0 0 addr.toNat len.toNat
  | .mov rd rs1 => pack 0x05 rd rs1 0 0 0
  | .compl rd => pack 0x08 rd 0 0 0 0
  | .shl rd n => pack 0x09 rd 0 0 0 n.toNat
  | .shr rd n => pack 0x0A rd 0 0 0 n.toNat
  | .setdig rd index bit => pack 0x0B rd 0 0 index.toNat bit.toNat
  | .setdec rd dec => pack 0x0C rd 0 0 0 dec.toNat
  | .resize rd rs1 n => pack 0x0D rd rs1 0 0 n.toNat
  | .pad rd rs1 n => pack 0x0E rd rs1 0 0 n.toNat
  | .trunc rd rs1 n => pack 0x0F rd rs1 0 0 n.toNat
  | .size rs1 => pack 0x10 0 rs1 0 0 0
  | .decidx rs1 => pack 0x11 0 rs1 0 0 0
  | .ovf rs1 => pack 0x12 0 rs1 0 0 0
  | .cin rs1 => pack 0x13 0 rs1 0 0 0
  | .truncf rs1 => pack 0x14 0 rs1 0 0 0
  | .toreal rs1 => pack 0x15 0 rs1 0 0 0
  | .ststr rs1 addr => pack 0x16 0 rs1 0 addr.toNat 0
  | .eq rs1 rs2 => pack 0x17 0 rs1 rs2 0 0
  | .fa a b c => pack 0x20 0 0 0 0 (packFa a b c)
  | .add rd rs1 rs2 => pack 0x21 rd rs1 rs2 0 0
  | .sub rd rs1 rs2 => pack 0x22 rd rs1 rs2 0 0
  | .mul rd rs1 rs2 => pack 0x23 rd rs1 rs2 0 0
  | .mdiv rd rs1 rs2 => pack 0x24 rd rs1 rs2 0 0
  | .rdiv rd rs1 rs2 => pack 0x25 rd rs1 rs2 0 0
  | .clrcost => pack 0x30 0 0 0 0 0

/-- The command that the decoder reads from a table word of `nbits` bits (the host's interface); the bits above
`nbits` are 0. A command word is one 64-bit number (R65), so there is no byte order to apply. -/
def decodeTableWord (nbits w : Nat) : Option Instr :=
  match decode (BitVec.ofNat 64 (w % 2 ^ nbits)) with
  | .ok i => some i
  | .error _ => none

end Sys2Proof
end

