-- ==== Sys2Proof/Machine/State.lean ====
section
/-! DEFINITION. State: everything `spec/10_state.md` gives the machine, the six kinds of fault, the four division
states, the host's actions (`spec/60_exceptions.md` R258), and the machine right after reset (R44). -/

namespace Sys2Proof.Machine

/-- The kinds of hard failure (`spec/60_exceptions.md` R240). Raising one is a NEXT state of the model, the faulted
state (R246); none of them stops the model. -/
inductive FaultKind where
  /-- Code 1 (R241). -/
  | widthMismatch
  /-- Code 2 (R242). -/
  | invalidArgument
  /-- Code 3 (R243). -/
  | divideByZero
  /-- Code 4 (R244). -/
  | unwrittenRegister
  /-- Code 5 (R245). -/
  | illegalCommand
  /-- Code 6 (R248). -/
  | bufferRange
deriving DecidableEq, Repr

/-- The states of a division (`spec/10_state.md` R36, `spec/43_division.md` R186). -/
inductive DivState where
  | initializing
  | iterating
  | converged
  | exhausted
deriving DecidableEq, Repr

/-- What a division function returns (`spec/43_division.md` R185). -/
structure DivResult where
  quotient : Fpn
  cost : Nat
  state : DivState
  iterations : Nat
deriving DecidableEq, Repr

/-- The contents of `RR` (`spec/10_state.md` R34): the value `m / 2^d`. -/
structure RealPair where
  m : Int
  d : Nat
deriving DecidableEq, Repr

/-- What the host may do between two commands (`spec/60_exceptions.md` R258). -/
inductive HostAction where
  /-- (a) Read any state; nothing changes. -/
  | read
  /-- (b) Write one byte of `BUF`. -/
  | writeBuf (addr : BitVec 16) (b : Byte)
  /-- (c) Present the next command word. -/
  | present (w : Word)
  /-- (d) Assert reset (`spec/70_reset_and_hazards.md` R265). -/
  | reset
deriving DecidableEq, Repr

/-- Why the MODEL stops with a fault: never. It has no constructor, because the spec gives every command word in every
state an outcome (`spec/93_implementation_defined.md`: "every command word and every state has one defined outcome"),
and a fault of the hardware is a next state (log entry 4, safe). -/
inductive Fault where
deriving DecidableEq, Repr

/-- Why the model has no meaning for an instruction. -/
inductive Refusal where
  /-- Raised by an arm of `exec` whose instruction has no meaning yet; no arm raises it now. Safe: the model stops. -/
  | notModelled (mnemonic : String)
deriving DecidableEq, Repr

/-- The state of the block (`spec/10_state.md` R42) and of the host's interface. -/
structure State where
  /-- `V[0]` to `V[15]` (R25): `none` is the mark `empty` (R26). -/
  v : Vector (Option Fpn) 16
  /-- `COST` (R32): a natural number with no upper bound. -/
  cost : Nat
  /-- `Q` (R33). -/
  q : BitVec 64
  /-- `RR` (R34). -/
  rr : RealPair
  /-- `STATUS` (R35). -/
  status : BitVec 16
  /-- `FCMD` (R39). -/
  fcmd : BitVec 64
  /-- `BUF` (R41): the bytes written since reset, addresses strictly rising. -/
  buf : List Host.Cell
  /-- The model's own (log entry 2): how many resets the host has asserted; selects the unspecified bytes of `BUF`. -/
  epoch : Nat
  /-- The model's own (log entry 3): the actions the host will take, the next one first. -/
  host : List HostAction
deriving DecidableEq, Repr

/-- The machine right after reset (`spec/10_state.md` R44, `spec/70_reset_and_hazards.md` R265): all registers empty,
`BUF` unspecified, nothing else set; the host has not yet acted. -/
def State.reset : State :=
  { v := Vector.replicate 16 none
    cost := 0
    q := 0#64
    rr := ⟨0, 0⟩
    status := 0#16
    fcmd := 0#64
    buf := []
    epoch := 0
    host := [] }

end Sys2Proof.Machine
end

