-- ==== Sys2Proof/Machine/Ops.lean ====
section
/-! DEFINITION. Ops: reading and writing the registers, `STATUS` and `BUF`; taking a fault; resetting; the host's
actions. -/

namespace Sys2Proof.Machine

/-! ### Registers -/

/-- `V[r]` as a source (`spec/00_scope.md` R12): an empty register raises `UnwrittenRegister` (`spec/10_state.md`
R27). -/
def State.readReg (s : State) (r : Reg) : Except FaultKind Fpn :=
  match s.v.get r with
  | some x => .ok x
  | none => .error .unwrittenRegister

/-- `V[r] <- x`: the whole value is replaced (`spec/10_state.md` R28). -/
def State.setReg (s : State) (r : Reg) (x : Fpn) : State := { s with v := s.v.set r.val (some x) r.isLt }

/-- `COST <- COST + c` (`spec/44_system.md` R220). -/
def State.addCost (s : State) (c : Nat) : State := { s with cost := s.cost + c }

/-- `Q <- n` (`spec/10_state.md` R33). -/
def State.setQ (s : State) (n : Nat) : State := { s with q := BitVec.ofNat 64 n }

/-- `RR <- r` (`spec/10_state.md` R34). -/
def State.setRR (s : State) (r : RealPair) : State := { s with rr := r }

/-! ### STATUS -/

/-- The 16 bits of `STATUS` from its fields (`spec/10_state.md` R35). -/
def packStatus (fault : BitVec 4) (reserved : BitVec 2) (iter : BitVec 8) (divstate : BitVec 2) : BitVec 16 :=
  BitVec.ofNat 16 (fault.toNat * 2 ^ 12 + reserved.toNat * 2 ^ 10 + iter.toNat * 2 ^ 2 + divstate.toNat)

/-- `STATUS.FAULT` (R38). -/
def State.faultCode (s : State) : BitVec 4 := s.status.extractLsb' 12 4

/-- `STATUS` bits `[11:10]` (R35). -/
def State.statusReserved (s : State) : BitVec 2 := s.status.extractLsb' 10 2

/-- `STATUS.DIVITER` (R37). -/
def State.diviter (s : State) : BitVec 8 := s.status.extractLsb' 2 8

/-- `STATUS.DIVSTATE` (R36). -/
def State.divstate (s : State) : BitVec 2 := s.status.extractLsb' 0 2

/-- The codes of R36. -/
def DivState.code : DivState → BitVec 2
  | .initializing => 0#2
  | .iterating => 1#2
  | .converged => 2#2
  | .exhausted => 3#2

/-- The codes of R38 and of `spec/60_exceptions.md` R240. -/
def FaultKind.code : FaultKind → BitVec 4
  | .widthMismatch => 1#4
  | .invalidArgument => 2#4
  | .divideByZero => 3#4
  | .unwrittenRegister => 4#4
  | .illegalCommand => 5#4
  | .bufferRange => 6#4

/-- `STATUS.DIVSTATE <- st`, `STATUS.DIVITER <- n` (`spec/43_division.md` R191, R203). -/
def State.setDiv (s : State) (st : DivState) (n : Nat) : State :=
  { s with status := packStatus s.faultCode s.statusReserved (BitVec.ofNat 8 n) st.code }

/-! ### Faults -/

/-- The faulted state: `STATUS.FAULT != 0` (`spec/60_exceptions.md` R246). -/
def State.faulted (s : State) : Bool := s.faultCode != 0#4

/-- TAKING A FAULT (`spec/60_exceptions.md` R246): `STATUS.FAULT <- c`, `FCMD <-` the command word, "these writes
happen, and no others". There is no handler and no return (R254); reset alone leaves the faulted state (R247). -/
def takeFault (k : FaultKind) (w : Word) (s : State) : State :=
  { s with status := packStatus k.code s.statusReserved s.diviter s.divstate, fcmd := w }

/-- How a command ends (`spec/60_exceptions.md` R250): all its writes, or the fault entry alone. The word recorded in
`FCMD` is the one word that encodes the command (`spec/30_encoding.md` R69; log entry 6). -/
def complete (i : Instr) (s : State) (r : Except FaultKind State) : Host.Outcome State Fault Refusal :=
  match r with
  | .ok t => .next t
  | .error k => .next (takeFault k (encode i) s)

/-! ### BUF -/

/-- What was last written to an address since reset, if anything was. -/
def Memory.read : List Host.Cell → Nat → Option Byte
  | [], _ => none
  | (a', b) :: m, a => if a = a' then some b else Memory.read m a

/-- Writes one byte, keeping the addresses strictly rising. -/
def Memory.write : List Host.Cell → Nat → Byte → List Host.Cell
  | [], a, b => [(a, b)]
  | (a', b') :: m, a, b =>
    if a < a' then (a, b) :: (a', b') :: m
    else if a = a' then (a, b) :: m
    else (a', b') :: Memory.write m a b

/-- Writes bytes at rising addresses from `a` (`spec/20_memory.md` R51: first character at the lowest address). -/
def Memory.writeBytes : List Host.Cell → Nat → List Byte → List Host.Cell
  | m, _, [] => m
  | m, a, b :: bs => Memory.writeBytes (Memory.write m a b) (a + 1) bs

/-- Addresses from `lo` on, strictly rising, all inside `BUF`. -/
def Memory.wfFrom : Nat → List Host.Cell → Bool
  | _, [] => true
  | lo, (a, _) :: m => decide (lo ≤ a) && decide (a < Config.bufsz) && Memory.wfFrom (a + 1) m

/-- The canonical form of `BUF`: strictly rising addresses, all in 0 to 65535 (`spec/20_memory.md` R50). An unlisted
address has no written value, so no entry can equal what it reads as (log entry 1). -/
def Memory.wf (m : List Host.Cell) : Bool := Memory.wfFrom 0 m

/-- What a byte of `BUF` reads as while nothing has written it since the last reset: a free value, the same on every
read (`spec/20_memory.md` R53, `spec/10_state.md` R44; log entry 1). -/
def unwrittenByte (epoch a : Nat) : Byte := Config.freeByte epoch a

/-- `BUF[a]` (`spec/20_memory.md` R53). -/
def State.bufByte (s : State) (a : Nat) : Byte := (Memory.read s.buf a).getD (unwrittenByte s.epoch a)

/-- `MemRead(addr, n)` (`spec/00_scope.md` R13, `spec/20_memory.md` R54). -/
def State.memRead (s : State) (addr n : Nat) : Except FaultKind (List Byte) :=
  if addr + n > Config.bufsz then .error .bufferRange
  else .ok ((List.range n).map (fun k => s.bufByte (addr + k)))

/-- `MemWrite(addr, n, bytes)` with `n` the number of bytes (`spec/00_scope.md` R13, `spec/20_memory.md` R54). -/
def State.memWrite (s : State) (addr : Nat) (bytes : List Byte) : Except FaultKind State :=
  if addr + bytes.length > Config.bufsz then .error .bufferRange
  else .ok { s with buf := Memory.writeBytes s.buf addr bytes }

/-! ### The host's actions (`spec/60_exceptions.md` R258) -/

/-- Removes the action that is being performed. -/
def State.popHost (s : State) : State := { s with host := s.host.tail }

/-- (b) The host writes one byte of `BUF`, in the faulted state too (log entry 8). -/
def hostWrite (addr : BitVec 16) (b : Byte) (s : State) : State :=
  { s with buf := Memory.write s.buf addr.toNat b }

/-- (d) Reset (`spec/70_reset_and_hazards.md` R265): every piece of state at the value of `spec/10_state.md` R44, the
bytes of `BUF` unspecified anew (log entry 2); the host's later actions are still to come. -/
def hostReset (s : State) : State := { State.reset with epoch := s.epoch + 1, host := s.host }

/-- (a) The host reads; "Reads change nothing." -/
def hostRead (s : State) : State := s

/-- No action pending: nothing happens until the host acts (`spec/70_reset_and_hazards.md` R266, R273). -/
def hostIdle (s : State) : State := s

/-- A command presented in the faulted state is ignored: "it is not decoded, changes no state, raises no second fault
and does not overwrite `FCMD`" (`spec/60_exceptions.md` R247). -/
def ignoreCommand (s : State) : State := s

end Sys2Proof.Machine
end

