-- ==== Sys2Proof/Machine/Operands.lean ====
section
/-! DEFINITION. Operands: the readings of a value (`spec/00_scope.md` R11, `spec/40_number_representation.md` R94,
R116), the bits of an integer (R96), texts in and out (R90, R91), and the shapes in which a command reads its
operands and writes its result (`spec/10_state.md` R29: all reads, then the computation, then the writes). -/

namespace Sys2Proof.Machine

/-! ### Readings of a bit list and of a value -/

/-- `uint` of a list of bits, index 0 the least significant (`spec/00_scope.md` R11). -/
def bitsToNat : List Bool → Nat
  | [] => 0
  | b :: bs => b.toNat + 2 * bitsToNat bs

/-- `uint(v)` (`spec/00_scope.md` R11). -/
def uint (v : Fpn) : Nat := bitsToNat v.bits

/-- `v.bits[i]`, and 0 outside `0 <= i < v.size`. -/
def bitAt (v : Fpn) (i : Nat) : Bool := v.bits.getD i false

/-- `sign(v) = v.bits[v.size − 1]` (`spec/00_scope.md` R11). -/
def sign (v : Fpn) : Bool := bitAt v (v.size - 1)

/-- `sint(v)`: two's complement, the top bit weighted negatively (`spec/00_scope.md` R11). -/
def sint (v : Fpn) : Int := (uint v : Int) - ((sign v).toNat : Int) * 2 ^ v.size

/-- `bitlength(x)` (`spec/00_scope.md` R11). -/
def bitlength (x : Nat) : Nat := if x = 0 then 0 else Nat.log2 x + 1

/-- `floor_log2(n)` (`spec/00_scope.md` R11). -/
def floorLog2 (n : Nat) : Nat := Nat.log2 n

/-- `toReal(v) = sint(v) / 2^decimal`, exact (`spec/40_number_representation.md` R116, `spec/00_scope.md` R17). -/
def toReal (v : Fpn) : ℚ := (sint v : ℚ) / 2 ^ v.decimal

/-- `ext(v, p)`: the bit of weight `2^p`, 0 below the value and its sign bit above it
(`spec/40_number_representation.md` R94). -/
def ext (v : Fpn) (p : Int) : Bool :=
  let j := p + v.decimal
  if j < 0 then false
  else if j < v.size then bitAt v j.toNat
  else sign v

/-! ### Immediates -/

/-- The `n` lowest bits of a natural number, index 0 first. -/
def natToBits (n x : Nat) : List Bool := (List.range n).map (fun i => x.testBit i)

/-- The bits that `SETINT` writes into a value of size `s` and decimal index `d`:
`(imm32 · 2^d) mod 2^s` (`spec/40_number_representation.md` R96). -/
def intBits (s d : Nat) (imm : BitVec 32) : List Bool := natToBits s ((imm.toInt * 2 ^ d) % 2 ^ s).toNat

/-! ### Texts -/

/-- The byte of a character (`spec/00_scope.md` R18, ASCII; log entry 7). -/
def chZero : Byte := 0x30#8

/-- `'1'`. -/
def chOne : Byte := 0x31#8

/-- `'.'`. -/
def chPoint : Byte := 0x2E#8

/-- The digit byte of a bit (`spec/40_number_representation.md` R91). -/
def digitByte (b : Bool) : Byte := if b then chOne else chZero

/-- A size, a decimal index and a bit list: the size is the length of the list. -/
abbrev Parsed := Nat × List Bool

/-- `parse(t)` (`spec/40_number_representation.md` R90), its steps in order; the answer is `(d, b)`. -/
def parse (t : List Byte) : Except FaultKind Parsed :=
  if t.any (fun c => c != chZero && c != chOne && c != chPoint) then .error .invalidArgument
  else if t.count chPoint > 1 then .error .invalidArgument
  else
    let digits := t.filter (fun c => c != chPoint)
    if digits.length = 0 then .error .invalidArgument
    else
      let d := if t.contains chPoint then (t.dropWhile (fun c => c != chPoint)).length - 1 else 0
      .ok (d, digits.reverse.map (fun c => c == chOne))

/-- `display(v)` (`spec/40_number_representation.md` R91): the digits from the top bit down, the point after the digit
of bit `decimal`. -/
def display (v : Fpn) : List Byte :=
  let digits := v.bits.reverse.map digitByte
  digits.take (v.size - v.decimal) ++ chPoint :: digits.drop (v.size - v.decimal)

/-! ### How a command reads and writes -/

/-- `V[rd] <- f(V[rs1])`; with `rd = rs1` this is an in-place mutator. -/
def convert (rd rs1 : Reg) (f : Fpn → Except FaultKind Fpn) (s : State) : Except FaultKind State := do
  let x ← s.readReg rs1
  let y ← f x
  .ok (s.setReg rd y)

/-- `Q <- f(V[rs1])`. -/
def query (rs1 : Reg) (f : Fpn → Nat) (s : State) : Except FaultKind State := do
  let x ← s.readReg rs1
  .ok (s.setQ (f x))

/-- `(res, c) = f(V[rs1], V[rs2]); V[rd] <- res; COST <- COST + c`. -/
def arith (rd rs1 rs2 : Reg) (f : Fpn → Fpn → Except FaultKind (Fpn × Nat)) (s : State) : Except FaultKind State := do
  let l ← s.readReg rs1
  let r ← s.readReg rs2
  let p ← f l r
  .ok ((s.setReg rd p.1).addCost p.2)

/-- As `arith`, for the division engines: `STATUS.DIVSTATE` and `STATUS.DIVITER` are written too
(`spec/43_division.md` R191, R203). -/
def divide (rd rs1 rs2 : Reg) (f : Fpn → Fpn → Except FaultKind DivResult) (s : State) : Except FaultKind State := do
  let a ← s.readReg rs1
  let b ← s.readReg rs2
  let r ← f a b
  .ok (((s.setReg rd r.quotient).addCost r.cost).setDiv r.state r.iterations)

end Sys2Proof.Machine
end

