-- ==== Sys2Proof/Machine/Flags.lean ====
section
/-! DEFINITION. Flags: how the three flags of a value are computed (`spec/10_state.md` R22, R30). Flags are copied by
keeping the record; only the changes are named here. -/

namespace Sys2Proof.Machine

/-- The flags of an add-family result: the final carry "becomes both `overflow` and `carryin`", `truncated` says that
an operand lost low positions (`spec/41_full_adder_add_sub.md` R145, R149). -/
def withAddFlags (v : Fpn) (carry dropped : Bool) : Fpn :=
  { v with overflow := carry, carryin := carry, truncated := dropped }

/-- `truncated` accumulates when `k` low positions are cut (`spec/40_number_representation.md` R105, R107). -/
def truncatedBy (v : Fpn) (k : Nat) : Bool := v.truncated || decide (k > 0)

/-- Whether alignment to decimal index `D` drops low positions: positional, whatever the dropped bits hold
(`spec/41_full_adder_add_sub.md` R144). -/
def dropsLow (v : Fpn) (D : Nat) : Bool := decide (v.decimal > D)

end Sys2Proof.Machine
end

