-- ==== Sys2Proof/Machine/Construct.lean ====
section
/-! DEFINITION. Construct: the commands that make and copy values, `NEW`, `SETINT`, `LDSTR`, `ASGSTR`, `MOV`
(`spec/40_number_representation.md`, section 2). -/

namespace Sys2Proof.Machine

/-- The value of `NEW` (R95): all bits zero, all flags false. -/
def newValue (size dec : Nat) : Except FaultKind Fpn :=
  if size = 0 ∨ dec > size then .error .invalidArgument
  else .ok (Fpn.plain dec (List.replicate size false))

/-- `NEW vd, size, dec` (R95). -/
def execNew (rd : Reg) (size dec : BitVec 16) (s : State) : Host.Outcome State Fault Refusal :=
  complete (.new rd size dec) s do
    let x ← newValue size.toNat dec.toNat
    .ok (s.setReg rd x)

/-- The value of `SETINT` (R96): the integer at the radix point of the old format, all flags false. -/
def intValue (old : Fpn) (imm : BitVec 32) : Fpn := Fpn.plain old.decimal (intBits old.size old.decimal imm)

/-- `SETINT vd, int` (R96). -/
def execSetint (rd : Reg) (imm : BitVec 32) (s : State) : Host.Outcome State Fault Refusal :=
  complete (.setint rd imm) s (convert rd rd (fun old => .ok (intValue old imm)) s)

/-- `LDSTR vd, addr, len` (R97): the size is the number of digits of the text. -/
def execLdstr (rd : Reg) (addr len : BitVec 16) (s : State) : Host.Outcome State Fault Refusal :=
  complete (.ldstr rd addr len) s do
    let t ← s.memRead addr.toNat len.toNat
    let p ← parse t
    .ok (s.setReg rd (Fpn.plain p.1 p.2))

/-- The value of `ASGSTR` (R98): the text's digits, sign-extended to `S` bits with the text's own first digit. -/
def assignValue (S : Nat) (p : Parsed) : Except FaultKind Fpn :=
  if p.2.length > S then .error .widthMismatch
  else .ok (Fpn.plain p.1 (p.2 ++ List.replicate (S - p.2.length) (p.2.getD (p.2.length - 1) false)))

/-- `ASGSTR vd, addr, len` (R98); the order of the checks is that of `spec/60_exceptions.md` R249. -/
def execAsgstr (rd : Reg) (addr len : BitVec 16) (s : State) : Host.Outcome State Fault Refusal :=
  complete (.asgstr rd addr len) s do
    let old ← s.readReg rd
    let t ← s.memRead addr.toNat len.toNat
    let p ← parse t
    let x ← assignValue old.size p
    .ok (s.setReg rd x)

/-- `MOV vd, vs` (R99): all fields are copied, the flags among them. -/
def execMov (rd rs1 : Reg) (s : State) : Host.Outcome State Fault Refusal :=
  complete (.mov rd rs1) s (convert rd rs1 .ok s)

end Sys2Proof.Machine
end

