-- ==== Sys2Proof/Machine/Adder.lean ====
section
/-! DEFINITION. Adder: the full adder cell, the ripple chain, complement, alignment, add and subtract
(`spec/41_full_adder_add_sub.md`), and the commands `FA`, `ADD`, `SUB`. -/

namespace Sys2Proof.Machine

/-- The full adder cell (R140): the sum bit and the outgoing carry. -/
def fa (a b c : Bool) : Bool × Bool := (a ^^ b ^^ c, (a && b) || (c && (a ^^ b)))

/-- The ripple-carry chain (R142), starting at bit 0: the sum bits and the final carry. -/
def ripple : List Bool → List Bool → Bool → List Bool × Bool
  | x :: xs, y :: ys, c =>
    let (s, c') := fa x y c
    let (ss, cw) := ripple xs ys c'
    (s :: ss, cw)
  | _, _, c => ([], c)

/-- `complement(v)` (`spec/40_number_representation.md` R92): invert every bit, add 1 by ripple carry, drop the final
carry; the cost is `K_CMPL · size`. -/
def complement (v : Fpn) : Fpn × Nat :=
  ({ v with bits := (ripple (v.bits.map (!·)) (v.bits.map (fun _ => false)) true).1 }, Config.kCmpl * v.size)

/-- `commonFormat(l, r)` (R143): the width `W` and the decimal index `D = W − I`. -/
def commonFormat (l r : Fpn) : Nat × Nat :=
  let W := max l.size r.size
  let I := max (l.size - l.decimal) (r.size - r.decimal)
  (W, W - I)

/-- The bits of `align(v, W, D)` (R144): bit `p` is `v.bits[p − D + v.decimal]`, 0 outside the value. -/
def alignBits (v : Fpn) (W D : Nat) : List Bool :=
  (List.range W).map (fun p => if D ≤ p + v.decimal then bitAt v (p + v.decimal - D) else false)

/-- `align(v, W, D)` (R144): the aligned bits, and whether low positions were dropped. -/
def align (v : Fpn) (W D : Nat) : List Bool × Bool := (alignBits v W D, dropsLow v D)

/-- `add(l, r)` (R145): one ripple pass over the aligned operands; the cost is `K_ADD · W` (R146). -/
def add (l r : Fpn) : Fpn × Nat :=
  let (W, D) := commonFormat l r
  let (lb, ld) := align l W D
  let (rb, rd) := align r W D
  let (s, c) := ripple lb rb false
  (withAddFlags (Fpn.plain D s) c (ld || rd), Config.kAdd * W)

/-- `sub(l, r)` (R149): align, complement the right operand at the common width, ripple; the costs add. -/
def sub (l r : Fpn) : Fpn × Nat :=
  let (W, D) := commonFormat l r
  let (lb, ld) := align l W D
  let (rb, rd) := align r W D
  let (rn, cc) := complement (Fpn.plain D rb)
  let (s, c) := ripple lb rn.bits false
  (withAddFlags (Fpn.plain D s) c (ld || rd), cc + Config.kAdd * W)

/-- `FA a, b, cin` (R141): `Q <- s + 2·c`. -/
def execFa (a b c : Bool) (s : State) : Host.Outcome State Fault Refusal :=
  complete (.fa a b c) s (.ok (s.setQ ((fa a b c).1.toNat + 2 * (fa a b c).2.toNat)))

/-- `ADD vd, vs1, vs2` (R148). -/
def execAdd (rd rs1 rs2 : Reg) (s : State) : Host.Outcome State Fault Refusal :=
  complete (.add rd rs1 rs2) s (arith rd rs1 rs2 (fun l r => .ok (add l r)) s)

/-- `SUB vd, vs1, vs2` (R150). -/
def execSub (rd rs1 rs2 : Reg) (s : State) : Host.Outcome State Fault Refusal :=
  complete (.sub rd rs1 rs2) s (arith rd rs1 rs2 (fun l r => .ok (sub l r)) s)

end Sys2Proof.Machine
end

