-- ==== Sys2Proof/Machine/Width.lean ====
section
/-! DEFINITION. Width: `resize`, `pad`, `trunc` and the commands `RESIZE`, `PAD`, `TRUNC`
(`spec/40_number_representation.md`, section 4). -/

namespace Sys2Proof.Machine

/-- How many bits from the top down are 0. -/
def leadingZeros (b : List Bool) : Nat := (b.reverse.takeWhile (fun x => !x)).length

/-- `z` of R105: the leading zeros that may be trimmed, integer bits whose removal leaves a 0 integer bit on top. -/
def trimmable (v : Fpn) : Nat := min (leadingZeros v.bits - 1) (v.size - v.decimal - 1)

/-- `resize(v, N)` (R105): grow at the top with the sign bit; shrink by trimming leading zeros, then low bits. -/
def resize (v : Fpn) (N : Nat) : Except FaultKind Fpn :=
  if N = 0 then .error .invalidArgument
  else if N ≥ v.size then .ok { v with bits := v.bits ++ List.replicate (N - v.size) (sign v) }
  else
    let excess := v.size - N
    let t := min excess (trimmable v)
    let e := excess - t
    if e > v.decimal then .error .widthMismatch
    else .ok { v with
      decimal := v.decimal - e
      bits := (v.bits.take (v.size - t)).drop e
      truncated := truncatedBy v e }

/-- `pad(v, N)` (R106): zero bits at the least significant end, the decimal index grows with them. -/
def pad (v : Fpn) (N : Nat) : Except FaultKind Fpn :=
  if N < v.size then .error .widthMismatch
  else .ok { v with
    decimal := v.decimal + (N - v.size)
    bits := List.replicate (N - v.size) false ++ v.bits }

/-- `trunc(v, N)` (R107): the low bits are removed, the decimal index drops with them. -/
def trunc (v : Fpn) (N : Nat) : Except FaultKind Fpn :=
  if N = 0 then .error .invalidArgument
  else if N > v.size then .error .widthMismatch
  else if v.size - N > v.decimal then .error .widthMismatch
  else .ok { v with
    decimal := v.decimal - (v.size - N)
    bits := v.bits.drop (v.size - N)
    truncated := truncatedBy v (v.size - N) }

/-- `RESIZE vd, vs, n` (R108). -/
def execResize (rd rs1 : Reg) (n : BitVec 16) (s : State) : Host.Outcome State Fault Refusal :=
  complete (.resize rd rs1 n) s (convert rd rs1 (fun x => resize x n.toNat) s)

/-- `PAD vd, vs, n` (R109). -/
def execPad (rd rs1 : Reg) (n : BitVec 16) (s : State) : Host.Outcome State Fault Refusal :=
  complete (.pad rd rs1 n) s (convert rd rs1 (fun x => pad x n.toNat) s)

/-- `TRUNC vd, vs, n` (R110). -/
def execTrunc (rd rs1 : Reg) (n : BitVec 16) (s : State) : Host.Outcome State Fault Refusal :=
  complete (.trunc rd rs1 n) s (convert rd rs1 (fun x => trunc x n.toNat) s)

end Sys2Proof.Machine
end

