-- ==== Sys2Proof/Machine/Multiplier.lean ====
section
/-! DEFINITION. Multiplier: partial products, the reduction tree, `mul` and the command `MUL`
(`spec/42_multiplier.md`). -/

namespace Sys2Proof.Machine

/-- Row `i` of the partial-product matrix (R167), for operands of the common width `n` and result decimal index
`D`. -/
def partialRow (l r : Fpn) (n D i : Nat) : Fpn :=
  Fpn.plain D ((List.range (2 * n - 1)).map (fun j => bitAt r i && (decide (i ≤ j) && decide (j < n + i) && bitAt l (j - i))))

/-- All `n` rows, row 0 first (R167). -/
def partialRows (l r : Fpn) (n D : Nat) : List Fpn := (List.range n).map (partialRow l r n D)

/-- One level of the reduction tree (R168): adjacent values are added, an odd last one is carried forward. The costs
of these adds are discarded. -/
def reduceLevel : List Fpn → List Fpn
  | a :: b :: rest => (add a b).1 :: reduceLevel rest
  | rest => rest

/-- The tree (R168): levels until one value is left. Each level shortens a list of two or more, so the number of rows
is fuel enough. -/
def reduceTree : Nat → List Fpn → List Fpn
  | 0, level => level
  | k + 1, level => if level.length > 1 then reduceTree k (reduceLevel level) else level

/-- The product of the rows: what the tree leaves (R168). -/
def reduceRows (rows : List Fpn) : Fpn := (reduceTree rows.length rows).headD (Fpn.plain 0 [])

/-- The cost of a multiplication of common width `n` (R170). -/
def mulCost (n : Nat) : Nat := 1 + 4 * floorLog2 n + 4 * (2 * n - 1)

/-- `mul(l, r)` (R165 to R170). -/
def mul (l r : Fpn) : Except FaultKind (Fpn × Nat) := do
  let n := max l.size r.size
  let l' ← pad l n
  let r' ← pad r n
  let D := l'.decimal + r'.decimal
  if D > 2 * n - 1 then .error .widthMismatch
  else .ok (reduceRows (partialRows l' r' n D), mulCost n)

/-- What the command `MUL` computes (R171): a result wider than a register is a `WidthMismatch`. -/
def mulIntoRegister (l r : Fpn) : Except FaultKind (Fpn × Nat) :=
  if 2 * max l.size r.size - 1 > Config.wmax then .error .widthMismatch else mul l r

/-- `MUL vd, vs1, vs2` (R171). -/
def execMul (rd rs1 rs2 : Reg) (s : State) : Host.Outcome State Fault Refusal :=
  complete (.mul rd rs1 rs2) s (arith rd rs1 rs2 mulIntoRegister s)

end Sys2Proof.Machine
end

