-- ==== Sys2Proof/Machine/Query.lean ====
section
/-! DEFINITION. Query: `SIZE`, `DECIDX`, `OVF`, `CIN`, `TRUNCF`, `TOREAL`, `STSTR`, `EQ`
(`spec/40_number_representation.md`, section 5). No value register is written. -/

namespace Sys2Proof.Machine

/-- `equals(a, b)` (R94): the extended bits agree at every position of the union of the two ranges. -/
def equals (a b : Fpn) : Bool :=
  let lo : Int := min (-(a.decimal : Int)) (-(b.decimal : Int))
  let hi : Int := max ((a.size : Int) - a.decimal) ((b.size : Int) - b.decimal)
  (List.range (hi - lo).toNat).all (fun k => ext a (lo + k) == ext b (lo + k))

/-- `SIZE vs` (R111). -/
def execSize (rs1 : Reg) (s : State) : Host.Outcome State Fault Refusal :=
  complete (.size rs1) s (query rs1 Fpn.size s)

/-- `DECIDX vs` (R112). -/
def execDecidx (rs1 : Reg) (s : State) : Host.Outcome State Fault Refusal :=
  complete (.decidx rs1) s (query rs1 Fpn.decimal s)

/-- `OVF vs` (R113). -/
def execOvf (rs1 : Reg) (s : State) : Host.Outcome State Fault Refusal :=
  complete (.ovf rs1) s (query rs1 (fun x => x.overflow.toNat) s)

/-- `CIN vs` (R114). -/
def execCin (rs1 : Reg) (s : State) : Host.Outcome State Fault Refusal :=
  complete (.cin rs1) s (query rs1 (fun x => x.carryin.toNat) s)

/-- `TRUNCF vs` (R115). -/
def execTruncf (rs1 : Reg) (s : State) : Host.Outcome State Fault Refusal :=
  complete (.truncf rs1) s (query rs1 (fun x => x.truncated.toNat) s)

/-- `TOREAL vs` (R117): `RR <- (sint(v), v.decimal)`. -/
def execToreal (rs1 : Reg) (s : State) : Host.Outcome State Fault Refusal :=
  complete (.toreal rs1) s do
    let x ← s.readReg rs1
    .ok (s.setRR ⟨sint x, x.decimal⟩)

/-- `STSTR vs, addr` (R118): writes the display text and its length. -/
def execStstr (rs1 : Reg) (addr : BitVec 16) (s : State) : Host.Outcome State Fault Refusal :=
  complete (.ststr rs1 addr) s do
    let x ← s.readReg rs1
    let t ← s.memWrite addr.toNat (display x)
    .ok (t.setQ (x.size + 1))

/-- `EQ vs1, vs2` (R119). -/
def execEq (rs1 rs2 : Reg) (s : State) : Host.Outcome State Fault Refusal :=
  complete (.eq rs1 rs2) s do
    let a ← s.readReg rs1
    let b ← s.readReg rs2
    .ok (s.setQ (equals a b).toNat)

end Sys2Proof.Machine
end

