-- ==== Sys2Proof/Machine/Division.lean ====
section
/-! DEFINITION. Division: the two iterative engines `mdiv` and `rdiv` and the commands `MDIV`, `RDIV`
(`spec/43_division.md`). Neither limits the values inside its loop to `WMAX` bits (R191, R203). -/

namespace Sys2Proof.Machine

/-! ### Multiplicative division -/

/-- `one` of R187: 1 in the format of `a`. -/
def oneLike (a : Fpn) : Fpn := Fpn.plain a.decimal ((List.range a.size).map (fun i => i == a.decimal))

/-- The loop of R188 with `passes` passes left: `n` is the size of the dividend, `cost` and `made` what the passes
already made have cost and their number. -/
def mdivLoop (n : Nat) (one : Fpn) : Nat → Fpn → Fpn → Fpn → Nat → Nat → Except FaultKind DivResult
  | 0, _, ai, _, cost, made => .ok ⟨ai, cost, .exhausted, made⟩
  | passes + 1, f, ai, bi, cost, made => do
    let pa ← mul ai f
    let pb ← mul bi f
    let ai' ← trunc pa.1 n
    let bi' ← trunc pb.1 n
    let cost' := cost + max pa.2 pb.2
    if equals bi' one then .ok ⟨ai', cost', .converged, made + 1⟩
    else mdivLoop n one passes (complement bi').1 ai' bi' (cost' + (complement bi').2) (made + 1)

/-- `mdiv(a, b)` (R187 to R190). The divisor is not checked (R192). -/
def mdiv (a b : Fpn) : Except FaultKind DivResult :=
  if a.decimal ≥ a.size then .error .widthMismatch
  else mdivLoop a.size (oneLike a) Config.mdivMaxIter (oneLike a) a b 0 0

/-! ### Divisor reciprocation -/

/-- Whether every bit of the divisor is 0 (R195). -/
def isZero (v : Fpn) : Bool := v.bits.all (fun b => !b)

/-- Normalisation (R196): both decimal indices move by the same amount, so that the divisor's magnitude is in
`[0.5, 1)`; no bit moves. The answer is `(a', b')`. -/
def normalise (a b : Fpn) : Except FaultKind (Fpn × Fpn) :=
  let L := bitlength (sint b).natAbs
  let da : Int := (a.decimal : Int) + ((L : Int) - b.decimal)
  if da < 0 ∨ da > a.size then .error .widthMismatch
  else .ok ({ a with decimal := da.toNat }, { b with decimal := L })

/-- The constant two of R198, `010.`. -/
def two : Fpn := Fpn.plain 0 [false, true, false]

/-- The tolerance `2^(TOL_SLACK − W)` of R199, R200. -/
def tolerance (W : Nat) : ℚ := 2 ^ Config.tolSlack / 2 ^ W

/-- The stop test of R200, exact: `|toReal(x) − q| < tol`. -/
def closeEnough (x : Fpn) (q : ℚ) (W : Nat) : Bool := decide (|toReal x - q| < tolerance W)

/-- The loop of R199 with `passes` passes left. Both products use the `x`, `y` and `s` of before the pass. -/
def rdivLoop (W : Nat) (q : ℚ) : Nat → Fpn → Fpn → Nat → Nat → Except FaultKind DivResult
  | 0, x, _, cost, made => .ok ⟨x, cost, .exhausted, made⟩
  | passes + 1, x, y, cost, made => do
    let s := sub two y
    let px ← mul x s.1
    let py ← mul y s.1
    let x' ← resize px.1 W
    let y' ← resize py.1 W
    let cost' := cost + max (s.2 + px.2) (s.2 + py.2)
    if closeEnough x' q W then .ok ⟨x', cost', .converged, made + 1⟩
    else rdivLoop W q passes x' y' cost' (made + 1)

/-- `rdiv(a, b)` (R195 to R202). -/
def rdiv (a b : Fpn) : Except FaultKind DivResult := do
  if isZero b then .error .divideByZero
  else
    let ab ← normalise a b
    let W := max a.size b.size
    let x ← resize ab.1 W
    let y ← resize ab.2 W
    rdivLoop W (toReal a / toReal b) Config.rdivMaxIter x y 0 0

/-- `MDIV vd, vs1, vs2` (R191). -/
def execMdiv (rd rs1 rs2 : Reg) (s : State) : Host.Outcome State Fault Refusal :=
  complete (.mdiv rd rs1 rs2) s (divide rd rs1 rs2 mdiv s)

/-- `RDIV vd, vs1, vs2` (R203). -/
def execRdiv (rd rs1 rs2 : Reg) (s : State) : Host.Outcome State Fault Refusal :=
  complete (.rdiv rd rs1 rs2) s (divide rd rs1 rs2 rdiv s)

end Sys2Proof.Machine
end

