-- ==== Sys2Proof/Machine/Mutate.lean ====
section
/-! DEFINITION. Mutate: the in-place mutators `COMPL`, `SHL`, `SHR`, `SETDIG`, `SETDEC`
(`spec/40_number_representation.md`, sections 1 and 3). All keep the flags. -/

namespace Sys2Proof.Machine

/-- `shl(v, n)` (R93): logical, zero fill; the decimal index does not move. -/
def shl (v : Fpn) (n : Nat) : Fpn :=
  { v with bits := (List.range v.size).map (fun i => if n ≤ i then bitAt v (i - n) else false) }

/-- `shr(v, n)` (R93): logical, zero fill at the top whatever the sign bit. -/
def shr (v : Fpn) (n : Nat) : Fpn := { v with bits := (List.range v.size).map (fun i => bitAt v (i + n)) }

/-- The value of `SETDIG` (R103). -/
def setDigit (v : Fpn) (index bit : Nat) : Except FaultKind Fpn :=
  if index ≥ v.size ∨ bit > 1 then .error .invalidArgument
  else .ok { v with bits := v.bits.set index (bit == 1) }

/-- The value of `SETDEC` (R104): the bits do not move. -/
def setDecimal (v : Fpn) (dec : Nat) : Except FaultKind Fpn :=
  if dec > v.size then .error .invalidArgument else .ok { v with decimal := dec }

/-- `COMPL vd` (R100): in place, the cost is the size. -/
def execCompl (rd : Reg) (s : State) : Host.Outcome State Fault Refusal :=
  complete (.compl rd) s do
    let x ← s.readReg rd
    .ok ((s.setReg rd (complement x).1).addCost (complement x).2)

/-- `SHL vd, n` (R101). -/
def execShl (rd : Reg) (n : BitVec 16) (s : State) : Host.Outcome State Fault Refusal :=
  complete (.shl rd n) s (convert rd rd (fun x => .ok (shl x n.toNat)) s)

/-- `SHR vd, n` (R102). -/
def execShr (rd : Reg) (n : BitVec 16) (s : State) : Host.Outcome State Fault Refusal :=
  complete (.shr rd n) s (convert rd rd (fun x => .ok (shr x n.toNat)) s)

/-- `SETDIG vd, index, bit` (R103). -/
def execSetdig (rd : Reg) (index bit : BitVec 16) (s : State) : Host.Outcome State Fault Refusal :=
  complete (.setdig rd index bit) s (convert rd rd (fun x => setDigit x index.toNat bit.toNat) s)

/-- `SETDEC vd, dec` (R104). -/
def execSetdec (rd : Reg) (dec : BitVec 16) (s : State) : Host.Outcome State Fault Refusal :=
  complete (.setdec rd dec) s (convert rd rd (fun x => setDecimal x dec.toNat) s)

end Sys2Proof.Machine
end

