-- ==== Sys2Proof/Machine/System.lean ====
section
/-! DEFINITION. System: the one system command, `CLRCOST` (`spec/44_system.md` R221). -/

namespace Sys2Proof.Machine

/-- `CLRCOST` (R221): `COST <- 0` and nothing else. -/
def execClrcost (s : State) : Host.Outcome State Fault Refusal :=
  complete .clrcost s (.ok { s with cost := 0 })

end Sys2Proof.Machine
end

