-- ==== Sys2Proof/Machine/Dispatch.lean ====
section
/-! DEFINITION. Dispatch: one arm per command of `spec/opcode_table.json`. -/

namespace Sys2Proof.Machine

def exec (i : Instr) (s : State) : Host.Outcome State Fault Refusal :=
  match i with
  | .new rd size dec => Sys2Proof.Machine.execNew rd size dec s
  | .setint rd imm => Sys2Proof.Machine.execSetint rd imm s
  | .ldstr rd addr len => Sys2Proof.Machine.execLdstr rd addr len s
  | .asgstr rd addr len => Sys2Proof.Machine.execAsgstr rd addr len s
  | .mov rd rs1 => Sys2Proof.Machine.execMov rd rs1 s
  | .compl rd => Sys2Proof.Machine.execCompl rd s
  | .shl rd n => Sys2Proof.Machine.execShl rd n s
  | .shr rd n => Sys2Proof.Machine.execShr rd n s
  | .setdig rd index bit => Sys2Proof.Machine.execSetdig rd index bit s
  | .setdec rd dec => Sys2Proof.Machine.execSetdec rd dec s
  | .resize rd rs1 n => Sys2Proof.Machine.execResize rd rs1 n s
  | .pad rd rs1 n => Sys2Proof.Machine.execPad rd rs1 n s
  | .trunc rd rs1 n => Sys2Proof.Machine.execTrunc rd rs1 n s
  | .size rs1 => Sys2Proof.Machine.execSize rs1 s
  | .decidx rs1 => Sys2Proof.Machine.execDecidx rs1 s
  | .ovf rs1 => Sys2Proof.Machine.execOvf rs1 s
  | .cin rs1 => Sys2Proof.Machine.execCin rs1 s
  | .truncf rs1 => Sys2Proof.Machine.execTruncf rs1 s
  | .toreal rs1 => Sys2Proof.Machine.execToreal rs1 s
  | .ststr rs1 addr => Sys2Proof.Machine.execStstr rs1 addr s
  | .eq rs1 rs2 => Sys2Proof.Machine.execEq rs1 rs2 s
  | .fa a b c => Sys2Proof.Machine.execFa a b c s
  | .add rd rs1 rs2 => Sys2Proof.Machine.execAdd rd rs1 rs2 s
  | .sub rd rs1 rs2 => Sys2Proof.Machine.execSub rd rs1 rs2 s
  | .mul rd rs1 rs2 => Sys2Proof.Machine.execMul rd rs1 rs2 s
  | .mdiv rd rs1 rs2 => Sys2Proof.Machine.execMdiv rd rs1 rs2 s
  | .rdiv rd rs1 rs2 => Sys2Proof.Machine.execRdiv rd rs1 rs2 s
  | .clrcost => Sys2Proof.Machine.execClrcost s

end Sys2Proof.Machine
end

