-- ==== Sys2Proof/Machine/Step.lean ====
section
/-! DEFINITION. Step: one action of the host (`spec/60_exceptions.md` R258), a presented command being decoded and
executed to completion (`spec/10_state.md` R31). -/

namespace Sys2Proof.Machine

/-- A presented command word (`spec/60_exceptions.md` R249, the first two checks): ignored in the faulted state;
otherwise decoded, and either `IllegalCommand` or executed. -/
def runWord (w : Word) (s : State) : Host.Outcome State Fault Refusal :=
  if s.faulted then .next (ignoreCommand s)
  else
    match decode w with
    | .ok i => exec i s
    | .error _ => .next (takeFault .illegalCommand w s)

/-- One step: the next action of the host, or none. -/
def step (s : State) : Host.Outcome State Fault Refusal :=
  match s.host with
  | [] => .next (hostIdle s)
  | .read :: _ => .next (hostRead s.popHost)
  | .writeBuf a b :: _ => .next (hostWrite a b s.popHost)
  | .present w :: _ => runWord w s.popHost
  | .reset :: _ => .next (hostReset s.popHost)

/-- `s` with the host about to present the word `w` of `nbits` bits (the bits above are 0), so that the next step runs
it (log entry 3). Nothing else changes: in the faulted state the step will ignore the word. -/
def State.withFetchWord (s : State) (nbits w : Nat) : State :=
  { s with host := .present (BitVec.ofNat 64 (w % 2 ^ nbits)) :: s.host }

end Sys2Proof.Machine
end

