-- ==== Sys2Proof/Machine/Assembler.lean ====
section
/-! DEFINITION. Assembler: the text form of commands (`spec/30_encoding.md` R75), the pseudo-instructions and the
directive `.text` (R76), as the list of host actions that a program text stands for. Texts are lists of characters.
What R75 leaves open (white space, leading zeros, what a bad line does) is log entry 12. -/

namespace Sys2Proof.Machine

/-- The commands a pseudo-instruction expands to (R76). -/
def expandPseudo : Pseudo → List Instr
  | .newz rd size => [.new rd size 0#16]
  | .newi rd size dec imm => [.new rd size dec, .setint rd imm]
  | .neg rd rs1 => [.mov rd rs1, .compl rd]

/-- The host presents the words of commands, in order. -/
def presentAll (is : List Instr) : List HostAction := is.map (fun i => .present (encode i))

/-- The writes of `.text addr, "s"` (R76): "write the characters of `s` to `BUF[addr]` onward". -/
def textWrites : Nat → List Byte → List HostAction
  | _, [] => []
  | a, b :: bs => .writeBuf (BitVec.ofNat 16 a) b :: textWrites (a + 1) bs

/-! ### Characters and tokens -/

/-- A blank inside a line. -/
def isBlank (c : Char) : Bool := c == ' ' || c == '\t' || c == '\r'

/-- A text without the blanks at its ends. -/
def trimBlanks (t : List Char) : List Char := ((t.dropWhile isBlank).reverse.dropWhile isBlank).reverse

/-- A line up to the `;` that starts a comment (R75); a `;` between double quotes starts none. -/
def stripComment : Bool → List Char → List Char
  | _, [] => []
  | quoted, c :: cs =>
    if c == ';' && !quoted then [] else c :: stripComment (if c == '"' then !quoted else quoted) cs

/-- The pieces of a text between separators; never empty. -/
def splitAtChar (sep : Char) : List Char → List (List Char)
  | [] => [[]]
  | c :: cs =>
    if c == sep then [] :: splitAtChar sep cs
    else
      match splitAtChar sep cs with
      | [] => [[c]]
      | p :: ps => (c :: p) :: ps

/-- A decimal digit's value. -/
def decDigit (c : Char) : Option Nat := if '0' ≤ c ∧ c ≤ '9' then some (c.toNat - '0'.toNat) else none

/-- A hexadecimal digit's value. -/
def hexDigit (c : Char) : Option Nat :=
  if '0' ≤ c ∧ c ≤ '9' then some (c.toNat - '0'.toNat)
  else if 'a' ≤ c ∧ c ≤ 'f' then some (c.toNat - 'a'.toNat + 10)
  else if 'A' ≤ c ∧ c ≤ 'F' then some (c.toNat - 'A'.toNat + 10)
  else none

/-- The number that digits of a base stand for, after a number already read. -/
def digitsFrom (base : Nat) (digit : Char → Option Nat) : Nat → List Char → Option Nat
  | acc, [] => some acc
  | acc, c :: cs =>
    match digit c with
    | some d => digitsFrom base digit (acc * base + d) cs
    | none => none

/-- A number "in decimal, or in hexadecimal with the prefix `0x`" (R75). -/
def parseNat : List Char → Option Nat
  | [] => none
  | '0' :: 'x' :: c :: cs => digitsFrom 16 hexDigit 0 (c :: cs)
  | c :: cs => digitsFrom 10 decDigit 0 (c :: cs)

/-- "Registers are written `v0` to `v15`" (R75). -/
def parseReg : List Char → Option Reg
  | 'v' :: c :: cs =>
    match digitsFrom 10 decDigit 0 (c :: cs) with
    | some n => if h : n < 16 then some ⟨n, h⟩ else none
    | none => none
  | _ => none

/-- A 16-bit immediate (R68). -/
def parseImm (t : List Char) : Option (BitVec 16) :=
  match parseNat t with
  | some n => if n < 2 ^ 16 then some (BitVec.ofNat 16 n) else none
  | none => none

/-- The `imm32` of `SETINT`, which "may carry a minus sign" (R75), in the range of R68. -/
def parseImm32 : List Char → Option (BitVec 32)
  | '-' :: cs =>
    match parseNat cs with
    | some n => if n ≤ 2 ^ 31 then some (BitVec.ofInt 32 (-(n : Int))) else none
    | none => none
  | cs =>
    match parseNat cs with
    | some n => if n < 2 ^ 31 then some (BitVec.ofNat 32 n) else none
    | none => none

/-- One of the three bits of `FA`, 0 or 1 (R75). -/
def parseBit (t : List Char) : Option Bool :=
  match parseNat t with
  | some 0 => some false
  | some 1 => some true
  | _ => none

/-! ### Operand lists (R75) -/

/-- `vd`. -/
def opsD (f : Reg → Instr) : List (List Char) → Option (List Instr)
  | [a] => do let rd ← parseReg a; some [f rd]
  | _ => none

/-- `vd, imm`. -/
def opsDI (f : Reg → BitVec 16 → Instr) : List (List Char) → Option (List Instr)
  | [a, b] => do let rd ← parseReg a; let n ← parseImm b; some [f rd n]
  | _ => none

/-- `vd, immA, immB`. -/
def opsDAI (f : Reg → BitVec 16 → BitVec 16 → Instr) : List (List Char) → Option (List Instr)
  | [a, b, c] => do let rd ← parseReg a; let m ← parseImm b; let n ← parseImm c; some [f rd m n]
  | _ => none

/-- `vd, vs`. -/
def opsDS (f : Reg → Reg → List Instr) : List (List Char) → Option (List Instr)
  | [a, b] => do let rd ← parseReg a; let rs ← parseReg b; some (f rd rs)
  | _ => none

/-- `vd, vs, n`. -/
def opsDSI (f : Reg → Reg → BitVec 16 → Instr) : List (List Char) → Option (List Instr)
  | [a, b, c] => do let rd ← parseReg a; let rs ← parseReg b; let n ← parseImm c; some [f rd rs n]
  | _ => none

/-- `vd, vs1, vs2`. -/
def opsDSS (f : Reg → Reg → Reg → Instr) : List (List Char) → Option (List Instr)
  | [a, b, c] => do let rd ← parseReg a; let r1 ← parseReg b; let r2 ← parseReg c; some [f rd r1 r2]
  | _ => none

/-- `SETINT vd, int`. -/
def opsSetint : List (List Char) → Option (List Instr)
  | [a, b] => do let rd ← parseReg a; let n ← parseImm32 b; some [.setint rd n]
  | _ => none

/-- `STSTR vs, addr`. -/
def opsStstr : List (List Char) → Option (List Instr)
  | [a, b] => do let rs ← parseReg a; let n ← parseImm b; some [.ststr rs n]
  | _ => none

/-- `FA a, b, cin`. -/
def opsFa : List (List Char) → Option (List Instr)
  | [a, b, c] => do let x ← parseBit a; let y ← parseBit b; let z ← parseBit c; some [.fa x y z]
  | _ => none

/-- `NEWZ vd, size` (R76). -/
def opsNewz : List (List Char) → Option (List Instr)
  | [a, b] => do let rd ← parseReg a; let n ← parseImm b; some (expandPseudo (.newz rd n))
  | _ => none

/-- `NEWI vd, size, dec, int` (R76). -/
def opsNewi : List (List Char) → Option (List Instr)
  | [a, b, c, d] => do
    let rd ← parseReg a
    let m ← parseImm b
    let n ← parseImm c
    let x ← parseImm32 d
    some (expandPseudo (.newi rd m n x))
  | _ => none

/-- The commands of one line, from its mnemonic and its operands: the first half of R75's list. -/
def commandsA (m : List Char) (ops : List (List Char)) : Option (List Instr) :=
  if m = "NEW".toList then opsDAI .new ops
  else if m = "SETINT".toList then opsSetint ops
  else if m = "LDSTR".toList then opsDAI .ldstr ops
  else if m = "ASGSTR".toList then opsDAI .asgstr ops
  else if m = "MOV".toList then opsDS (fun rd rs => [.mov rd rs]) ops
  else if m = "COMPL".toList then opsD .compl ops
  else if m = "SHL".toList then opsDI .shl ops
  else if m = "SHR".toList then opsDI .shr ops
  else if m = "SETDIG".toList then opsDAI .setdig ops
  else if m = "SETDEC".toList then opsDI .setdec ops
  else if m = "RESIZE".toList then opsDSI .resize ops
  else if m = "PAD".toList then opsDSI .pad ops
  else if m = "TRUNC".toList then opsDSI .trunc ops
  else none

/-- The second half of R75's list. -/
def commandsB (m : List Char) (ops : List (List Char)) : Option (List Instr) :=
  if m = "SIZE".toList then opsD .size ops
  else if m = "DECIDX".toList then opsD .decidx ops
  else if m = "OVF".toList then opsD .ovf ops
  else if m = "CIN".toList then opsD .cin ops
  else if m = "TRUNCF".toList then opsD .truncf ops
  else if m = "TOREAL".toList then opsD .toreal ops
  else if m = "STSTR".toList then opsStstr ops
  else if m = "EQ".toList then opsDS (fun a b => [.eq a b]) ops
  else if m = "FA".toList then opsFa ops
  else if m = "ADD".toList then opsDSS .add ops
  else if m = "SUB".toList then opsDSS .sub ops
  else if m = "MUL".toList then opsDSS .mul ops
  else if m = "MDIV".toList then opsDSS .mdiv ops
  else if m = "RDIV".toList then opsDSS .rdiv ops
  else none

/-- The pseudo-instructions of R76. -/
def commandsP (m : List Char) (ops : List (List Char)) : Option (List Instr) :=
  if m = "NEWZ".toList then opsNewz ops
  else if m = "NEWI".toList then opsNewi ops
  else if m = "NEG".toList then opsDS (fun rd rs => expandPseudo (.neg rd rs)) ops
  else none

/-- The byte of a character; "A character is one byte" (`spec/00_scope.md` R18). -/
def charByte (c : Char) : Option Byte := if c.toNat < 256 then some (BitVec.ofNat 8 c.toNat) else none

/-- The characters between the double quotes that a text begins and ends with. -/
def unquote (t : List Char) : Option (List Char) :=
  match t with
  | '"' :: rest =>
    match rest.reverse with
    | '"' :: inner => if inner.contains '"' then none else some inner.reverse
    | _ => none
  | _ => none

/-- `.text addr, "s"` after the directive's name (R76); all the characters lie inside `BUF`. -/
def parseText (t : List Char) : Option (List HostAction) := do
  let a ← parseImm (trimBlanks (t.takeWhile (· != ',')))
  let s ← unquote (trimBlanks ((t.dropWhile (· != ',')).drop 1))
  let bytes ← s.mapM charByte
  if a.toNat + bytes.length ≤ Config.bufsz then some (textWrites a.toNat bytes) else none

/-- One line: the host's writes before the program starts, and the commands (R75, R76); nothing for a blank line. -/
def assembleLine (line : List Char) : Option (List HostAction × List Instr) :=
  let t := trimBlanks (stripComment false line)
  let m := t.takeWhile (fun c => !isBlank c)
  let rest := trimBlanks (t.dropWhile (fun c => !isBlank c))
  if t = [] then some ([], [])
  else if m = ".text".toList then (parseText rest).map (fun w => (w, []))
  else if m = "CLRCOST".toList then (if rest = [] then some ([], [.clrcost]) else none)
  else
    let ops := (splitAtChar ',' rest).map trimBlanks
    (((commandsA m ops).or (commandsB m ops)).or (commandsP m ops)).map (fun is => ([], is))

/-- The lines of a program. -/
def assembleLines : List (List Char) → Option (List HostAction × List Instr)
  | [] => some ([], [])
  | l :: ls => do
    let (w, is) ← assembleLine l
    let (w', is') ← assembleLines ls
    some (w ++ w', is ++ is')

/-- A program text as the host's actions: the `.text` writes "before the program starts" (R76), then the commands in
order, one per line (R75). `none` when a line has no meaning. -/
def assemble (program : List Char) : Option (List HostAction) :=
  (assembleLines (splitAtChar '\n' program)).map (fun p => p.1 ++ presentAll p.2)

end Sys2Proof.Machine
end

