-- ==== Sys2Proof/Safety.lean ====
section
/-! DEFINITION. Safety: the invariant of the machine (`spec/10_state.md`), and what counts as a run without a fault,
in the terms the statements use. -/

namespace Sys2Proof.Machine

/-- Every written register holds a value the block can produce (`spec/10_state.md` R21, R22). -/
def registersOk (s : State) : Prop := ∀ (r : Reg) (x : Fpn), s.v.get r = some x → x.wf = true

/-- `STATUS` as `spec/10_state.md` R35 to R38 allow it between commands: reserved bits 0, no fault code above 6,
`DIVSTATE` 0 with `DIVITER` 0, or `DIVSTATE` 2 or 3 with `DIVITER` from 1 to 5. -/
def statusOk (s : State) : Prop :=
  s.statusReserved = 0#2 ∧ s.faultCode.toNat ≤ 6 ∧
  ((s.divstate = 0#2 ∧ s.diviter = 0#8) ∨
    ((s.divstate = 2#2 ∨ s.divstate = 3#2) ∧ 1 ≤ s.diviter.toNat ∧ s.diviter.toNat ≤ 5))

/-- `FCMD` is 0 when there is no fault (`spec/10_state.md` R39). -/
def fcmdOk (s : State) : Prop := s.faulted = false → s.fcmd = 0#64

/-- `Q` and `RR` hold what a command can write (`spec/10_state.md` R33, R34). -/
def resultsOk (s : State) : Prop :=
  s.q.toNat ≤ Config.wmax + 1 ∧ s.rr.d ≤ Config.wmax ∧ s.rr.m.natAbs ≤ 2 ^ (Config.wmax - 1)

/-- The invariant of the machine: what is true of every state the block can be in. -/
structure Inv (s : State) : Prop where
  registers : registersOk s
  status : statusOk s
  fcmd : fcmdOk s
  results : resultsOk s
  buf : Memory.wf s.buf = true

/-- A step that leaves the block in the faulted state does not count as safe. -/
def safeState (s : State) : Prop := s.faulted = false

/-- What the host reads of a run that starts in `s` after `k` of its actions, none of them having led to the faulted
state (`spec/70_reset_and_hazards.md` R273). -/
def runsSafely : Nat → State → Prop
  | 0, s => safeState s
  | k + 1, s => safeState s ∧ ∀ t, step s = .next t → runsSafely k t

/-! ### What a command reads and writes -/

/-- The value registers a command reads (`spec/10_state.md` R27, `spec/60_exceptions.md` R244): `rs1`, `rs2`, and `rd`
for the commands that read their destination. -/
def sources : Instr → List Reg
  | .new .. => []
  | .setint rd _ => [rd]
  | .ldstr .. => []
  | .asgstr rd _ _ => [rd]
  | .mov _ rs1 => [rs1]
  | .compl rd => [rd]
  | .shl rd _ => [rd]
  | .shr rd _ => [rd]
  | .setdig rd _ _ => [rd]
  | .setdec rd _ => [rd]
  | .resize _ rs1 _ => [rs1]
  | .pad _ rs1 _ => [rs1]
  | .trunc _ rs1 _ => [rs1]
  | .size rs1 => [rs1]
  | .decidx rs1 => [rs1]
  | .ovf rs1 => [rs1]
  | .cin rs1 => [rs1]
  | .truncf rs1 => [rs1]
  | .toreal rs1 => [rs1]
  | .ststr rs1 _ => [rs1]
  | .eq rs1 rs2 => [rs1, rs2]
  | .fa .. => []
  | .add _ rs1 rs2 => [rs1, rs2]
  | .sub _ rs1 rs2 => [rs1, rs2]
  | .mul _ rs1 rs2 => [rs1, rs2]
  | .mdiv _ rs1 rs2 => [rs1, rs2]
  | .rdiv _ rs1 rs2 => [rs1, rs2]
  | .clrcost => []

/-- The value register a command writes, if it writes one (`spec/10_state.md` R28, R30). -/
def destination : Instr → Option Reg
  | .new rd _ _ => some rd
  | .setint rd _ => some rd
  | .ldstr rd _ _ => some rd
  | .asgstr rd _ _ => some rd
  | .mov rd _ => some rd
  | .compl rd => some rd
  | .shl rd _ => some rd
  | .shr rd _ => some rd
  | .setdig rd _ _ => some rd
  | .setdec rd _ => some rd
  | .resize rd _ _ => some rd
  | .pad rd _ _ => some rd
  | .trunc rd _ _ => some rd
  | .size _ => none
  | .decidx _ => none
  | .ovf _ => none
  | .cin _ => none
  | .truncf _ => none
  | .toreal _ => none
  | .ststr _ _ => none
  | .eq _ _ => none
  | .fa .. => none
  | .add rd _ _ => some rd
  | .sub rd _ _ => some rd
  | .mul rd _ _ => some rd
  | .mdiv rd _ _ => some rd
  | .rdiv rd _ _ => some rd
  | .clrcost => none

/-- The commands that write `Q` (`spec/10_state.md` R33). -/
def writesQ (i : Instr) : Bool :=
  i.mnemonic ∈ ["SIZE", "DECIDX", "OVF", "CIN", "TRUNCF", "STSTR", "EQ", "FA"]

/-- The commands that change `COST` (`spec/44_system.md` R220, R221). -/
def writesCost (i : Instr) : Bool :=
  i.mnemonic ∈ ["COMPL", "ADD", "SUB", "MUL", "MDIV", "RDIV", "CLRCOST"]

/-- The commands that write `STATUS.DIVSTATE` and `STATUS.DIVITER` (`spec/10_state.md` R35). -/
def isDivision (i : Instr) : Bool := i.mnemonic ∈ ["MDIV", "RDIV"]

/-! ### References for the arithmetic -/

/-- The reading of a value moved from its own decimal index to the index `D`, the positions below it cut
(`spec/41_full_adder_add_sub.md` R144, R147). -/
def alignedNat (v : Fpn) (D : Nat) : Nat := uint v * 2 ^ D / 2 ^ v.decimal

/-- The redundant leading zero integer bits of a value (`spec/40_number_representation.md` R105, in words): of a
non-negative value, the integer bits beyond one 0 above the integer part. -/
def redundantZeros (v : Fpn) : Nat :=
  if sign v then 0 else v.size - v.decimal - 1 - bitlength (uint v / 2 ^ v.decimal)

/-- The text of digits around a point, or of digits alone (`spec/40_number_representation.md` R90). -/
def digitText (l1 : List Bool) (l2 : Option (List Bool)) : List Byte :=
  match l2 with
  | none => l1.map digitByte
  | some l => l1.map digitByte ++ chPoint :: l.map digitByte

/-- The bytes of `BUF` from `addr` on are `t`. -/
def bufHolds (s : State) (addr : Nat) (t : List Byte) : Prop :=
  ∀ (k : Nat) (h : k < t.length), s.bufByte (addr + k) = t[k]

/-- The loop of `mdiv` (`spec/43_division.md` R188) in integers, for the format of one integer bit and width `n`
(R190): the quotient's pattern, the cost, the final state and the passes made. -/
def mdivNat (n : Nat) : Nat → Nat → Nat → Nat → Nat → Nat → Nat × Nat × DivState × Nat
  | 0, _, a, _, c, k => (a, c, .exhausted, k)
  | p + 1, f, a, b, c, k =>
    let a' := a * f % 2 ^ (2 * n - 1) / 2 ^ (n - 1)
    let b' := b * f % 2 ^ (2 * n - 1) / 2 ^ (n - 1)
    let c' := c + (1 + 4 * Nat.log2 n + 4 * (2 * n - 1))
    if b' = 2 ^ (n - 1) then (a', c', .converged, k + 1)
    else mdivNat n p ((2 ^ n - b') % 2 ^ n) a' b' (c' + n) (k + 1)

end Sys2Proof.Machine
end

