-- ==== Sys2Proof/Certificates/Slice0/Obligations.lean ====
section
/-! DEFINITION. Obligations: the statements about the model, for the provers. Every docstring names the rule of
`spec/` a statement formalises or rests on. -/

open Sys2Proof Sys2Proof.Machine

/-! ### Encoding -/

/-- R69: every command has an encoding that decodes to it. -/
def Obligations.EncodeThenDecodeIsIdentity : Prop := ∀ i : Instr, decode (encode i) = .ok i

/-- R69: "decoding followed by encoding is the identity on legal words". -/
def Obligations.DecodeThenEncodeIsIdentity : Prop := ∀ (w : Word) (i : Instr), decode w = .ok i → encode i = w

/-- R70, R73: the decoder by fields accepts exactly the words of the match and mask table, and a word it decodes matches
one row, that of the command's mnemonic. -/
def Obligations.DecoderAgreesWithOpcodeTable : Prop :=
  ∀ w : Word, ((∃ i, decode w = .ok i) ↔ legalWord w = true) ∧
    ∀ i, decode w = .ok i → (opcodeTable.filter (fun r => r.accepts w)).map OpRow.mnemonic = [i.mnemonic]

/-- R77: the worked encodings of the spec. -/
def Obligations.WorkedWordsDecode : Prop :=
  decode 0x2120100000000000#64 = .ok (.add 2 0 1) ∧
  decode 0x0100000000040003#64 = .ok (.new 0 4#16 3#16) ∧
  decode 0x02500000FFFFFFFD#64 = .ok (.setint 5 (-3#32)) ∧
  decode 0x0310000000100005#64 = .ok (.ldstr 1 16#16 5#16) ∧
  decode 0x1603000000300000#64 = .ok (.ststr 3 48#16) ∧
  decode 0x2000000000000003#64 = .ok (.fa true true false) ∧
  decode 0x3000000000000000#64 = .ok .clrcost ∧
  decode 0x2120100100000000#64 = .error .nonzeroUnusedField ∧
  decode 0#64 = .error .unassignedOpcode

/-! ### The step -/

/-- R31, R249: a presented word that decodes runs its command, on the state without the action performed. -/
def Obligations.StepRunsDecodedCommand : Prop :=
  ∀ (s : State) (w : Word) (rest : List HostAction) (i : Instr),
    s.host = .present w :: rest → s.faulted = false → decode w = .ok i → step s = exec i { s with host := rest }

/-- R72, R245: a word that matches no row raises `IllegalCommand`: `STATUS.FAULT` is 5, `FCMD` the word, nothing else
changes. -/
def Obligations.IllegalWordRaisesIllegalCommand : Prop :=
  ∀ (s : State) (w : Word) (rest : List HostAction),
    s.host = .present w :: rest → s.faulted = false → legalWord w = false →
    ∃ t, step s = .next t ∧ t.faultCode = 5#4 ∧ t.fcmd = w ∧ t.v = s.v ∧ t.cost = s.cost ∧ t.q = s.q ∧ t.rr = s.rr ∧
      t.divstate = s.divstate ∧ t.diviter = s.diviter ∧ t.statusReserved = s.statusReserved ∧ t.buf = s.buf ∧
      t.epoch = s.epoch ∧ t.host = rest

/-- R247: in the faulted state a presented word, whatever it is, changes nothing, and no action of the host but reset
leaves the faulted state. -/
def Obligations.FaultedBlockIgnoresCommands : Prop :=
  ∀ s : State, s.faulted = true →
    (∀ w rest, s.host = .present w :: rest → step s = .next { s with host := rest }) ∧
    (∀ t, s.host.head? ≠ some .reset → step s = .next t →
      t.faulted = true ∧ t.fcmd = s.fcmd ∧ t.status = s.status ∧ t.v = s.v ∧ t.cost = s.cost ∧ t.q = s.q ∧ t.rr = s.rr) ∧
    (∀ rest, s.host = .reset :: rest → ∃ t, step s = .next t ∧ t.faulted = false)

/-- R265, R44: what reset leaves, from any state. That no byte of `BUF` counts as written, and that the host's later
actions stay, is the model's representation (log entries 1 and 3). -/
def Obligations.ResetLeavesResetValues : Prop :=
  ∀ (s : State) (rest : List HostAction), s.host = .reset :: rest →
    ∃ t, step s = .next t ∧ (∀ r, t.v.get r = none) ∧ t.cost = 0 ∧ t.q = 0#64 ∧ t.rr = ⟨0, 0⟩ ∧ t.status = 0#16 ∧
      t.fcmd = 0#64 ∧ (∀ a, Memory.read t.buf a = none) ∧ t.host = rest

/-- R258 (a), (b): a read changes nothing, a write changes one byte of `BUF`; both take their action off the list. An
empty list is the model's idle step (log entry 3). -/
def Obligations.HostReadsAndWrites : Prop :=
  ∀ (s : State) (rest : List HostAction),
    (s.host = .read :: rest → step s = .next { s with host := rest }) ∧
    (s.host = [] → step s = .next s) ∧
    ∀ a b, s.host = .writeBuf a b :: rest →
      ∃ t, step s = .next t ∧ (∀ x, t.bufByte x = if x = a.toNat then b else s.bufByte x) ∧
        t = { s with host := rest, buf := t.buf }

/-- R272, R73: every state has a next state: no command, word or action makes the model stop. -/
def Obligations.StepAlwaysAnswers : Prop := ∀ s : State, ∃ t, step s = .next t

/-- R21, R22, R33 to R39, R50: the invariant holds after reset. -/
def Obligations.ResetMeetsInvariant : Prop := Inv State.reset

/-- R21, R22, R33 to R39, R50: every step keeps the invariant. -/
def Obligations.StepKeepsInvariant : Prop := ∀ s t : State, Inv s → step s = .next t → Inv t

/-- R222: every command but `CLRCOST` leaves `COST` or increases it, and a command that faults adds nothing. -/
def Obligations.CostNeverDecreases : Prop :=
  ∀ (i : Instr) (s t : State), exec i s = .next t →
    (i ≠ .clrcost → s.cost ≤ t.cost) ∧ (s.faulted = false → t.faulted = true → t.cost = s.cost)

/-- R26: a register is empty after reset and until a command that names it as destination writes it; a written register
never becomes empty again but by reset. -/
def Obligations.RegistersEmptyUntilWritten : Prop :=
  (∀ r, State.reset.v.get r = none) ∧
  ∀ (s t : State) (r : Reg), step s = .next t →
    (s.host.head? = some .reset → t.v.get r = none) ∧
    (s.host.head? ≠ some .reset → (s.v.get r).isSome = true → (t.v.get r).isSome = true) ∧
    (s.v.get r = none → t.v.get r = none ∨
      ∃ w i rest, s.host = .present w :: rest ∧ decode w = .ok i ∧ destination i = some r)

/-! ### Frames -/

/-- R28, R30: a command changes no value register but its destination. -/
def Obligations.FrameOfValueRegisters : Prop :=
  ∀ (i : Instr) (s t : State) (r : Reg), exec i s = .next t → destination i ≠ some r → t.v.get r = s.v.get r

/-- R33, R34, R35, R220: which commands change `COST`, `Q`, `RR` and the division status; the host's list and the reset
count are never a command's to change. -/
def Obligations.FrameOfResultRegisters : Prop :=
  ∀ (i : Instr) (s t : State), exec i s = .next t →
    (writesCost i = false → t.cost = s.cost) ∧ (writesQ i = false → t.q = s.q) ∧
    (i.mnemonic ≠ "TOREAL" → t.rr = s.rr) ∧
    (isDivision i = false → t.divstate = s.divstate ∧ t.diviter = s.diviter) ∧
    t.statusReserved = s.statusReserved ∧ t.epoch = s.epoch ∧ t.host = s.host

/-- R51: `STSTR` alone writes `BUF`, and only the bytes of its display text from its address on. -/
def Obligations.FrameOfBuf : Prop :=
  ∀ (i : Instr) (s t : State) (a : Nat), exec i s = .next t →
    (∀ rs1 addr x, i = .ststr rs1 addr → s.v.get rs1 = some x →
      ¬ (addr.toNat ≤ a ∧ a < addr.toNat + (display x).length)) → t.bufByte a = s.bufByte a

/-! ### Faults -/

/-- R246, R250: a command ends with `STATUS.FAULT` and `FCMD` as they were, or in the faulted state with its kind and its
word recorded and everything else as it was. R38, R240: the code that `STATUS.FAULT` takes for each kind. -/
def Obligations.FaultsArePrecise : Prop :=
  (∀ (i : Instr) (s : State), ∃ t, exec i s = .next t ∧
    ((t.faultCode = s.faultCode ∧ t.fcmd = s.fcmd) ∨
      ∃ k : FaultKind, t.faultCode = k.code ∧ t.fcmd = encode i ∧ t.v = s.v ∧ t.cost = s.cost ∧ t.q = s.q ∧
        t.rr = s.rr ∧ t.divstate = s.divstate ∧ t.diviter = s.diviter ∧ t.statusReserved = s.statusReserved ∧
        t.buf = s.buf ∧ t.epoch = s.epoch ∧ t.host = s.host)) ∧
  ∀ (w : Word) (s : State),
    (takeFault .widthMismatch w s).faultCode = 1#4 ∧ (takeFault .invalidArgument w s).faultCode = 2#4 ∧
    (takeFault .divideByZero w s).faultCode = 3#4 ∧ (takeFault .unwrittenRegister w s).faultCode = 4#4 ∧
    (takeFault .illegalCommand w s).faultCode = 5#4 ∧ (takeFault .bufferRange w s).faultCode = 6#4

/-- R27, R244: a command with an empty source raises `UnwrittenRegister`, code 4, and no other command does. -/
def Obligations.EmptySourceRaisesUnwrittenRegister : Prop :=
  ∀ (i : Instr) (s : State),
    ((∃ r ∈ sources i, s.v.get r = none) →
      exec i s = .next (takeFault .unwrittenRegister (encode i) s) ∧
        (takeFault .unwrittenRegister (encode i) s).faultCode = 4#4) ∧
    ((∀ r ∈ sources i, s.v.get r ≠ none) → s.faulted = false →
      ∀ t, exec i s = .next t → t.faultCode ≠ 4#4)

/-- R54, R248: an access that would pass the end of `BUF` raises `BufferRange`, code 6, and nothing else changes. -/
def Obligations.AccessPastEndRaisesBufferRange : Prop :=
  ∀ (s : State) (r : Reg) (addr len : BitVec 16) (x : Fpn),
    (∀ w, (takeFault .bufferRange w s).faultCode = 6#4) ∧
    (addr.toNat + len.toNat > 65536 →
      exec (.ldstr r addr len) s = .next (takeFault .bufferRange (encode (.ldstr r addr len)) s)) ∧
    (s.v.get r = some x → addr.toNat + len.toNat > 65536 →
      exec (.asgstr r addr len) s = .next (takeFault .bufferRange (encode (.asgstr r addr len)) s)) ∧
    (s.v.get r = some x → addr.toNat + (x.size + 1) > 65536 →
      exec (.ststr r addr) s = .next (takeFault .bufferRange (encode (.ststr r addr)) s))

/-- R242 (c), (d), (e): the requests that no value can answer raise `InvalidArgument`, code 2 (for `NEW` see
`NewWritesZeros`). -/
def Obligations.BadRequestsRaiseInvalidArgument : Prop :=
  ∀ (s : State) (rd rs1 : Reg) (m n : BitVec 16) (x : Fpn),
    (∀ w, (takeFault .invalidArgument w s).faultCode = 2#4) ∧
    (s.v.get rd = some x → m.toNat ≥ x.size ∨ n.toNat > 1 →
      exec (.setdig rd m n) s = .next (takeFault .invalidArgument (encode (.setdig rd m n)) s)) ∧
    (s.v.get rd = some x → n.toNat > x.size →
      exec (.setdec rd n) s = .next (takeFault .invalidArgument (encode (.setdec rd n)) s)) ∧
    (s.v.get rs1 = some x →
      exec (.resize rd rs1 0#16) s = .next (takeFault .invalidArgument (encode (.resize rd rs1 0#16)) s) ∧
      exec (.trunc rd rs1 0#16) s = .next (takeFault .invalidArgument (encode (.trunc rd rs1 0#16)) s))

/-- R90, R242 (b): a text with a byte other than `0`, `1`, `.`, with two points or with no digit raises
`InvalidArgument`, code 2, in `LDSTR` and in `ASGSTR`. -/
def Obligations.MalformedTextRaisesInvalidArgument : Prop :=
  ∀ (s : State) (rd : Reg) (addr len : BitVec 16) (t : List Byte) (x : Fpn),
    t.length = len.toNat → addr.toNat + len.toNat ≤ 65536 → bufHolds s addr.toNat t →
    ((∃ c ∈ t, c ≠ 0x30#8 ∧ c ≠ 0x31#8 ∧ c ≠ 0x2E#8) ∨ t.count 0x2E#8 ≥ 2 ∨ (∀ c ∈ t, c = 0x2E#8)) →
    (∀ w, (takeFault .invalidArgument w s).faultCode = 2#4) ∧
    exec (.ldstr rd addr len) s = .next (takeFault .invalidArgument (encode (.ldstr rd addr len)) s) ∧
    (s.v.get rd = some x →
      exec (.asgstr rd addr len) s = .next (takeFault .invalidArgument (encode (.asgstr rd addr len)) s))

/-- R241 (a), (b), (c), (f), (g), (h): targets and formats that cannot be reconciled raise `WidthMismatch`, code 1. The
last clause is R190: `MDIV` faults on its first pass when twice the dividend's fraction bits are fewer than the bits that
`trunc` must remove. The first product has only the dividend's format in it (R187, R188), so the clause holds for a
divisor of any size, equal sizes (the case R190 names) among them. -/
def Obligations.IrreconcilableWidthsRaiseWidthMismatch : Prop :=
  ∀ (s : State) (rd rs1 rs2 : Reg) (n : BitVec 16) (x y : Fpn), s.v.get rs1 = some x → s.v.get rs2 = some y →
    (∀ w, (takeFault .widthMismatch w s).faultCode = 1#4) ∧
    (n.toNat < x.size → exec (.pad rd rs1 n) s = .next (takeFault .widthMismatch (encode (.pad rd rs1 n)) s)) ∧
    (0 < n.toNat → n.toNat > x.size ∨ x.size - n.toNat > x.decimal →
      exec (.trunc rd rs1 n) s = .next (takeFault .widthMismatch (encode (.trunc rd rs1 n)) s)) ∧
    (max x.size y.size > 32768 ∨
        x.decimal + y.decimal + (2 * max x.size y.size - x.size - y.size) > 2 * max x.size y.size - 1 →
      exec (.mul rd rs1 rs2) s = .next (takeFault .widthMismatch (encode (.mul rd rs1 rs2)) s)) ∧
    (x.decimal ≥ x.size → exec (.mdiv rd rs1 rs2) s = .next (takeFault .widthMismatch (encode (.mdiv rd rs1 rs2)) s)) ∧
    (2 * x.decimal < x.size - 1 →
      exec (.mdiv rd rs1 rs2) s = .next (takeFault .widthMismatch (encode (.mdiv rd rs1 rs2)) s))

/-- R243, R195: `RDIV` raises `DivideByZero` exactly when every bit of the divisor is 0; `MDIV` never raises it. -/
def Obligations.OnlyRdivByZeroRaisesDivideByZero : Prop :=
  ∀ (i : Instr) (s t : State), s.faulted = false → exec i s = .next t →
    (t.faultCode = 3#4 ↔
      ∃ rd rs1 rs2 a b, i = .rdiv rd rs1 rs2 ∧ s.v.get rs1 = some a ∧ s.v.get rs2 = some b ∧ ∀ x ∈ b.bits, x = false)

/-! ### Construction and copy -/

/-- R95: `NEW`, its word, and what it writes: all bits zero, the decimal index given, all flags false, whatever the
register held; `InvalidArgument` for a size of 0 or a decimal index above the size. -/
def Obligations.NewWritesZeros : Prop :=
  ∀ (s : State) (rd : Reg) (size dec : BitVec 16),
    encode (.new rd size dec) = BitVec.ofNat 64 (0x01 * 2 ^ 56 + rd * 2 ^ 52 + size.toNat * 2 ^ 16 + dec.toNat) ∧
    (0 < size.toNat → dec.toNat ≤ size.toNat →
      ∃ x, exec (.new rd size dec) s = .next (s.setReg rd x) ∧ x.size = size.toNat ∧ x.decimal = dec.toNat ∧
        uint x = 0 ∧ x.overflow = false ∧ x.carryin = false ∧ x.truncated = false) ∧
    (size.toNat = 0 ∨ dec.toNat > size.toNat →
      exec (.new rd size dec) s = .next (takeFault .invalidArgument (encode (.new rd size dec)) s))

/-- R96: `SETINT` writes `(imm32 · 2^d) mod 2^s` in the old format, flags false; the value reads `imm32` when that
fits. -/
def Obligations.SetintPlacesIntegerAtRadixPoint : Prop :=
  ∀ (s : State) (rd : Reg) (imm : BitVec 32) (old : Fpn), s.v.get rd = some old →
    ∃ x, exec (.setint rd imm) s = .next (s.setReg rd x) ∧ x.size = old.size ∧ x.decimal = old.decimal ∧
      (uint x : Int) = imm.toInt * 2 ^ old.decimal % 2 ^ old.size ∧
      x.overflow = false ∧ x.carryin = false ∧ x.truncated = false ∧
      (old.decimal < old.size → -(2 ^ (old.size - old.decimal - 1)) ≤ imm.toInt →
        imm.toInt < 2 ^ (old.size - old.decimal - 1) → toReal x = imm.toInt)

/-- R90, R97: `LDSTR` of digits, with or without a point, makes a value of as many bits, the last digit bit 0, the
decimal index the number of digits after the point. -/
def Obligations.LdstrLoadsDigits : Prop :=
  ∀ (s : State) (rd : Reg) (addr len : BitVec 16) (l1 : List Bool) (l2 : Option (List Bool)),
    (digitText l1 l2).length = len.toNat → addr.toNat + len.toNat ≤ 65536 → bufHolds s addr.toNat (digitText l1 l2) →
    l1 ++ l2.getD [] ≠ [] →
    exec (.ldstr rd addr len) s =
      .next (s.setReg rd { decimal := (l2.getD []).length, bits := (l1 ++ l2.getD []).reverse })

/-- R98: `ASGSTR` keeps the size, takes the text's decimal index and low bits, and sign-extends with the text's first
digit, so that the value is that of the text. -/
def Obligations.AsgstrSignExtendsText : Prop :=
  ∀ (s : State) (rd : Reg) (addr len : BitVec 16) (l1 : List Bool) (l2 : Option (List Bool)) (old : Fpn),
    s.v.get rd = some old → (digitText l1 l2).length = len.toNat → addr.toNat + len.toNat ≤ 65536 →
    bufHolds s addr.toNat (digitText l1 l2) → l1 ++ l2.getD [] ≠ [] →
    ((l1 ++ l2.getD []).length ≤ old.size →
      ∃ x, exec (.asgstr rd addr len) s = .next (s.setReg rd x) ∧ x.size = old.size ∧
        x.decimal = (l2.getD []).length ∧ x.bits.take (l1 ++ l2.getD []).length = (l1 ++ l2.getD []).reverse ∧
        toReal x = toReal { decimal := (l2.getD []).length, bits := (l1 ++ l2.getD []).reverse } ∧
        x.overflow = false ∧ x.carryin = false ∧ x.truncated = false) ∧
    ((l1 ++ l2.getD []).length > old.size →
      exec (.asgstr rd addr len) s = .next (takeFault .widthMismatch (encode (.asgstr rd addr len)) s))

/-- R99: `MOV`, its word, and what it does: it copies the whole value, the flags among it, and changes nothing else;
from a register to itself it changes nothing, and an empty source faults. -/
def Obligations.MovCopiesWholeValue : Prop :=
  ∀ (s : State) (rd rs1 : Reg),
    encode (.mov rd rs1) = BitVec.ofNat 64 (0x05 * 2 ^ 56 + rd * 2 ^ 52 + rs1 * 2 ^ 48) ∧
    (∀ x, s.v.get rs1 = some x →
      exec (.mov rd rs1) s = .next (s.setReg rd x) ∧ exec (.mov rs1 rs1) s = .next s) ∧
    (s.v.get rs1 = none →
      exec (.mov rd rs1) s = .next (takeFault .unwrittenRegister (encode (.mov rd rs1)) s))

/-! ### In-place mutators -/

/-- R92, R100: `COMPL` negates modulo `2^size`, keeps the format and the flags, and costs the size. -/
def Obligations.ComplNegatesModuloTwoPowSize : Prop :=
  ∀ (s : State) (rd : Reg) (x : Fpn), s.v.get rd = some x →
    ∃ y, exec (.compl rd) s = .next ((s.setReg rd y).addCost x.size) ∧ y.size = x.size ∧ y.decimal = x.decimal ∧
      uint y = (2 ^ x.size - uint x) % 2 ^ x.size ∧
      y.overflow = x.overflow ∧ y.carryin = x.carryin ∧ y.truncated = x.truncated

/-- R100, R120 (d): two `COMPL` in a row restore the value, at twice the cost. -/
def Obligations.ComplTwiceRestoresValue : Prop :=
  ∀ (s : State) (rd : Reg) (x : Fpn), s.v.get rd = some x →
    ∃ t u, exec (.compl rd) s = .next t ∧ exec (.compl rd) t = .next u ∧ u.v.get rd = some x ∧
      u.cost = s.cost + 2 * x.size

/-- R76: `NEG vd, vs` is `MOV` then `COMPL`, and negates modulo `2^size` in the format of the source; `NEWI` is `NEW`
then `SETINT`, and makes the integer at the radix point of the new format. -/
def Obligations.PseudoInstructionsExpand : Prop :=
  ∀ (s : State) (rd rs1 : Reg) (size dec : BitVec 16) (imm : BitVec 32) (x : Fpn),
    (s.v.get rs1 = some x →
      ∃ i j t u y, expandPseudo (.neg rd rs1) = [i, j] ∧ exec i s = .next t ∧ exec j t = .next u ∧
        u = (s.setReg rd y).addCost x.size ∧ y = { x with bits := y.bits } ∧ y.size = x.size ∧
        uint y = (2 ^ x.size - uint x) % 2 ^ x.size) ∧
    (0 < size.toNat → dec.toNat ≤ size.toNat →
      ∃ i j t u y, expandPseudo (.newi rd size dec imm) = [i, j] ∧ exec i s = .next t ∧ exec j t = .next u ∧
        u = s.setReg rd y ∧ y.size = size.toNat ∧ y.decimal = dec.toNat ∧
        (uint y : Int) = imm.toInt * 2 ^ dec.toNat % 2 ^ size.toNat)

/-- R93, R101, R102: the shifts multiply modulo `2^size` and divide, with zero fill, and move neither the decimal index
nor the flags; they cost nothing. -/
def Obligations.ShiftsAreLogical : Prop :=
  ∀ (s : State) (rd : Reg) (n : BitVec 16) (x : Fpn), s.v.get rd = some x →
    (∃ y, exec (.shl rd n) s = .next (s.setReg rd y) ∧ y = { x with bits := y.bits } ∧ y.size = x.size ∧
      uint y = uint x * 2 ^ n.toNat % 2 ^ x.size) ∧
    (∃ y, exec (.shr rd n) s = .next (s.setReg rd y) ∧ y = { x with bits := y.bits } ∧ y.size = x.size ∧
      uint y = uint x / 2 ^ n.toNat)

/-- R103, R104: `SETDIG` sets one bit; `SETDEC` moves the radix point, so that the value is multiplied by
`2^(old decimal − dec)`. -/
def Obligations.SetdigAndSetdecChangeOnePart : Prop :=
  ∀ (s : State) (rd : Reg) (index bit dec : BitVec 16) (x : Fpn), s.v.get rd = some x →
    (index.toNat < x.size → bit.toNat ≤ 1 →
      ∃ y, exec (.setdig rd index bit) s = .next (s.setReg rd y) ∧ y = { x with bits := y.bits } ∧ y.size = x.size ∧
        ∀ j, bitAt y j = if j = index.toNat then bit == 1#16 else bitAt x j) ∧
    (dec.toNat ≤ x.size →
      ∃ y, exec (.setdec rd dec) s = .next (s.setReg rd y) ∧ y = { x with decimal := dec.toNat } ∧
        toReal y = toReal x * 2 ^ x.decimal / 2 ^ dec.toNat)

/-! ### Width changes -/

/-- R105, R108, R120 (e): growing by `RESIZE` keeps the decimal index, the flags and the value. -/
def Obligations.ResizeGrowsBySignExtension : Prop :=
  ∀ (s : State) (rd rs1 : Reg) (n : BitVec 16) (x : Fpn), s.v.get rs1 = some x → 0 < n.toNat → x.size ≤ n.toNat →
    ∃ y, exec (.resize rd rs1 n) s = .next (s.setReg rd y) ∧ y = { x with bits := y.bits } ∧ y.size = n.toNat ∧
      toReal y = toReal x

/-- R105, R108: shrinking trims the redundant leading zeros first, then cuts low bits, which sets `truncated`; it raises
`WidthMismatch` when integer bits would be cut. -/
def Obligations.ResizeShrinksByTrimmingThenCutting : Prop :=
  ∀ (s : State) (rd rs1 : Reg) (n : BitVec 16) (x : Fpn) (e : Nat), s.v.get rs1 = some x → x.decimal ≤ x.size →
    0 < n.toNat → n.toNat < x.size → e = x.size - n.toNat - min (x.size - n.toNat) (redundantZeros x) →
    (e ≤ x.decimal →
      ∃ y, exec (.resize rd rs1 n) s = .next (s.setReg rd y) ∧ y.size = n.toNat ∧ y.decimal = x.decimal - e ∧
        uint y = uint x / 2 ^ e ∧ sign y = sign x ∧ y.overflow = x.overflow ∧ y.carryin = x.carryin ∧
        y.truncated = (x.truncated || decide (0 < e))) ∧
    (e > x.decimal → exec (.resize rd rs1 n) s = .next (takeFault .widthMismatch (encode (.resize rd rs1 n)) s))

/-- R106, R109, R120 (e): `PAD` adds low zero bits and as many fraction bits; the flags and the value stay. -/
def Obligations.PadKeepsRealValue : Prop :=
  ∀ (s : State) (rd rs1 : Reg) (n : BitVec 16) (x : Fpn), s.v.get rs1 = some x → x.size ≤ n.toNat →
    ∃ y, exec (.pad rd rs1 n) s = .next (s.setReg rd y) ∧ y.size = n.toNat ∧
      y.decimal = x.decimal + (n.toNat - x.size) ∧ uint y = uint x * 2 ^ (n.toNat - x.size) ∧
      y.overflow = x.overflow ∧ y.carryin = x.carryin ∧ y.truncated = x.truncated ∧ toReal y = toReal x

/-- R107, R110, R120 (f): `TRUNC` cuts low fraction bits, toward minus infinity, by less than one unit of the new last
place; `truncated` accumulates. -/
def Obligations.TruncRoundsDown : Prop :=
  ∀ (s : State) (rd rs1 : Reg) (n : BitVec 16) (x : Fpn), s.v.get rs1 = some x → 0 < n.toNat → n.toNat ≤ x.size →
    x.size - n.toNat ≤ x.decimal →
    ∃ y, exec (.trunc rd rs1 n) s = .next (s.setReg rd y) ∧ y.size = n.toNat ∧
      y.decimal = x.decimal - (x.size - n.toNat) ∧ uint y = uint x / 2 ^ (x.size - n.toNat) ∧
      y.overflow = x.overflow ∧ y.carryin = x.carryin ∧ y.truncated = (x.truncated || decide (n.toNat < x.size)) ∧
      toReal y ≤ toReal x ∧ toReal x < toReal y + 1 / 2 ^ y.decimal

/-! ### Queries -/

/-- R111 to R115: the queries, their words, and what they do: they write `Q` and nothing else. -/
def Obligations.QueriesWriteQ : Prop :=
  ∀ (s : State) (rs1 : Reg) (x : Fpn), s.v.get rs1 = some x →
    encode (.size rs1) = BitVec.ofNat 64 (0x10 * 2 ^ 56 + rs1 * 2 ^ 48) ∧
    encode (.decidx rs1) = BitVec.ofNat 64 (0x11 * 2 ^ 56 + rs1 * 2 ^ 48) ∧
    encode (.ovf rs1) = BitVec.ofNat 64 (0x12 * 2 ^ 56 + rs1 * 2 ^ 48) ∧
    encode (.cin rs1) = BitVec.ofNat 64 (0x13 * 2 ^ 56 + rs1 * 2 ^ 48) ∧
    encode (.truncf rs1) = BitVec.ofNat 64 (0x14 * 2 ^ 56 + rs1 * 2 ^ 48) ∧
    exec (.size rs1) s = .next { s with q := BitVec.ofNat 64 x.size } ∧
    exec (.decidx rs1) s = .next { s with q := BitVec.ofNat 64 x.decimal } ∧
    exec (.ovf rs1) s = .next { s with q := if x.overflow then 1#64 else 0#64 } ∧
    exec (.cin rs1) s = .next { s with q := if x.carryin then 1#64 else 0#64 } ∧
    exec (.truncf rs1) s = .next { s with q := if x.truncated then 1#64 else 0#64 }

/-- R11, R116, R117: `TOREAL` writes the pair of the two's-complement reading and the decimal index. -/
def Obligations.TorealWritesTwosComplementPair : Prop :=
  ∀ (s : State) (rs1 : Reg) (x : Fpn), s.v.get rs1 = some x → 1 ≤ x.size →
    ∃ m : Int, exec (.toreal rs1) s = .next { s with rr := ⟨m, x.decimal⟩ } ∧
      -(2 ^ (x.size - 1)) ≤ m ∧ m < 2 ^ (x.size - 1) ∧ m % 2 ^ x.size = (uint x : Int)

/-- R91, R118: `STSTR` writes the digits from the top bit down with the point after the digit of bit `decimal`, and the
length; every other byte and register stays. -/
def Obligations.StstrWritesDisplayText : Prop :=
  ∀ (s : State) (rs1 : Reg) (addr : BitVec 16) (x : Fpn), s.v.get rs1 = some x → x.decimal ≤ x.size →
    addr.toNat + (x.size + 1) ≤ 65536 →
    ∃ t, exec (.ststr rs1 addr) s = .next t ∧ t = { s with q := BitVec.ofNat 64 (x.size + 1), buf := t.buf } ∧
      (∀ k, k < x.size - x.decimal →
        t.bufByte (addr.toNat + k) = if bitAt x (x.size - 1 - k) then 0x31#8 else 0x30#8) ∧
      t.bufByte (addr.toNat + (x.size - x.decimal)) = 0x2E#8 ∧
      (∀ k, k < x.decimal →
        t.bufByte (addr.toNat + (x.size - x.decimal) + 1 + k) = if bitAt x (x.decimal - 1 - k) then 0x31#8 else 0x30#8) ∧
      (∀ a, ¬ (addr.toNat ≤ a ∧ a < addr.toNat + (display x).length) → t.bufByte a = s.bufByte a)

/-- R118, R97, R120 (c): a value that `STSTR` writes and `LDSTR` reads back has the same bits and decimal index. -/
def Obligations.StstrThenLdstrRestoresValue : Prop :=
  ∀ (s : State) (rs1 rd : Reg) (addr len : BitVec 16) (x : Fpn), s.v.get rs1 = some x → 1 ≤ x.size →
    x.decimal ≤ x.size → len.toNat = x.size + 1 → addr.toNat + len.toNat ≤ 65536 →
    ∃ t, exec (.ststr rs1 addr) s = .next t ∧
      exec (.ldstr rd addr len) t = .next (t.setReg rd { decimal := x.decimal, bits := x.bits })

/-- R94, R119, R120 (a), (b): `EQ` answers 1 exactly when the real values are equal, whatever the two formats. -/
def Obligations.EqIsEqualityOfRealValues : Prop :=
  ∀ (s : State) (rs1 rs2 : Reg) (a b : Fpn), s.v.get rs1 = some a → s.v.get rs2 = some b → 1 ≤ a.size → 1 ≤ b.size →
    exec (.eq rs1 rs2) s = .next { s with q := if toReal a = toReal b then 1#64 else 0#64 }

/-! ### Arithmetic -/

/-- R140, R141: `FA`, its word, and what it does: `Q` is the sum of its three bits, and nothing else changes. -/
def Obligations.FaAddsThreeBits : Prop :=
  ∀ (s : State) (a b c : Bool),
    encode (.fa a b c) = BitVec.ofNat 64 (0x20 * 2 ^ 56 + a.toNat + 2 * b.toNat + 4 * c.toNat) ∧
    exec (.fa a b c) s = .next { s with q := BitVec.ofNat 64 (a.toNat + b.toNat + c.toNat) }

/-- R143 to R148: `ADD` adds the aligned operands modulo `2^W`; `overflow` and `carryin` are the carry out of the top,
`truncated` says that an operand lost low positions; the cost is `4·W`. -/
def Obligations.AddIsModularSumOfAlignedOperands : Prop :=
  ∀ (s : State) (rd rs1 rs2 : Reg) (l r : Fpn) (W D : Nat), s.v.get rs1 = some l → s.v.get rs2 = some r →
    l.decimal ≤ l.size → r.decimal ≤ r.size → W = max l.size r.size →
    D = W - max (l.size - l.decimal) (r.size - r.decimal) →
    ∃ x, exec (.add rd rs1 rs2) s = .next ((s.setReg rd x).addCost (4 * W)) ∧ x.size = W ∧ x.decimal = D ∧
      uint x = (alignedNat l D + alignedNat r D) % 2 ^ W ∧
      x.overflow = decide (2 ^ W ≤ alignedNat l D + alignedNat r D) ∧ x.carryin = x.overflow ∧
      x.truncated = (decide (D < l.decimal) || decide (D < r.decimal))

/-- R149, R150: `SUB` subtracts the aligned operands modulo `2^W`; the carry means no borrow, and is 0 when the aligned
subtrahend is 0; the cost is `5·W`. -/
def Obligations.SubIsModularDifferenceOfAlignedOperands : Prop :=
  ∀ (s : State) (rd rs1 rs2 : Reg) (l r : Fpn) (W D : Nat), s.v.get rs1 = some l → s.v.get rs2 = some r →
    l.decimal ≤ l.size → r.decimal ≤ r.size → W = max l.size r.size →
    D = W - max (l.size - l.decimal) (r.size - r.decimal) →
    ∃ x, exec (.sub rd rs1 rs2) s = .next ((s.setReg rd x).addCost (5 * W)) ∧ x.size = W ∧ x.decimal = D ∧
      uint x = (alignedNat l D + 2 ^ W - alignedNat r D) % 2 ^ W ∧
      x.overflow = (decide (0 < alignedNat r D) && decide (alignedNat r D ≤ alignedNat l D)) ∧
      x.carryin = x.overflow ∧ x.truncated = (decide (D < l.decimal) || decide (D < r.decimal))

/-- R151 (b): the order of the operands of `ADD` does not matter. -/
def Obligations.AddCommutes : Prop :=
  ∀ (s : State) (rd rs1 rs2 : Reg) (l r : Fpn), s.v.get rs1 = some l → s.v.get rs2 = some r →
    ∃ t, exec (.add rd rs1 rs2) s = .next t ∧ exec (.add rd rs2 rs1) s = .next t

/-- R151 (a): for operands of one format, subtracting what was added restores the bits. -/
def Obligations.SubUndoesAdd : Prop :=
  ∀ (s : State) (rd rs1 rs2 : Reg) (a b : Fpn), s.v.get rs1 = some a → s.v.get rs2 = some b → a.size = b.size →
    a.decimal = b.decimal → a.decimal ≤ a.size → rd ≠ rs2 →
    ∃ t u x, exec (.add rd rs1 rs2) s = .next t ∧ exec (.sub rd rd rs2) t = .next u ∧ u.v.get rd = some x ∧
      x.bits = a.bits ∧ x.decimal = a.decimal

/-- R165 to R172: `MUL` multiplies the padded patterns as unsigned numbers modulo `2^(2n−1)`; the decimal indices add;
`truncated` is false; the cost is the formula. -/
def Obligations.MulIsUnsignedProduct : Prop :=
  ∀ (s : State) (rd rs1 rs2 : Reg) (l r : Fpn) (n D : Nat), s.v.get rs1 = some l → s.v.get rs2 = some r →
    1 ≤ l.size → 1 ≤ r.size → n = max l.size r.size → n ≤ 32768 →
    D = l.decimal + r.decimal + (2 * n - l.size - r.size) → D ≤ 2 * n - 1 →
    ∃ p, exec (.mul rd rs1 rs2) s = .next ((s.setReg rd p).addCost (1 + 4 * Nat.log2 n + 4 * (2 * n - 1))) ∧
      p.size = 2 * n - 1 ∧ p.decimal = D ∧
      uint p = uint l * 2 ^ (n - l.size) * (uint r * 2 ^ (n - r.size)) % 2 ^ (2 * n - 1) ∧
      p.carryin = p.overflow ∧ p.truncated = false ∧ (n = 1 → p.overflow = false)

/-- R172 (a): for operands with sign bit 0 the product is exact, non-negative and without overflow. -/
def Obligations.MulOfNonnegativeValuesIsExact : Prop :=
  ∀ (s : State) (rd rs1 rs2 : Reg) (l r : Fpn), s.v.get rs1 = some l → s.v.get rs2 = some r → l.wf = true →
    r.wf = true → max l.size r.size ≤ 32768 → sign l = false → sign r = false →
    l.decimal < l.size ∨ r.decimal < r.size →
    ∃ p c, exec (.mul rd rs1 rs2) s = .next ((s.setReg rd p).addCost c) ∧ toReal p = toReal l * toReal r ∧
      sign p = false ∧ p.overflow = false

/-! ### Division -/

/-- R187 to R191: for operands with one integer bit, the divisor no wider than the dividend, `MDIV` completes and is the
integer recurrence `mdivNat`: quotient, cost, final state and passes. -/
def Obligations.MdivRefinesIntegerRecurrence : Prop :=
  ∀ (s : State) (rd rs1 rs2 : Reg) (a b : Fpn) (n : Nat), s.v.get rs1 = some a → s.v.get rs2 = some b →
    n = a.size → a.decimal + 1 = n → b.decimal + 1 = b.size → b.size ≤ n →
    ∃ q c st k, exec (.mdiv rd rs1 rs2) s = .next (((s.setReg rd q).addCost c).setDiv st k) ∧ q.size = n ∧
      q.decimal = n - 1 ∧ q.carryin = q.overflow ∧ q.truncated = decide (1 < n) ∧
      (uint q, c, st, k) = mdivNat n 5 (2 ^ (n - 1)) (uint a) (uint b * 2 ^ (n - b.size)) 0 0

/-- R36, R37, R186, R189, R191: what `MDIV` writes when the engine answers: a quotient of the dividend's size, `STATUS`
with the code of the final state and the passes, and the cost of R189 for a divisor of any width. -/
def Obligations.MdivStateAndCost : Prop :=
  ∀ (s : State) (rd rs1 rs2 : Reg) (a b : Fpn) (q : DivResult) (M : Nat → Nat), s.v.get rs1 = some a →
    s.v.get rs2 = some b → 1 ≤ a.size → 1 ≤ b.size → (∀ n, M n = 1 + 4 * Nat.log2 n + 4 * (2 * n - 1)) →
    mdiv a b = .ok q →
    ∃ t, exec (.mdiv rd rs1 rs2) s = .next t ∧
    t = ((s.setReg rd q.quotient).addCost q.cost).setDiv q.state q.iterations ∧
    q.quotient.size = a.size ∧ t.diviter.toNat = q.iterations ∧
    ((q.state = .converged ∧ t.divstate = 2#2 ∧ 1 ≤ q.iterations ∧ q.iterations ≤ 5 ∧
        q.cost = M (max a.size b.size) + (q.iterations - 1) * (M a.size + a.size)) ∨
      (q.state = .exhausted ∧ t.divstate = 3#2 ∧ q.iterations = 5 ∧
        q.cost = M (max a.size b.size) + a.size + 4 * (M a.size + a.size)))

/-- R192 (a): `MDIV` by zero raises no fault: in the format of one integer bit it ends `exhausted` after 5 passes with a
zero quotient. -/
def Obligations.MdivByZeroIsExhaustedZero : Prop :=
  ∀ (s : State) (rd rs1 rs2 : Reg) (a b : Fpn), s.v.get rs1 = some a → s.v.get rs2 = some b →
    a.decimal + 1 = a.size → b.decimal + 1 = b.size → b.size ≤ a.size → uint b = 0 →
    ∃ q c, exec (.mdiv rd rs1 rs2) s = .next (((s.setReg rd q).addCost c).setDiv .exhausted 5) ∧ uint q = 0

/-- R196: normalisation moves both decimal indices by the same amount, so that the divisor's magnitude is in `[0.5, 1)` and the quotient of
the real values is kept; it raises `WidthMismatch` when the dividend has no room. -/
def Obligations.NormalisationKeepsQuotient : Prop :=
  ∀ (a b : Fpn) (da : Int), 1 ≤ b.size → uint b ≠ 0 →
    da = (a.decimal : Int) + (bitlength (sint b).natAbs : Int) - b.decimal →
    (0 ≤ da → da ≤ a.size →
      ∃ a' b', normalise a b = .ok (a', b') ∧ a' = { a with decimal := a'.decimal } ∧
        b' = { b with decimal := bitlength (sint b).natAbs } ∧ (a'.decimal : Int) = da ∧ 1 / 2 ≤ |toReal b'| ∧ |toReal b'| < 1 ∧
        toReal a' / toReal b' = toReal a / toReal b) ∧
    (da < 0 ∨ da > a.size → normalise a b = .error .widthMismatch)

/-- R36, R37, R186, R199 to R203: what `RDIV` writes when the engine answers: a quotient of the working width, the cost
per pass, `STATUS` with the code of the final state and the passes; `converged` exactly when the quotient is within the tolerance of the exact quotient, else `exhausted` after 5
passes. -/
def Obligations.RdivStateAndCost : Prop :=
  ∀ (s : State) (rd rs1 rs2 : Reg) (a b : Fpn) (q : DivResult) (W m : Nat), s.v.get rs1 = some a →
    s.v.get rs2 = some b → 1 ≤ a.size → 1 ≤ b.size → W = max a.size b.size → m = max 3 W → rdiv a b = .ok q →
    ∃ t, exec (.rdiv rd rs1 rs2) s = .next t ∧
    t = ((s.setReg rd q.quotient).addCost q.cost).setDiv q.state q.iterations ∧
    q.quotient.size = W ∧ t.diviter.toNat = q.iterations ∧ q.cost = q.iterations * (5 * m + (1 + 4 * Nat.log2 m + 4 * (2 * m - 1))) ∧
    ((q.state = .converged ∧ t.divstate = 2#2 ∧ 1 ≤ q.iterations ∧ q.iterations ≤ 5 ∧
        |toReal q.quotient - toReal a / toReal b| < 8 / 2 ^ W) ∨
      (q.state = .exhausted ∧ t.divstate = 3#2 ∧ q.iterations = 5 ∧ ¬ |toReal q.quotient - toReal a / toReal b| < 8 / 2 ^ W))

/-- R196, R199, R203: on non-negative operands with an integer bit, the dividend below 1 and the divisor in `[0.5, 1)`,
with a working width of at least 6, `RDIV` completes: no pass faults. -/
def Obligations.RdivCompletesOnFractions : Prop :=
  ∀ (s : State) (rd rs1 rs2 : Reg) (a b : Fpn), s.v.get rs1 = some a → s.v.get rs2 = some b →
    a.decimal < a.size → b.decimal < b.size → sign a = false → sign b = false → toReal a < 1 →
    1 / 2 ≤ toReal b → toReal b < 1 → 6 ≤ max a.size b.size →
    ∃ q c st k, exec (.rdiv rd rs1 rs2) s = .next (((s.setReg rd q).addCost c).setDiv st k) ∧
      q.size = max a.size b.size ∧ sign q = false ∧ (st = .converged ∨ st = .exhausted) ∧ 1 ≤ k ∧ k ≤ 5

/-- R196, R203: `RDIV` raises `WidthMismatch` when the dividend has no room for the normalisation. -/
def Obligations.RdivWithoutRoomRaisesWidthMismatch : Prop :=
  ∀ (s : State) (rd rs1 rs2 : Reg) (a b : Fpn) (da : Int), s.v.get rs1 = some a → s.v.get rs2 = some b →
    uint b ≠ 0 → da = (a.decimal : Int) + (bitlength (sint b).natAbs : Int) - b.decimal → da < 0 ∨ da > a.size →
    exec (.rdiv rd rs1 rs2) s = .next (takeFault .widthMismatch (encode (.rdiv rd rs1 rs2)) s)

/-! ### System -/

/-- R221: `CLRCOST`, its word, and its whole effect; no other word with its opcode is a command. -/
def Obligations.ClrcostClearsCostOnly : Prop :=
  encode .clrcost = 0x3000000000000000#64 ∧ (∀ s : State, exec .clrcost s = .next { s with cost := 0 }) ∧
  ∀ (s : State) (w : Word) (rest : List HostAction), w.extractLsb' 56 8 = 0x30#8 → w ≠ 0x3000000000000000#64 →
    s.host = .present w :: rest → s.faulted = false →
    step s = .next (takeFault .illegalCommand w { s with host := rest })
end

