-- ==== Sys2Proof/Laws/Bits.lean ====
section
/-! SUPPORT. Laws of bit lists: a list of bits and the number it stands for (`spec/00_scope.md` R11). -/

namespace Sys2Proof.Machine

@[simp] theorem bitsToNat_nil : bitsToNat [] = 0 := rfl

theorem bitsToNat_cons (b : Bool) (bs : List Bool) : bitsToNat (b :: bs) = b.toNat + 2 * bitsToNat bs := rfl

theorem bitsToNat_lt (b : List Bool) : bitsToNat b < 2 ^ b.length := by
  induction b with
  | nil => simp
  | cons x xs ih =>
    have hx : x.toNat ≤ 1 := Bool.toNat_le x
    simp only [bitsToNat_cons, List.length_cons, pow_succ]
    omega

theorem bitsToNat_append (a b : List Bool) : bitsToNat (a ++ b) = bitsToNat a + 2 ^ a.length * bitsToNat b := by
  induction a with
  | nil => simp
  | cons x xs ih =>
    simp only [List.cons_append, bitsToNat_cons, ih, List.length_cons, pow_succ]
    ring

@[simp] theorem bitsToNat_replicate_false (n : Nat) : bitsToNat (List.replicate n false) = 0 := by
  induction n with
  | zero => rfl
  | succ n ih => simp [List.replicate_succ, bitsToNat_cons, ih]

theorem bitsToNat_replicate_true (n : Nat) : bitsToNat (List.replicate n true) = 2 ^ n - 1 := by
  induction n with
  | zero => rfl
  | succ n ih =>
    have : 1 ≤ 2 ^ n := Nat.one_le_two_pow
    simp only [List.replicate_succ, bitsToNat_cons, ih, Bool.toNat_true, pow_succ]
    omega

/-- Bit `i` of the number is the `i`-th element of the list. -/
theorem bitsToNat_testBit (b : List Bool) : ∀ i, (bitsToNat b).testBit i = b.getD i false := by
  induction b with
  | nil => intro i; simp
  | cons x xs ih =>
    intro i
    rw [bitsToNat_cons]
    cases i with
    | zero => cases x <;> simp [Nat.testBit_zero]
    | succ i =>
      have h : (x.toNat + 2 * bitsToNat xs) / 2 = bitsToNat xs := by
        have := Bool.toNat_le x; omega
      simp only [Nat.testBit_succ, h, ih, List.getD_cons_succ]

/-- A bit list is determined by its length and its number. -/
theorem bits_ext {a b : List Bool} (hl : a.length = b.length) (hn : bitsToNat a = bitsToNat b) : a = b := by
  apply List.ext_getElem hl
  intro i h1 h2
  have h := congrArg (fun x => x.testBit i) hn
  simpa only [bitsToNat_testBit, List.getD_eq_getElem _ _ h1, List.getD_eq_getElem _ _ h2] using h

@[simp] theorem natToBits_length (n x : Nat) : (natToBits n x).length = n := by simp [natToBits]

theorem natToBits_getD (n x i : Nat) : (natToBits n x).getD i false = (decide (i < n) && x.testBit i) := by
  simp only [natToBits, List.getD_eq_getElem?_getD, List.getElem?_map]
  by_cases h : i < n
  · simp [h]
  · simp [h]

theorem bitsToNat_natToBits (n x : Nat) : bitsToNat (natToBits n x) = x % 2 ^ n := by
  apply Nat.eq_of_testBit_eq
  intro i
  rw [bitsToNat_testBit, natToBits_getD, Nat.testBit_mod_two_pow]

/-- A list of bits read off a number by their index is the number's list of bits. -/
theorem natToBits_of_forall {n x : Nat} {f : Nat → Bool} (h : ∀ i, i < n → f i = x.testBit i) :
    (List.range n).map f = natToBits n x := by
  unfold natToBits
  apply List.map_congr_left
  intro i hi
  exact h i (List.mem_range.mp hi)

theorem natToBits_bitsToNat (b : List Bool) : natToBits b.length (bitsToNat b) = b :=
  bits_ext (by simp) (by rw [bitsToNat_natToBits, Nat.mod_eq_of_lt (bitsToNat_lt b)])

theorem bitsToNat_drop (b : List Bool) (k : Nat) : bitsToNat (b.drop k) = bitsToNat b / 2 ^ k := by
  apply Nat.eq_of_testBit_eq
  intro i
  rw [bitsToNat_testBit, Nat.testBit_div_two_pow, bitsToNat_testBit]
  simp [List.getD_eq_getElem?_getD, Nat.add_comm]

theorem bitsToNat_take (b : List Bool) (k : Nat) : bitsToNat (b.take k) = bitsToNat b % 2 ^ k := by
  apply Nat.eq_of_testBit_eq
  intro i
  rw [bitsToNat_testBit, Nat.testBit_mod_two_pow, bitsToNat_testBit]
  by_cases h : i < k
  · simp [List.getD_eq_getElem?_getD, h]
  · simp [List.getD_eq_getElem?_getD, h]

theorem bitsToNat_eq_zero {b : List Bool} : bitsToNat b = 0 ↔ ∀ x ∈ b, x = false := by
  induction b with
  | nil => simp
  | cons x xs ih =>
    rw [bitsToNat_cons]
    cases x with
    | false => simp [ih]
    | true => simp

/-! ### Readings of a value -/

theorem uint_lt (v : Fpn) : uint v < 2 ^ v.size := bitsToNat_lt v.bits

theorem bitAt_eq_testBit (v : Fpn) (i : Nat) : bitAt v i = (uint v).testBit i := (bitsToNat_testBit v.bits i).symm

@[simp] theorem size_mk (d : Nat) (b : List Bool) (o c t : Bool) : (Fpn.mk d b o c t).size = b.length := rfl

@[simp] theorem size_plain (d : Nat) (b : List Bool) : (Fpn.plain d b).size = b.length := rfl

@[simp] theorem uint_mk (d : Nat) (b : List Bool) (o c t : Bool) : uint (Fpn.mk d b o c t) = bitsToNat b := rfl

@[simp] theorem uint_plain (d : Nat) (b : List Bool) : uint (Fpn.plain d b) = bitsToNat b := rfl

/-- The sign bit is 1 exactly when the pattern is in the upper half. -/
theorem sign_eq_true_iff {v : Fpn} (h : 1 ≤ v.size) : sign v = true ↔ 2 ^ (v.size - 1) ≤ uint v := by
  have hlt := uint_lt v
  have hs : 2 ^ v.size = 2 ^ (v.size - 1) + 2 ^ (v.size - 1) := by
    conv_lhs => rw [show v.size = (v.size - 1) + 1 by omega]
    rw [pow_succ]; omega
  unfold sign
  rw [bitAt_eq_testBit, Nat.testBit_eq_decide_div_mod_eq, decide_eq_true_eq]
  constructor
  · intro h1
    by_contra h2
    rw [Nat.div_eq_of_lt (by omega)] at h1
    simp at h1
  · intro h1
    have : uint v / 2 ^ (v.size - 1) = 1 := by
      apply Nat.div_eq_of_lt_le <;> omega
    rw [this]

theorem sint_of_sign_false {v : Fpn} (h : sign v = false) : sint v = uint v := by simp [sint, h]

theorem sint_of_sign_true {v : Fpn} (h : sign v = true) : sint v = (uint v : Int) - 2 ^ v.size := by simp [sint, h]

/-- `sint` lies in the range of two's complement (`spec/00_scope.md` R11). -/
theorem sint_bounds {v : Fpn} (h : 1 ≤ v.size) :
    -(2 : Int) ^ (v.size - 1) ≤ sint v ∧ sint v < (2 : Int) ^ (v.size - 1) := by
  have hlt := uint_lt v
  have hs : 2 ^ v.size = 2 ^ (v.size - 1) + 2 ^ (v.size - 1) := by
    conv_lhs => rw [show v.size = (v.size - 1) + 1 by omega]
    rw [pow_succ]; omega
  have hsz : ((2 : Int) ^ v.size) = 2 ^ (v.size - 1) + 2 ^ (v.size - 1) := by exact_mod_cast hs
  have hltz : (uint v : Int) < 2 ^ v.size := by exact_mod_cast hlt
  cases hsg : sign v with
  | false =>
    have h1 : ¬ 2 ^ (v.size - 1) ≤ uint v := fun e => by
      have := (sign_eq_true_iff h).mpr e; rw [hsg] at this; cases this
    have h2 : (uint v : Int) < 2 ^ (v.size - 1) := by exact_mod_cast (not_le.mp h1)
    rw [sint_of_sign_false hsg]
    constructor
    · have : (0 : Int) ≤ 2 ^ (v.size - 1) := by positivity
      omega
    · exact h2
  | true =>
    have h1 : ((2 : Int) ^ (v.size - 1)) ≤ uint v := by exact_mod_cast (sign_eq_true_iff h).mp hsg
    rw [sint_of_sign_true hsg]
    constructor <;> omega

end Sys2Proof.Machine
end

