-- ==== Sys2Proof/Laws/State.lean ====
section
/-! SUPPORT. Laws of State: one lemma per field and per update, each true by rfl, and the views of STATUS, of a
register and of a byte of BUF after an update, so that no proof unfolds a record update. -/

namespace Sys2Proof.Machine

/-! ### setReg -/

@[simp] theorem State.setReg_v (s : State) (r : Reg) (x : Fpn) : (s.setReg r x).v = s.v.set r.val (some x) r.isLt := rfl
@[simp] theorem State.setReg_cost (s : State) (r : Reg) (x : Fpn) : (s.setReg r x).cost = s.cost := rfl
@[simp] theorem State.setReg_q (s : State) (r : Reg) (x : Fpn) : (s.setReg r x).q = s.q := rfl
@[simp] theorem State.setReg_rr (s : State) (r : Reg) (x : Fpn) : (s.setReg r x).rr = s.rr := rfl
@[simp] theorem State.setReg_status (s : State) (r : Reg) (x : Fpn) : (s.setReg r x).status = s.status := rfl
@[simp] theorem State.setReg_fcmd (s : State) (r : Reg) (x : Fpn) : (s.setReg r x).fcmd = s.fcmd := rfl
@[simp] theorem State.setReg_buf (s : State) (r : Reg) (x : Fpn) : (s.setReg r x).buf = s.buf := rfl
@[simp] theorem State.setReg_epoch (s : State) (r : Reg) (x : Fpn) : (s.setReg r x).epoch = s.epoch := rfl
@[simp] theorem State.setReg_host (s : State) (r : Reg) (x : Fpn) : (s.setReg r x).host = s.host := rfl

@[simp] theorem State.setReg_faultCode (s : State) (r : Reg) (x : Fpn) : (s.setReg r x).faultCode = s.faultCode := rfl
@[simp] theorem State.setReg_statusReserved (s : State) (r : Reg) (x : Fpn) : (s.setReg r x).statusReserved = s.statusReserved := rfl
@[simp] theorem State.setReg_diviter (s : State) (r : Reg) (x : Fpn) : (s.setReg r x).diviter = s.diviter := rfl
@[simp] theorem State.setReg_divstate (s : State) (r : Reg) (x : Fpn) : (s.setReg r x).divstate = s.divstate := rfl
@[simp] theorem State.setReg_faulted (s : State) (r : Reg) (x : Fpn) : (s.setReg r x).faulted = s.faulted := rfl

@[simp] theorem State.setReg_bufByte (s : State) (r : Reg) (x : Fpn) (a : Nat) : (s.setReg r x).bufByte a = s.bufByte a := rfl

/-! ### addCost -/

@[simp] theorem State.addCost_v (s : State) (c : Nat) : (s.addCost c).v = s.v := rfl
@[simp] theorem State.addCost_cost (s : State) (c : Nat) : (s.addCost c).cost = s.cost + c := rfl
@[simp] theorem State.addCost_q (s : State) (c : Nat) : (s.addCost c).q = s.q := rfl
@[simp] theorem State.addCost_rr (s : State) (c : Nat) : (s.addCost c).rr = s.rr := rfl
@[simp] theorem State.addCost_status (s : State) (c : Nat) : (s.addCost c).status = s.status := rfl
@[simp] theorem State.addCost_fcmd (s : State) (c : Nat) : (s.addCost c).fcmd = s.fcmd := rfl
@[simp] theorem State.addCost_buf (s : State) (c : Nat) : (s.addCost c).buf = s.buf := rfl
@[simp] theorem State.addCost_epoch (s : State) (c : Nat) : (s.addCost c).epoch = s.epoch := rfl
@[simp] theorem State.addCost_host (s : State) (c : Nat) : (s.addCost c).host = s.host := rfl

@[simp] theorem State.addCost_faultCode (s : State) (c : Nat) : (s.addCost c).faultCode = s.faultCode := rfl
@[simp] theorem State.addCost_statusReserved (s : State) (c : Nat) : (s.addCost c).statusReserved = s.statusReserved := rfl
@[simp] theorem State.addCost_diviter (s : State) (c : Nat) : (s.addCost c).diviter = s.diviter := rfl
@[simp] theorem State.addCost_divstate (s : State) (c : Nat) : (s.addCost c).divstate = s.divstate := rfl
@[simp] theorem State.addCost_faulted (s : State) (c : Nat) : (s.addCost c).faulted = s.faulted := rfl

@[simp] theorem State.addCost_bufByte (s : State) (c : Nat) (a : Nat) : (s.addCost c).bufByte a = s.bufByte a := rfl

@[simp] theorem State.addCost_readReg (s : State) (c : Nat) (r' : Reg) : (s.addCost c).readReg r' = s.readReg r' := rfl

/-! ### setQ -/

@[simp] theorem State.setQ_v (s : State) (n : Nat) : (s.setQ n).v = s.v := rfl
@[simp] theorem State.setQ_cost (s : State) (n : Nat) : (s.setQ n).cost = s.cost := rfl
@[simp] theorem State.setQ_q (s : State) (n : Nat) : (s.setQ n).q = BitVec.ofNat 64 n := rfl
@[simp] theorem State.setQ_rr (s : State) (n : Nat) : (s.setQ n).rr = s.rr := rfl
@[simp] theorem State.setQ_status (s : State) (n : Nat) : (s.setQ n).status = s.status := rfl
@[simp] theorem State.setQ_fcmd (s : State) (n : Nat) : (s.setQ n).fcmd = s.fcmd := rfl
@[simp] theorem State.setQ_buf (s : State) (n : Nat) : (s.setQ n).buf = s.buf := rfl
@[simp] theorem State.setQ_epoch (s : State) (n : Nat) : (s.setQ n).epoch = s.epoch := rfl
@[simp] theorem State.setQ_host (s : State) (n : Nat) : (s.setQ n).host = s.host := rfl

@[simp] theorem State.setQ_faultCode (s : State) (n : Nat) : (s.setQ n).faultCode = s.faultCode := rfl
@[simp] theorem State.setQ_statusReserved (s : State) (n : Nat) : (s.setQ n).statusReserved = s.statusReserved := rfl
@[simp] theorem State.setQ_diviter (s : State) (n : Nat) : (s.setQ n).diviter = s.diviter := rfl
@[simp] theorem State.setQ_divstate (s : State) (n : Nat) : (s.setQ n).divstate = s.divstate := rfl
@[simp] theorem State.setQ_faulted (s : State) (n : Nat) : (s.setQ n).faulted = s.faulted := rfl

@[simp] theorem State.setQ_bufByte (s : State) (n : Nat) (a : Nat) : (s.setQ n).bufByte a = s.bufByte a := rfl

@[simp] theorem State.setQ_readReg (s : State) (n : Nat) (r' : Reg) : (s.setQ n).readReg r' = s.readReg r' := rfl

/-! ### setRR -/

@[simp] theorem State.setRR_v (s : State) (p : RealPair) : (s.setRR p).v = s.v := rfl
@[simp] theorem State.setRR_cost (s : State) (p : RealPair) : (s.setRR p).cost = s.cost := rfl
@[simp] theorem State.setRR_q (s : State) (p : RealPair) : (s.setRR p).q = s.q := rfl
@[simp] theorem State.setRR_rr (s : State) (p : RealPair) : (s.setRR p).rr = p := rfl
@[simp] theorem State.setRR_status (s : State) (p : RealPair) : (s.setRR p).status = s.status := rfl
@[simp] theorem State.setRR_fcmd (s : State) (p : RealPair) : (s.setRR p).fcmd = s.fcmd := rfl
@[simp] theorem State.setRR_buf (s : State) (p : RealPair) : (s.setRR p).buf = s.buf := rfl
@[simp] theorem State.setRR_epoch (s : State) (p : RealPair) : (s.setRR p).epoch = s.epoch := rfl
@[simp] theorem State.setRR_host (s : State) (p : RealPair) : (s.setRR p).host = s.host := rfl

@[simp] theorem State.setRR_faultCode (s : State) (p : RealPair) : (s.setRR p).faultCode = s.faultCode := rfl
@[simp] theorem State.setRR_statusReserved (s : State) (p : RealPair) : (s.setRR p).statusReserved = s.statusReserved := rfl
@[simp] theorem State.setRR_diviter (s : State) (p : RealPair) : (s.setRR p).diviter = s.diviter := rfl
@[simp] theorem State.setRR_divstate (s : State) (p : RealPair) : (s.setRR p).divstate = s.divstate := rfl
@[simp] theorem State.setRR_faulted (s : State) (p : RealPair) : (s.setRR p).faulted = s.faulted := rfl

@[simp] theorem State.setRR_bufByte (s : State) (p : RealPair) (a : Nat) : (s.setRR p).bufByte a = s.bufByte a := rfl

@[simp] theorem State.setRR_readReg (s : State) (p : RealPair) (r' : Reg) : (s.setRR p).readReg r' = s.readReg r' := rfl

/-! ### setDiv -/

@[simp] theorem State.setDiv_v (s : State) (st : DivState) (n : Nat) : (s.setDiv st n).v = s.v := rfl
@[simp] theorem State.setDiv_cost (s : State) (st : DivState) (n : Nat) : (s.setDiv st n).cost = s.cost := rfl
@[simp] theorem State.setDiv_q (s : State) (st : DivState) (n : Nat) : (s.setDiv st n).q = s.q := rfl
@[simp] theorem State.setDiv_rr (s : State) (st : DivState) (n : Nat) : (s.setDiv st n).rr = s.rr := rfl
@[simp] theorem State.setDiv_status (s : State) (st : DivState) (n : Nat) : (s.setDiv st n).status = packStatus s.faultCode s.statusReserved (BitVec.ofNat 8 n) st.code := rfl
@[simp] theorem State.setDiv_fcmd (s : State) (st : DivState) (n : Nat) : (s.setDiv st n).fcmd = s.fcmd := rfl
@[simp] theorem State.setDiv_buf (s : State) (st : DivState) (n : Nat) : (s.setDiv st n).buf = s.buf := rfl
@[simp] theorem State.setDiv_epoch (s : State) (st : DivState) (n : Nat) : (s.setDiv st n).epoch = s.epoch := rfl
@[simp] theorem State.setDiv_host (s : State) (st : DivState) (n : Nat) : (s.setDiv st n).host = s.host := rfl

@[simp] theorem State.setDiv_bufByte (s : State) (st : DivState) (n : Nat) (a : Nat) : (s.setDiv st n).bufByte a = s.bufByte a := rfl

@[simp] theorem State.setDiv_readReg (s : State) (st : DivState) (n : Nat) (r' : Reg) : (s.setDiv st n).readReg r' = s.readReg r' := rfl

/-! ### takeFault -/

@[simp] theorem takeFault_v (k : FaultKind) (w : Word) (s : State) : (takeFault k w s).v = s.v := rfl
@[simp] theorem takeFault_cost (k : FaultKind) (w : Word) (s : State) : (takeFault k w s).cost = s.cost := rfl
@[simp] theorem takeFault_q (k : FaultKind) (w : Word) (s : State) : (takeFault k w s).q = s.q := rfl
@[simp] theorem takeFault_rr (k : FaultKind) (w : Word) (s : State) : (takeFault k w s).rr = s.rr := rfl
@[simp] theorem takeFault_status (k : FaultKind) (w : Word) (s : State) : (takeFault k w s).status = packStatus k.code s.statusReserved s.diviter s.divstate := rfl
@[simp] theorem takeFault_fcmd (k : FaultKind) (w : Word) (s : State) : (takeFault k w s).fcmd = w := rfl
@[simp] theorem takeFault_buf (k : FaultKind) (w : Word) (s : State) : (takeFault k w s).buf = s.buf := rfl
@[simp] theorem takeFault_epoch (k : FaultKind) (w : Word) (s : State) : (takeFault k w s).epoch = s.epoch := rfl
@[simp] theorem takeFault_host (k : FaultKind) (w : Word) (s : State) : (takeFault k w s).host = s.host := rfl

@[simp] theorem takeFault_bufByte (k : FaultKind) (w : Word) (s : State) (a : Nat) : (takeFault k w s).bufByte a = s.bufByte a := rfl

@[simp] theorem takeFault_readReg (k : FaultKind) (w : Word) (s : State) (r' : Reg) : (takeFault k w s).readReg r' = s.readReg r' := rfl

/-! ### popHost -/

@[simp] theorem State.popHost_v (s : State) : (s.popHost).v = s.v := rfl
@[simp] theorem State.popHost_cost (s : State) : (s.popHost).cost = s.cost := rfl
@[simp] theorem State.popHost_q (s : State) : (s.popHost).q = s.q := rfl
@[simp] theorem State.popHost_rr (s : State) : (s.popHost).rr = s.rr := rfl
@[simp] theorem State.popHost_status (s : State) : (s.popHost).status = s.status := rfl
@[simp] theorem State.popHost_fcmd (s : State) : (s.popHost).fcmd = s.fcmd := rfl
@[simp] theorem State.popHost_buf (s : State) : (s.popHost).buf = s.buf := rfl
@[simp] theorem State.popHost_epoch (s : State) : (s.popHost).epoch = s.epoch := rfl
@[simp] theorem State.popHost_host (s : State) : (s.popHost).host = s.host.tail := rfl

@[simp] theorem State.popHost_faultCode (s : State) : (s.popHost).faultCode = s.faultCode := rfl
@[simp] theorem State.popHost_statusReserved (s : State) : (s.popHost).statusReserved = s.statusReserved := rfl
@[simp] theorem State.popHost_diviter (s : State) : (s.popHost).diviter = s.diviter := rfl
@[simp] theorem State.popHost_divstate (s : State) : (s.popHost).divstate = s.divstate := rfl
@[simp] theorem State.popHost_faulted (s : State) : (s.popHost).faulted = s.faulted := rfl

@[simp] theorem State.popHost_bufByte (s : State) (a : Nat) : (s.popHost).bufByte a = s.bufByte a := rfl

@[simp] theorem State.popHost_readReg (s : State) (r' : Reg) : (s.popHost).readReg r' = s.readReg r' := rfl

/-! ### hostWrite -/

@[simp] theorem hostWrite_v (a : BitVec 16) (b : Byte) (s : State) : (hostWrite a b s).v = s.v := rfl
@[simp] theorem hostWrite_cost (a : BitVec 16) (b : Byte) (s : State) : (hostWrite a b s).cost = s.cost := rfl
@[simp] theorem hostWrite_q (a : BitVec 16) (b : Byte) (s : State) : (hostWrite a b s).q = s.q := rfl
@[simp] theorem hostWrite_rr (a : BitVec 16) (b : Byte) (s : State) : (hostWrite a b s).rr = s.rr := rfl
@[simp] theorem hostWrite_status (a : BitVec 16) (b : Byte) (s : State) : (hostWrite a b s).status = s.status := rfl
@[simp] theorem hostWrite_fcmd (a : BitVec 16) (b : Byte) (s : State) : (hostWrite a b s).fcmd = s.fcmd := rfl
@[simp] theorem hostWrite_buf (a : BitVec 16) (b : Byte) (s : State) : (hostWrite a b s).buf = Memory.write s.buf a.toNat b := rfl
@[simp] theorem hostWrite_epoch (a : BitVec 16) (b : Byte) (s : State) : (hostWrite a b s).epoch = s.epoch := rfl
@[simp] theorem hostWrite_host (a : BitVec 16) (b : Byte) (s : State) : (hostWrite a b s).host = s.host := rfl

@[simp] theorem hostWrite_faultCode (a : BitVec 16) (b : Byte) (s : State) : (hostWrite a b s).faultCode = s.faultCode := rfl
@[simp] theorem hostWrite_statusReserved (a : BitVec 16) (b : Byte) (s : State) : (hostWrite a b s).statusReserved = s.statusReserved := rfl
@[simp] theorem hostWrite_diviter (a : BitVec 16) (b : Byte) (s : State) : (hostWrite a b s).diviter = s.diviter := rfl
@[simp] theorem hostWrite_divstate (a : BitVec 16) (b : Byte) (s : State) : (hostWrite a b s).divstate = s.divstate := rfl
@[simp] theorem hostWrite_faulted (a : BitVec 16) (b : Byte) (s : State) : (hostWrite a b s).faulted = s.faulted := rfl

@[simp] theorem hostWrite_readReg (a : BitVec 16) (b : Byte) (s : State) (r' : Reg) : (hostWrite a b s).readReg r' = s.readReg r' := rfl

/-! ### hostReset -/

@[simp] theorem hostReset_v (s : State) : (hostReset s).v = Vector.replicate 16 none := rfl
@[simp] theorem hostReset_cost (s : State) : (hostReset s).cost = 0 := rfl
@[simp] theorem hostReset_q (s : State) : (hostReset s).q = 0#64 := rfl
@[simp] theorem hostReset_rr (s : State) : (hostReset s).rr = ⟨0, 0⟩ := rfl
@[simp] theorem hostReset_status (s : State) : (hostReset s).status = 0#16 := rfl
@[simp] theorem hostReset_fcmd (s : State) : (hostReset s).fcmd = 0#64 := rfl
@[simp] theorem hostReset_buf (s : State) : (hostReset s).buf = [] := rfl
@[simp] theorem hostReset_epoch (s : State) : (hostReset s).epoch = s.epoch + 1 := rfl
@[simp] theorem hostReset_host (s : State) : (hostReset s).host = s.host := rfl

/-! ### Value registers -/

@[simp] theorem State.setReg_get_same (s : State) (r : Reg) (x : Fpn) : (s.setReg r x).v.get r = some x := by
  show (s.v.set r.val (some x) r.isLt)[r.val] = some x
  simp

theorem State.setReg_get_other (s : State) (r r' : Reg) (x : Fpn) (h : r' ≠ r) :
    (s.setReg r x).v.get r' = s.v.get r' := by
  have hne : r.val ≠ r'.val := fun e => h (Fin.ext e.symm)
  show (s.v.set r.val (some x) r.isLt)[r'.val] = s.v[r'.val]
  simp [hne]

/-- What a register reads after a register write, in one equation. -/
theorem State.setReg_get (s : State) (r r' : Reg) (x : Fpn) :
    (s.setReg r x).v.get r' = if r' = r then some x else s.v.get r' := by
  split
  · next h => subst h; exact State.setReg_get_same s _ x
  · next h => exact State.setReg_get_other s r r' x h

@[simp] theorem State.reset_get (r : Reg) : State.reset.v.get r = none := by
  simp [State.reset, Vector.get]

theorem State.readReg_some {s : State} {r : Reg} {x : Fpn} (h : s.v.get r = some x) : s.readReg r = .ok x := by
  simp [State.readReg, h]

theorem State.readReg_none {s : State} {r : Reg} (h : s.v.get r = none) :
    s.readReg r = .error .unwrittenRegister := by
  simp [State.readReg, h]

/-- A read answers the register's value, or `UnwrittenRegister` from an empty register (R27). -/
theorem State.readReg_eq_ok {s : State} {r : Reg} {x : Fpn} : s.readReg r = .ok x ↔ s.v.get r = some x := by
  unfold State.readReg
  split
  · next y h => simp [h]
  · next h => simp [h]

theorem State.readReg_eq_error {s : State} {r : Reg} {k : FaultKind} :
    s.readReg r = .error k ↔ s.v.get r = none ∧ k = .unwrittenRegister := by
  unfold State.readReg
  split
  · next y h => simp [h]
  · next h => simp [h, eq_comm]

end Sys2Proof.Machine
end

