-- ==== Sys2Proof/Laws/Ops.lean ====
section
/-! SUPPORT. Laws of Ops and of the shared operand shapes: what each can do, said once. -/

namespace Sys2Proof.Machine

/-! ### STATUS -/

theorem packStatus_toNat (f : BitVec 4) (r : BitVec 2) (n : BitVec 8) (d : BitVec 2) :
    (packStatus f r n d).toNat = f.toNat * 2 ^ 12 + r.toNat * 2 ^ 10 + n.toNat * 2 ^ 2 + d.toNat := by
  have hf := f.isLt; have hr := r.isLt; have hn := n.isLt; have hd := d.isLt
  simp only [packStatus, BitVec.toNat_ofNat]
  omega

@[simp] theorem packStatus_faultField (f : BitVec 4) (r : BitVec 2) (n : BitVec 8) (d : BitVec 2) :
    (packStatus f r n d).extractLsb' 12 4 = f := by
  have hf := f.isLt; have hr := r.isLt; have hn := n.isLt; have hd := d.isLt
  apply BitVec.eq_of_toNat_eq
  rw [BitVec.extractLsb'_toNat, packStatus_toNat, Nat.shiftRight_eq_div_pow]
  omega

@[simp] theorem packStatus_reservedField (f : BitVec 4) (r : BitVec 2) (n : BitVec 8) (d : BitVec 2) :
    (packStatus f r n d).extractLsb' 10 2 = r := by
  have hf := f.isLt; have hr := r.isLt; have hn := n.isLt; have hd := d.isLt
  apply BitVec.eq_of_toNat_eq
  rw [BitVec.extractLsb'_toNat, packStatus_toNat, Nat.shiftRight_eq_div_pow]
  omega

@[simp] theorem packStatus_iterField (f : BitVec 4) (r : BitVec 2) (n : BitVec 8) (d : BitVec 2) :
    (packStatus f r n d).extractLsb' 2 8 = n := by
  have hf := f.isLt; have hr := r.isLt; have hn := n.isLt; have hd := d.isLt
  apply BitVec.eq_of_toNat_eq
  rw [BitVec.extractLsb'_toNat, packStatus_toNat, Nat.shiftRight_eq_div_pow]
  omega

@[simp] theorem packStatus_divField (f : BitVec 4) (r : BitVec 2) (n : BitVec 8) (d : BitVec 2) :
    (packStatus f r n d).extractLsb' 0 2 = d := by
  have hf := f.isLt; have hr := r.isLt; have hn := n.isLt; have hd := d.isLt
  apply BitVec.eq_of_toNat_eq
  rw [BitVec.extractLsb'_toNat, packStatus_toNat, Nat.shiftRight_eq_div_pow]
  omega

@[simp] theorem State.setDiv_faultCode (s : State) (st : DivState) (n : Nat) :
    (s.setDiv st n).faultCode = s.faultCode := packStatus_faultField ..

@[simp] theorem State.setDiv_statusReserved (s : State) (st : DivState) (n : Nat) :
    (s.setDiv st n).statusReserved = s.statusReserved := packStatus_reservedField ..

@[simp] theorem State.setDiv_diviter (s : State) (st : DivState) (n : Nat) :
    (s.setDiv st n).diviter = BitVec.ofNat 8 n := packStatus_iterField ..

@[simp] theorem State.setDiv_divstate (s : State) (st : DivState) (n : Nat) :
    (s.setDiv st n).divstate = st.code := packStatus_divField ..

@[simp] theorem State.setDiv_faulted (s : State) (st : DivState) (n : Nat) :
    (s.setDiv st n).faulted = s.faulted := by simp [State.faulted]

/-! ### Taking a fault -/

@[simp] theorem takeFault_faultCode (k : FaultKind) (w : Word) (s : State) :
    (takeFault k w s).faultCode = k.code := packStatus_faultField ..

@[simp] theorem takeFault_statusReserved (k : FaultKind) (w : Word) (s : State) :
    (takeFault k w s).statusReserved = s.statusReserved := packStatus_reservedField ..

@[simp] theorem takeFault_diviter (k : FaultKind) (w : Word) (s : State) :
    (takeFault k w s).diviter = s.diviter := packStatus_iterField ..

@[simp] theorem takeFault_divstate (k : FaultKind) (w : Word) (s : State) :
    (takeFault k w s).divstate = s.divstate := packStatus_divField ..

theorem FaultKind.code_ne_zero (k : FaultKind) : k.code ≠ 0#4 := by cases k <;> decide

theorem FaultKind.code_le_six (k : FaultKind) : k.code.toNat ≤ 6 := by cases k <;> decide

@[simp] theorem takeFault_faulted (k : FaultKind) (w : Word) (s : State) : (takeFault k w s).faulted = true := by
  simp [State.faulted, k.code_ne_zero]

/-! ### How a command ends -/

@[simp] theorem complete_ok (i : Instr) (s t : State) : complete i s (.ok t) = .next t := rfl

@[simp] theorem complete_error (i : Instr) (s : State) (k : FaultKind) :
    complete i s (.error k) = .next (takeFault k (encode i) s) := rfl

/-- A command always answers a next state: its own effect or the fault entry. -/
theorem complete_next {i : Instr} {s t : State} {r : Except FaultKind State} (h : complete i s r = .next t) :
    r = .ok t ∨ ∃ k, r = .error k ∧ t = takeFault k (encode i) s := by
  cases r with
  | ok u => left; simp only [complete_ok, Host.Outcome.next.injEq] at h; rw [h]
  | error k => right; simp only [complete_error, Host.Outcome.next.injEq] at h; exact ⟨k, rfl, h.symm⟩

theorem complete_total (i : Instr) (s : State) (r : Except FaultKind State) : ∃ t, complete i s r = .next t := by
  cases r with
  | ok t => exact ⟨t, rfl⟩
  | error k => exact ⟨_, rfl⟩

/-! ### The sequencing of checks -/

@[simp] theorem except_ok_bind {α β : Type} (a : α) (f : α → Except FaultKind β) : (Except.ok a >>= f) = f a := rfl

@[simp] theorem except_error_bind {α β : Type} (k : FaultKind) (f : α → Except FaultKind β) :
    ((Except.error k : Except FaultKind α) >>= f) = .error k := rfl

theorem except_bind_eq_ok {α β : Type} {x : Except FaultKind α} {f : α → Except FaultKind β} {b : β} :
    (x >>= f) = .ok b ↔ ∃ a, x = .ok a ∧ f a = .ok b := by
  cases x with
  | ok a => simp
  | error k => simp

theorem except_bind_eq_error {α β : Type} {x : Except FaultKind α} {f : α → Except FaultKind β} {k : FaultKind} :
    (x >>= f) = .error k ↔ x = .error k ∨ ∃ a, x = .ok a ∧ f a = .error k := by
  cases x with
  | ok a => simp
  | error j => simp

/-! ### The operand shapes -/

theorem convert_eq_ok {rd rs1 : Reg} {f : Fpn → Except FaultKind Fpn} {s t : State} :
    convert rd rs1 f s = .ok t ↔ ∃ x y, s.v.get rs1 = some x ∧ f x = .ok y ∧ t = s.setReg rd y := by
  simp only [convert, except_bind_eq_ok, State.readReg_eq_ok, Except.ok.injEq]
  constructor
  · rintro ⟨x, hx, y, hy, h⟩; exact ⟨x, y, hx, hy, h.symm⟩
  · rintro ⟨x, y, hx, hy, h⟩; exact ⟨x, hx, y, hy, h.symm⟩

theorem convert_eq_error {rd rs1 : Reg} {f : Fpn → Except FaultKind Fpn} {s : State} {k : FaultKind} :
    convert rd rs1 f s = .error k ↔
      (s.v.get rs1 = none ∧ k = .unwrittenRegister) ∨ ∃ x, s.v.get rs1 = some x ∧ f x = .error k := by
  simp [convert, except_bind_eq_error, State.readReg_eq_ok, State.readReg_eq_error]

theorem query_eq_ok {rs1 : Reg} {f : Fpn → Nat} {s t : State} :
    query rs1 f s = .ok t ↔ ∃ x, s.v.get rs1 = some x ∧ t = s.setQ (f x) := by
  simp only [query, except_bind_eq_ok, State.readReg_eq_ok, Except.ok.injEq]
  constructor
  · rintro ⟨x, hx, h⟩; exact ⟨x, hx, h.symm⟩
  · rintro ⟨x, hx, h⟩; exact ⟨x, hx, h.symm⟩

theorem query_eq_error {rs1 : Reg} {f : Fpn → Nat} {s : State} {k : FaultKind} :
    query rs1 f s = .error k ↔ s.v.get rs1 = none ∧ k = .unwrittenRegister := by
  simp [query, except_bind_eq_error, State.readReg_eq_error]

theorem arith_eq_ok {rd rs1 rs2 : Reg} {f : Fpn → Fpn → Except FaultKind (Fpn × Nat)} {s t : State} :
    arith rd rs1 rs2 f s = .ok t ↔
      ∃ l r p, s.v.get rs1 = some l ∧ s.v.get rs2 = some r ∧ f l r = .ok p ∧ t = (s.setReg rd p.1).addCost p.2 := by
  simp only [arith, except_bind_eq_ok, State.readReg_eq_ok, Except.ok.injEq]
  constructor
  · rintro ⟨l, hl, r, hr, p, hp, h⟩; exact ⟨l, r, p, hl, hr, hp, h.symm⟩
  · rintro ⟨l, r, p, hl, hr, hp, h⟩; exact ⟨l, hl, r, hr, p, hp, h.symm⟩

theorem divide_eq_ok {rd rs1 rs2 : Reg} {f : Fpn → Fpn → Except FaultKind DivResult} {s t : State} :
    divide rd rs1 rs2 f s = .ok t ↔
      ∃ a b r, s.v.get rs1 = some a ∧ s.v.get rs2 = some b ∧ f a b = .ok r ∧
        t = ((s.setReg rd r.quotient).addCost r.cost).setDiv r.state r.iterations := by
  simp only [divide, except_bind_eq_ok, State.readReg_eq_ok, Except.ok.injEq]
  constructor
  · rintro ⟨l, hl, r, hr, p, hp, h⟩; exact ⟨l, r, p, hl, hr, hp, h.symm⟩
  · rintro ⟨l, r, p, hl, hr, hp, h⟩; exact ⟨l, hl, r, hr, p, hp, h.symm⟩

/-! ### BUF -/

theorem Memory.read_write (m : List Host.Cell) (a : Nat) (b : Byte) (a' : Nat) :
    Memory.read (Memory.write m a b) a' = if a' = a then some b else Memory.read m a' := by
  induction m with
  | nil => simp [Memory.write, Memory.read]
  | cons c m ih =>
    obtain ⟨c1, c2⟩ := c
    simp only [Memory.write]
    split
    · simp [Memory.read]
    · split
      · next h => subst h; simp only [Memory.read]; split <;> rfl
      · next h1 h2 =>
        simp only [Memory.read, ih]
        by_cases hc : a' = c1
        · have : ¬ a' = a := fun e => h2 (e ▸ hc)
          simp [hc]; omega
        · simp [hc]

@[simp] theorem Memory.read_write_same (m : List Host.Cell) (a : Nat) (b : Byte) :
    Memory.read (Memory.write m a b) a = some b := by simp [Memory.read_write]

theorem Memory.read_write_other (m : List Host.Cell) {a a' : Nat} (b : Byte) (h : a' ≠ a) :
    Memory.read (Memory.write m a b) a' = Memory.read m a' := by simp [Memory.read_write, h]

/-- What an address reads as after a run of bytes is written from `a` on. -/
theorem Memory.read_writeBytes (bs : List Byte) : ∀ (m : List Host.Cell) (a a' : Nat),
    Memory.read (Memory.writeBytes m a bs) a' =
      if a ≤ a' ∧ a' < a + bs.length then bs[a' - a]? else Memory.read m a' := by
  induction bs with
  | nil =>
    intro m a a'
    have : ¬ (a ≤ a' ∧ a' < a + ([] : List Byte).length) := by simp only [List.length_nil]; omega
    simp only [Memory.writeBytes, this, if_false]
  | cons b bs ih =>
    intro m a a'
    simp only [Memory.writeBytes, ih, Memory.read_write, List.length_cons]
    by_cases h1 : a' = a
    · subst h1
      have h3 : a' ≤ a' ∧ a' < a' + (bs.length + 1) := by omega
      simp [h3]
    · by_cases h2 : a + 1 ≤ a' ∧ a' < a + 1 + bs.length
      · have h3 : a ≤ a' ∧ a' < a + (bs.length + 1) := by omega
        have h4 : a' - a = (a' - (a + 1)) + 1 := by omega
        simp only [h2, and_self, if_true, h3, h4, List.getElem?_cons_succ]
      · have h3 : ¬ (a ≤ a' ∧ a' < a + (bs.length + 1)) := by omega
        simp only [h2, if_false, h3, h1]

theorem Memory.wfFrom_mono {m : List Host.Cell} {lo lo' : Nat} (h : lo' ≤ lo) (hw : Memory.wfFrom lo m = true) :
    Memory.wfFrom lo' m = true := by
  cases m with
  | nil => rfl
  | cons c m =>
    simp only [Memory.wfFrom, Bool.and_eq_true, decide_eq_true_eq] at hw ⊢
    exact ⟨⟨by omega, hw.1.2⟩, hw.2⟩

/-- A write inside `BUF` keeps the canonical form. -/
theorem Memory.wfFrom_write {m : List Host.Cell} : ∀ {lo a : Nat} {b : Byte}, lo ≤ a → a < Config.bufsz →
    Memory.wfFrom lo m = true → Memory.wfFrom lo (Memory.write m a b) = true := by
  induction m with
  | nil => intro lo a b h1 h2 _; simp [Memory.write, Memory.wfFrom, h1, h2]
  | cons c m ih =>
    obtain ⟨c1, c2⟩ := c
    intro lo a b h1 h2 h
    simp only [Memory.wfFrom, Bool.and_eq_true, decide_eq_true_eq] at h
    simp only [Memory.write]
    split
    · simp only [Memory.wfFrom, Bool.and_eq_true, decide_eq_true_eq]
      exact ⟨⟨h1, h2⟩, ⟨by omega, h.1.2⟩, h.2⟩
    · split
      · next h3 => subst h3; simp only [Memory.wfFrom, Bool.and_eq_true, decide_eq_true_eq]; exact ⟨⟨h1, h2⟩, h.2⟩
      · simp only [Memory.wfFrom, Bool.and_eq_true, decide_eq_true_eq]
        exact ⟨h.1, ih (by omega) h2 h.2⟩

theorem Memory.wf_write {m : List Host.Cell} {a : Nat} {b : Byte} (ha : a < Config.bufsz) (h : Memory.wf m = true) :
    Memory.wf (Memory.write m a b) = true := Memory.wfFrom_write (Nat.zero_le a) ha h

/-- Writing a run of bytes inside `BUF` keeps the canonical form. -/
theorem Memory.wf_writeBytes (bs : List Byte) : ∀ {m : List Host.Cell} {a : Nat}, a + bs.length ≤ Config.bufsz →
    Memory.wf m = true → Memory.wf (Memory.writeBytes m a bs) = true := by
  induction bs with
  | nil => intro m a _ h; exact h
  | cons b bs ih =>
    intro m a ha h
    simp only [List.length_cons] at ha
    exact ih (by omega) (Memory.wf_write (by omega) h)

theorem State.memRead_eq_ok {s : State} {a n : Nat} {t : List Byte} :
    s.memRead a n = .ok t ↔ a + n ≤ Config.bufsz ∧ t = (List.range n).map (fun k => s.bufByte (a + k)) := by
  unfold State.memRead
  split
  · next h => simp; omega
  · next h => simp only [Except.ok.injEq, eq_comm (a := t)]; constructor
              · intro e; exact ⟨by omega, e⟩
              · exact fun e => e.2

theorem State.memRead_eq_error {s : State} {a n : Nat} {k : FaultKind} :
    s.memRead a n = .error k ↔ a + n > Config.bufsz ∧ k = .bufferRange := by
  unfold State.memRead
  split
  · next h => simp only [Except.error.injEq]; constructor
              · intro e; exact ⟨h, e.symm⟩
              · exact fun e => e.2.symm
  · next h => simp [h]

theorem State.memWrite_eq_ok {s t : State} {a : Nat} {bs : List Byte} :
    s.memWrite a bs = .ok t ↔
      a + bs.length ≤ Config.bufsz ∧ t = { s with buf := Memory.writeBytes s.buf a bs } := by
  unfold State.memWrite
  split
  · next h => simp; omega
  · next h => simp only [Except.ok.injEq, eq_comm (a := t)]; constructor
              · intro e; exact ⟨by omega, e⟩
              · exact fun e => e.2

theorem State.memWrite_eq_error {s : State} {a : Nat} {bs : List Byte} {k : FaultKind} :
    s.memWrite a bs = .error k ↔ a + bs.length > Config.bufsz ∧ k = .bufferRange := by
  unfold State.memWrite
  split
  · next h => simp only [Except.error.injEq]; constructor
              · intro e; exact ⟨h, e.symm⟩
              · exact fun e => e.2.symm
  · next h => simp [h]

/-- Bytes outside a write read as before. -/
theorem State.memWrite_bufByte_other {s t : State} {a : Nat} {bs : List Byte} (h : s.memWrite a bs = .ok t) {a' : Nat}
    (ho : ¬ (a ≤ a' ∧ a' < a + bs.length)) : t.bufByte a' = s.bufByte a' := by
  obtain ⟨-, rfl⟩ := State.memWrite_eq_ok.mp h
  simp only [State.bufByte, Memory.read_writeBytes, if_neg ho]

/-- Bytes inside a write read as what was written. -/
theorem State.memWrite_bufByte_inside {s t : State} {a : Nat} {bs : List Byte} (h : s.memWrite a bs = .ok t) {k : Nat}
    (hk : k < bs.length) : t.bufByte (a + k) = bs[k] := by
  obtain ⟨-, rfl⟩ := State.memWrite_eq_ok.mp h
  have h1 : a ≤ a + k ∧ a + k < a + bs.length := by omega
  have h2 : a + k - a = k := by omega
  simp only [State.bufByte, Memory.read_writeBytes, if_pos h1, h2, List.getElem?_eq_getElem hk, Option.getD_some]

end Sys2Proof.Machine
end

