-- ==== Sys2Proof/Laws/Datapath.lean ====
section
/-! SUPPORT. Laws of the datapath: the full adder, the ripple chain, complement, alignment, add, subtract, the width
changes and the multiplier as integer arithmetic. -/

namespace Sys2Proof.Machine

/-! ### The full adder and the ripple chain -/

/-- R140: `a + b + cin = sum + 2·cout`. -/
theorem fa_sum (a b c : Bool) : (fa a b c).1.toNat + 2 * (fa a b c).2.toNat = a.toNat + b.toNat + c.toNat := by
  cases a <;> cases b <;> cases c <;> rfl

theorem ripple_length : ∀ {x y : List Bool} (c : Bool), x.length = y.length → (ripple x y c).1.length = x.length
  | [], [], _, _ => rfl
  | a :: xs, b :: ys, c, h => by
    have := ripple_length (x := xs) (y := ys) (fa a b c).2 (by simpa using h)
    simp [ripple, this]

/-- R142: the chain adds. -/
theorem ripple_sum : ∀ {x y : List Bool} (c : Bool), x.length = y.length →
    bitsToNat (ripple x y c).1 + 2 ^ x.length * (ripple x y c).2.toNat = bitsToNat x + bitsToNat y + c.toNat
  | [], [], c, _ => by simp [ripple]
  | a :: xs, b :: ys, c, h => by
    have ih := ripple_sum (x := xs) (y := ys) (fa a b c).2 (by simpa using h)
    have hf := fa_sum a b c
    simp only [ripple, bitsToNat_cons, List.length_cons, pow_succ]
    have e : (2 ^ xs.length * 2) * (ripple xs ys (fa a b c).2).2.toNat
        = 2 * (2 ^ xs.length * (ripple xs ys (fa a b c).2).2.toNat) := by ring
    rw [e]
    omega

/-- The chain's sum bits and its carry, as a remainder and a comparison. -/
theorem ripple_spec {x y : List Bool} (c : Bool) (h : x.length = y.length) :
    bitsToNat (ripple x y c).1 = (bitsToNat x + bitsToNat y + c.toNat) % 2 ^ x.length ∧
    (ripple x y c).2 = decide (2 ^ x.length ≤ bitsToNat x + bitsToNat y + c.toNat) := by
  have hs := ripple_sum c h
  have hl := bitsToNat_lt (ripple x y c).1
  rw [ripple_length c h] at hl
  rw [← hs]
  cases (ripple x y c).2 with
  | false => simp only [Bool.toNat_false, Nat.mul_zero, Nat.add_zero]
             exact ⟨(Nat.mod_eq_of_lt hl).symm, by simp; omega⟩
  | true => simp only [Bool.toNat_true, Nat.mul_one]
            exact ⟨by rw [Nat.add_mod_right, Nat.mod_eq_of_lt hl], by simp⟩

/-! ### Complement -/

theorem bitsToNat_map_not (b : List Bool) : bitsToNat (b.map (!·)) = 2 ^ b.length - 1 - bitsToNat b := by
  induction b with
  | nil => rfl
  | cons x xs ih =>
    have h := bitsToNat_lt xs
    cases x <;> simp only [List.map_cons, bitsToNat_cons, ih, List.length_cons, pow_succ, Bool.not_false, Bool.not_true,
      Bool.toNat_true, Bool.toNat_false] <;> omega

theorem bitsToNat_map_false (b : List Bool) : bitsToNat (b.map (fun _ => false)) = 0 := by
  rw [bitsToNat_eq_zero]; simp

@[simp] theorem complement_size (v : Fpn) : (complement v).1.size = v.size := by
  simp [complement, ripple_length, Fpn.size]

@[simp] theorem complement_decimal (v : Fpn) : (complement v).1.decimal = v.decimal := rfl

@[simp] theorem complement_overflow (v : Fpn) : (complement v).1.overflow = v.overflow := rfl

@[simp] theorem complement_carryin (v : Fpn) : (complement v).1.carryin = v.carryin := rfl

@[simp] theorem complement_truncated (v : Fpn) : (complement v).1.truncated = v.truncated := rfl

@[simp] theorem complement_cost (v : Fpn) : (complement v).2 = v.size := by simp [complement]

/-- R92: negation modulo `2^size`. -/
theorem complement_uint (v : Fpn) : uint (complement v).1 = (2 ^ v.size - uint v) % 2 ^ v.size := by
  have h := uint_lt v
  have e : uint (complement v).1 = bitsToNat (ripple (v.bits.map (!·)) (v.bits.map (fun _ => false)) true).1 := rfl
  rw [e, (ripple_spec true (by simp)).1, bitsToNat_map_not, bitsToNat_map_false]
  simp only [List.length_map, Bool.toNat_true]
  change (2 ^ v.size - 1 - uint v + 0 + 1) % 2 ^ v.size = _
  congr 1
  omega

/-! ### Alignment -/

@[simp] theorem alignBits_length (v : Fpn) (W D : Nat) : (alignBits v W D).length = W := by simp [alignBits]

/-- R144 as arithmetic: alignment multiplies by `2^D / 2^decimal`, dropping what falls below bit 0. -/
theorem alignBits_uint (v : Fpn) (W D : Nat) :
    bitsToNat (alignBits v W D) = uint v * 2 ^ D / 2 ^ v.decimal % 2 ^ W := by
  have : alignBits v W D = natToBits W (uint v * 2 ^ D / 2 ^ v.decimal) := by
    apply natToBits_of_forall
    intro p _
    rw [Nat.testBit_div_two_pow, Nat.testBit_mul_two_pow, bitAt_eq_testBit]
    by_cases h : D ≤ p + v.decimal
    · simp [h]
    · simp [h]
  rw [this, bitsToNat_natToBits]

/-- With the common format nothing is lost at the high end (R144, point 2). -/
theorem align_fits {v : Fpn} {W D : Nat} (hd : v.decimal ≤ v.size) (hW : v.size - v.decimal + D ≤ W) :
    uint v * 2 ^ D / 2 ^ v.decimal < 2 ^ W := by
  rw [Nat.div_lt_iff_lt_mul (by positivity)]
  calc uint v * 2 ^ D < 2 ^ v.size * 2 ^ D := Nat.mul_lt_mul_of_pos_right (uint_lt v) (by positivity)
    _ = 2 ^ (v.size + D) := (pow_add 2 v.size D).symm
    _ ≤ 2 ^ (W + v.decimal) := Nat.pow_le_pow_right (by norm_num) (by omega)
    _ = 2 ^ W * 2 ^ v.decimal := pow_add 2 W v.decimal

/-! ### Add and subtract -/

@[simp] theorem commonFormat_fst (l r : Fpn) : (commonFormat l r).1 = max l.size r.size := rfl

@[simp] theorem commonFormat_snd (l r : Fpn) :
    (commonFormat l r).2 = max l.size r.size - max (l.size - l.decimal) (r.size - r.decimal) := rfl

@[simp] theorem add_size (l r : Fpn) : (add l r).1.size = max l.size r.size := by
  simp [add, withAddFlags, align, ripple_length, Fpn.plain]

@[simp] theorem add_decimal (l r : Fpn) : (add l r).1.decimal = (commonFormat l r).2 := rfl

@[simp] theorem add_cost (l r : Fpn) : (add l r).2 = 4 * max l.size r.size := rfl

theorem add_carryin (l r : Fpn) : (add l r).1.carryin = (add l r).1.overflow := rfl

theorem add_truncated (l r : Fpn) : (add l r).1.truncated =
    (decide (l.decimal > (commonFormat l r).2) || decide (r.decimal > (commonFormat l r).2)) := rfl

/-- R147 before the operands are read as numbers: the sum of the aligned patterns. -/
theorem add_aligned (l r : Fpn) :
    uint (add l r).1 = (bitsToNat (alignBits l (max l.size r.size) (commonFormat l r).2)
      + bitsToNat (alignBits r (max l.size r.size) (commonFormat l r).2)) % 2 ^ max l.size r.size ∧
    (add l r).1.overflow = decide (2 ^ max l.size r.size ≤
      bitsToNat (alignBits l (max l.size r.size) (commonFormat l r).2)
      + bitsToNat (alignBits r (max l.size r.size) (commonFormat l r).2)) := by
  have h := ripple_spec (x := alignBits l (max l.size r.size) (commonFormat l r).2)
    (y := alignBits r (max l.size r.size) (commonFormat l r).2) false (by simp)
  simp only [alignBits_length, Bool.toNat_false, Nat.add_zero] at h
  exact h

/-- R147 for operands of one format: nothing is moved or dropped. -/
theorem add_same_format {l r : Fpn} {m D : Nat} (hl : l.size = m) (hr : r.size = m) (dl : l.decimal = D)
    (dr : r.decimal = D) (hD : D ≤ m) :
    (add l r).1.size = m ∧ (add l r).1.decimal = D ∧ uint (add l r).1 = (uint l + uint r) % 2 ^ m ∧
    (add l r).1.overflow = decide (2 ^ m ≤ uint l + uint r) ∧
    (add l r).1.carryin = (add l r).1.overflow ∧ (add l r).1.truncated = false := by
  have hc : (commonFormat l r).2 = D := by simp [hl, hr, dl, dr]; omega
  have hmax : max l.size r.size = m := by simp [hl, hr]
  have el : bitsToNat (alignBits l m D) = uint l := by
    rw [alignBits_uint, dl, Nat.mul_div_cancel _ (by positivity)]
    exact Nat.mod_eq_of_lt (hl ▸ uint_lt l)
  have er : bitsToNat (alignBits r m D) = uint r := by
    rw [alignBits_uint, dr, Nat.mul_div_cancel _ (by positivity)]
    exact Nat.mod_eq_of_lt (hr ▸ uint_lt r)
  have h := add_aligned l r
  rw [hc, hmax, el, er] at h
  refine ⟨by rw [add_size, hmax], by rw [add_decimal, hc], h.1, h.2, rfl, ?_⟩
  rw [add_truncated, hc, dl, dr]; simp

@[simp] theorem sub_size (l r : Fpn) : (sub l r).1.size = max l.size r.size := by
  have h := complement_size (Fpn.plain (commonFormat l r).2 (alignBits r (max l.size r.size) (commonFormat l r).2))
  simp only [size_plain, alignBits_length] at h
  show (ripple (alignBits l (max l.size r.size) (commonFormat l r).2) _ false).1.length = _
  rw [ripple_length _ (by rw [alignBits_length]; exact h.symm), alignBits_length]

@[simp] theorem sub_decimal (l r : Fpn) : (sub l r).1.decimal = (commonFormat l r).2 := rfl

@[simp] theorem sub_cost (l r : Fpn) : (sub l r).2 = 5 * max l.size r.size := by
  show (complement _).2 + 4 * max l.size r.size = _
  rw [complement_cost, size_plain]
  simp only [alignBits_length]
  omega

theorem sub_carryin (l r : Fpn) : (sub l r).1.carryin = (sub l r).1.overflow := rfl

theorem sub_truncated (l r : Fpn) : (sub l r).1.truncated =
    (decide (l.decimal > (commonFormat l r).2) || decide (r.decimal > (commonFormat l r).2)) := rfl

/-- R149, R150 as integers: with `L`, `R` the aligned operands, the difference modulo `2^W`, and the final carry. -/
theorem sub_aligned (l r : Fpn) {W D L R : Nat} (hW : W = max l.size r.size) (hD : D = (commonFormat l r).2)
    (hL : L = bitsToNat (alignBits l W D)) (hR : R = bitsToNat (alignBits r W D)) :
    uint (sub l r).1 = (L + 2 ^ W - R) % 2 ^ W ∧ (sub l r).1.overflow = (decide (0 < R) && decide (R ≤ L)) := by
  have hRlt : R < 2 ^ W := by have := bitsToNat_lt (alignBits r W D); rw [alignBits_length] at this; omega
  have hLlt : L < 2 ^ W := by have := bitsToNat_lt (alignBits l W D); rw [alignBits_length] at this; omega
  have hcs := complement_size (Fpn.plain D (alignBits r W D))
  have hcu := complement_uint (Fpn.plain D (alignBits r W D))
  simp only [size_plain, alignBits_length] at hcs hcu
  rw [uint_plain, ← hR] at hcu
  have h := ripple_spec (x := alignBits l W D) (y := (complement (Fpn.plain D (alignBits r W D))).1.bits) false
    (by rw [alignBits_length]; exact hcs.symm)
  rw [alignBits_length, ← hL, Bool.toNat_false, Nat.add_zero] at h
  change bitsToNat _ = (L + uint (complement (Fpn.plain D (alignBits r W D))).1) % 2 ^ W ∧
    _ = decide (2 ^ W ≤ L + uint (complement (Fpn.plain D (alignBits r W D))).1) at h
  rw [hcu] at h
  subst hW hD
  refine ⟨?_, ?_⟩
  · refine Eq.trans h.1 ?_
    rw [Nat.add_mod_mod]
    congr 1
    omega
  · refine Eq.trans h.2 ?_
    by_cases h0 : R = 0
    · simp [h0]; exact hLlt
    · rw [Nat.mod_eq_of_lt (by omega)]
      have : 0 < R := by omega
      simp only [this, decide_true, Bool.true_and, decide_eq_decide]
      omega

/-! ### Width changes -/

theorem pad_eq_ok {v w : Fpn} {N : Nat} : pad v N = .ok w ↔ v.size ≤ N ∧
    w = { v with decimal := v.decimal + (N - v.size), bits := List.replicate (N - v.size) false ++ v.bits } := by
  unfold pad
  split
  · next h => simp; omega
  · next h => simp only [Except.ok.injEq, eq_comm (b := w)]; constructor
              · exact fun e => ⟨by omega, e⟩
              · exact fun e => e.2

theorem pad_size {v w : Fpn} {N : Nat} (h : pad v N = .ok w) : w.size = N := by
  obtain ⟨h1, rfl⟩ := pad_eq_ok.mp h
  simp only [size_mk, List.length_append, List.length_replicate]
  change N - v.size + v.size = N
  omega

theorem pad_decimal {v w : Fpn} {N : Nat} (h : pad v N = .ok w) : w.decimal = v.decimal + (N - v.size) := by
  obtain ⟨_, rfl⟩ := pad_eq_ok.mp h; rfl

theorem pad_uint {v w : Fpn} {N : Nat} (h : pad v N = .ok w) : uint w = uint v * 2 ^ (N - v.size) := by
  obtain ⟨_, rfl⟩ := pad_eq_ok.mp h
  rw [uint_mk, bitsToNat_append]
  simp only [bitsToNat_replicate_false, List.length_replicate, Nat.zero_add]
  exact Nat.mul_comm _ _

theorem pad_flags {v w : Fpn} {N : Nat} (h : pad v N = .ok w) :
    w.overflow = v.overflow ∧ w.carryin = v.carryin ∧ w.truncated = v.truncated := by
  obtain ⟨_, rfl⟩ := pad_eq_ok.mp h; exact ⟨rfl, rfl, rfl⟩

theorem trunc_eq_ok {v w : Fpn} {N : Nat} : trunc v N = .ok w ↔ 0 < N ∧ N ≤ v.size ∧ v.size - N ≤ v.decimal ∧
    w = { v with decimal := v.decimal - (v.size - N), bits := v.bits.drop (v.size - N), truncated := truncatedBy v (v.size - N) } := by
  unfold trunc
  split
  · next h => simp; omega
  · split
    · next h => simp; omega
    · split
      · next h => simp; omega
      · simp only [Except.ok.injEq, eq_comm (b := w)]; constructor
        · exact fun e => ⟨by omega, by omega, by omega, e⟩
        · exact fun e => e.2.2.2

theorem trunc_size {v w : Fpn} {N : Nat} (h : trunc v N = .ok w) : w.size = N := by
  obtain ⟨h1, h2, _, rfl⟩ := trunc_eq_ok.mp h
  simp only [size_mk, List.length_drop]
  change v.size - (v.size - N) = N
  omega

theorem trunc_decimal {v w : Fpn} {N : Nat} (h : trunc v N = .ok w) : w.decimal = v.decimal - (v.size - N) := by
  obtain ⟨_, _, _, rfl⟩ := trunc_eq_ok.mp h; rfl

theorem trunc_uint {v w : Fpn} {N : Nat} (h : trunc v N = .ok w) : uint w = uint v / 2 ^ (v.size - N) := by
  obtain ⟨_, _, _, rfl⟩ := trunc_eq_ok.mp h
  exact bitsToNat_drop _ _

theorem trunc_flags {v w : Fpn} {N : Nat} (h : trunc v N = .ok w) :
    w.overflow = v.overflow ∧ w.carryin = v.carryin ∧ w.truncated = truncatedBy v (v.size - N) := by
  obtain ⟨_, _, _, rfl⟩ := trunc_eq_ok.mp h; exact ⟨rfl, rfl, rfl⟩

theorem leadingZeros_le (b : List Bool) : leadingZeros b ≤ b.length := by
  unfold leadingZeros
  calc (b.reverse.takeWhile (fun x => !x)).length ≤ b.reverse.length := (List.takeWhile_prefix _).length_le
    _ = b.length := List.length_reverse

/-- The bits that `leadingZeros` counts are 0: the pattern fits in the rest. -/
theorem bitsToNat_lt_of_leadingZeros (b : List Bool) : bitsToNat b < 2 ^ (b.length - leadingZeros b) := by
  have key : ∀ r : List Bool, bitsToNat r.reverse < 2 ^ (r.length - (r.takeWhile (fun x => !x)).length) := by
    intro r
    induction r with
    | nil => simp
    | cons x xs ih =>
      cases x with
      | true =>
        simp only [List.takeWhile_cons, Bool.not_true, Bool.false_eq_true, if_false, List.length_nil, Nat.sub_zero]
        have := bitsToNat_lt (true :: xs).reverse
        simpa using this
      | false =>
        simp only [List.reverse_cons, bitsToNat_append, List.takeWhile_cons, Bool.not_false, if_true, List.length_cons]
        simpa [bitsToNat_cons] using ih
  have := key b.reverse
  simpa [leadingZeros] using this

/-- `resize` in its two directions (R105), with the count `t` of trimmed leading zeros and the count `e` of cut low
bits. -/
theorem resize_eq_ok {v w : Fpn} {N : Nat} (h : resize v N = .ok w) :
    0 < N ∧ ((v.size ≤ N ∧ w = { v with bits := v.bits ++ List.replicate (N - v.size) (sign v) }) ∨
      ∃ t e, N < v.size ∧ t = min (v.size - N) (trimmable v) ∧ e = v.size - N - t ∧ e ≤ v.decimal ∧
        w = { v with decimal := v.decimal - e, bits := (v.bits.take (v.size - t)).drop e, truncated := truncatedBy v e }) := by
  unfold resize at h
  split at h
  · cases h
  · next h0 =>
    refine ⟨by omega, ?_⟩
    split at h
    · next h1 => simp only [Except.ok.injEq] at h; exact .inl ⟨h1, h.symm⟩
    · next h1 =>
      simp only at h
      split at h
      · cases h
      · next h2 => simp only [Except.ok.injEq] at h; exact .inr ⟨_, _, by omega, rfl, rfl, by omega, h.symm⟩

theorem trimmable_le (v : Fpn) : trimmable v ≤ v.size - v.decimal - 1 := Nat.min_le_right _ _

theorem trimmable_le_leadingZeros (v : Fpn) : trimmable v ≤ leadingZeros v.bits - 1 := Nat.min_le_left _ _

theorem resize_size {v w : Fpn} {N : Nat} (h : resize v N = .ok w) : w.size = N := by
  obtain ⟨h0, ⟨h1, rfl⟩ | ⟨t, e, h1, ht, he, h2, rfl⟩⟩ := resize_eq_ok h
  · simp only [size_mk, List.length_append, List.length_replicate]
    change v.size + (N - v.size) = N
    omega
  · simp only [size_mk, List.length_drop, List.length_take]
    change min (v.size - t) v.size - e = N
    omega

theorem resize_flags {v w : Fpn} {N : Nat} (h : resize v N = .ok w) :
    w.overflow = v.overflow ∧ w.carryin = v.carryin := by
  obtain ⟨h0, ⟨h1, rfl⟩ | ⟨t, e, h1, ht, he, h2, rfl⟩⟩ := resize_eq_ok h <;> exact ⟨rfl, rfl⟩

theorem resize_decimal_le {v w : Fpn} {N : Nat} (h : resize v N = .ok w) (hd : v.decimal ≤ v.size) :
    w.decimal ≤ w.size := by
  rw [resize_size h]
  obtain ⟨h0, ⟨h1, rfl⟩ | ⟨t, e, h1, ht, he, h2, rfl⟩⟩ := resize_eq_ok h
  · simp only; omega
  · have := trimmable_le v
    simp only; omega

/-! ### The multiplier -/

/-- The rows and the values of the reduction tree all have one format. -/
def HasFormat (m D : Nat) (v : Fpn) : Prop := v.size = m ∧ v.decimal = D ∧ v.carryin = v.overflow ∧ v.truncated = false

/-- R167: row `i` is the multiplicand, shifted, if bit `i` of the multiplier is 1. -/
theorem partialRow_uint (l r : Fpn) {n : Nat} (D : Nat) {i : Nat} (hl : l.size = n) (hi : i < n) :
    uint (partialRow l r n D i) = (bitAt r i).toNat * (uint l * 2 ^ i) := by
  have hlt := uint_lt l
  rw [hl] at hlt
  have : (List.range (2 * n - 1)).map (fun j => bitAt r i && (decide (i ≤ j) && decide (j < n + i) && bitAt l (j - i)))
      = natToBits (2 * n - 1) ((bitAt r i).toNat * (uint l * 2 ^ i)) := by
    apply natToBits_of_forall
    intro j _
    cases bitAt r i with
    | false => simp
    | true =>
      simp only [Bool.true_and, Bool.toNat_true, Nat.one_mul, Nat.testBit_mul_two_pow, bitAt_eq_testBit]
      by_cases h1 : i ≤ j
      · by_cases h2 : j < n + i
        · simp [h1, h2]
        · have : uint l < 2 ^ (j - i) := lt_of_lt_of_le hlt (Nat.pow_le_pow_right (by norm_num) (by omega))
          simp [h2, Nat.testBit_lt_two_pow this]
      · simp [h1]
  rw [partialRow, uint_plain, this, bitsToNat_natToBits]
  apply Nat.mod_eq_of_lt
  have hb : (bitAt r i).toNat ≤ 1 := Bool.toNat_le _
  calc (bitAt r i).toNat * (uint l * 2 ^ i) ≤ 1 * (uint l * 2 ^ i) := Nat.mul_le_mul_right _ hb
    _ < 2 ^ n * 2 ^ i := by rw [Nat.one_mul]; exact Nat.mul_lt_mul_of_pos_right hlt (by positivity)
    _ = 2 ^ (n + i) := (pow_add 2 n i).symm
    _ ≤ 2 ^ (2 * n - 1) := Nat.pow_le_pow_right (by norm_num) (by omega)

theorem partialRow_format (l r : Fpn) (n D i : Nat) : HasFormat (2 * n - 1) D (partialRow l r n D i) := by
  refine ⟨by simp [partialRow], rfl, rfl, rfl⟩

/-- Multiplying digit by digit. -/
theorem sum_range_bits (r : Fpn) (c : Nat) : ∀ k,
    ((List.range k).map (fun i => (bitAt r i).toNat * (c * 2 ^ i))).sum = c * (uint r % 2 ^ k) := by
  intro k
  induction k with
  | zero => simp [Nat.mod_one]
  | succ k ih =>
    rw [List.range_succ, List.map_append, List.sum_append, ih]
    simp only [List.map_cons, List.map_nil, List.sum_cons, List.sum_nil, Nat.add_zero]
    have h : uint r % 2 ^ (k + 1) = uint r % 2 ^ k + 2 ^ k * (bitAt r k).toNat := by
      rw [Nat.mod_pow_succ, bitAt_eq_testBit, Nat.toNat_testBit]
    rw [h]
    ring

/-- R167, R172: the rows add up to the product of the two patterns. -/
theorem partialRows_sum {l r : Fpn} {n : Nat} (D : Nat) (hl : l.size = n) (hr : r.size = n) :
    ((partialRows l r n D).map uint).sum = uint l * uint r := by
  have h : (partialRows l r n D).map uint = (List.range n).map (fun i => (bitAt r i).toNat * (uint l * 2 ^ i)) := by
    simp only [partialRows, List.map_map]
    apply List.map_congr_left
    intro i hi
    exact partialRow_uint l r D hl (List.mem_range.mp hi)
  rw [h, sum_range_bits, Nat.mod_eq_of_lt (hr ▸ uint_lt r)]

theorem reduceLevel_length : ∀ vs : List Fpn, (reduceLevel vs).length = (vs.length + 1) / 2
  | [] => rfl
  | [_] => by simp [reduceLevel]
  | a :: b :: rest => by
    simp only [reduceLevel, List.length_cons, reduceLevel_length rest]
    omega

theorem reduceLevel_format {m D : Nat} (hD : D ≤ m) : ∀ {vs : List Fpn}, (∀ v ∈ vs, HasFormat m D v) →
    ∀ v ∈ reduceLevel vs, HasFormat m D v
  | [], h => h
  | [_], h => h
  | a :: b :: rest, h => by
    have ha := h a (by simp)
    have hb := h b (by simp)
    have hadd := add_same_format ha.1 hb.1 ha.2.1 hb.2.1 hD
    intro v hv
    simp only [reduceLevel, List.mem_cons] at hv
    rcases hv with rfl | hv
    · exact ⟨hadd.1, hadd.2.1, hadd.2.2.2.2.1, hadd.2.2.2.2.2⟩
    · exact reduceLevel_format hD (fun w hw => h w (by simp [hw])) v hv

/-- R168: a level keeps the sum modulo `2^m`. -/
theorem reduceLevel_sum {m D : Nat} (hD : D ≤ m) : ∀ {vs : List Fpn}, (∀ v ∈ vs, HasFormat m D v) →
    ((reduceLevel vs).map uint).sum % 2 ^ m = (vs.map uint).sum % 2 ^ m
  | [], _ => rfl
  | [_], _ => rfl
  | a :: b :: rest, h => by
    have ha := h a (by simp)
    have hb := h b (by simp)
    have hadd := add_same_format ha.1 hb.1 ha.2.1 hb.2.1 hD
    have ih := reduceLevel_sum hD (vs := rest) (fun w hw => h w (by simp [hw]))
    simp only [reduceLevel, List.map_cons, List.sum_cons, hadd.2.2.1]
    rw [Nat.mod_add_mod, Nat.add_mod, ih, ← Nat.add_mod, ← Nat.add_assoc]

/-- When the sum of the values fits, a level loses nothing and no add carries. -/
theorem reduceLevel_exact {m D : Nat} (hD : D ≤ m) : ∀ {vs : List Fpn}, (∀ v ∈ vs, HasFormat m D v) →
    (∀ v ∈ vs, v.overflow = false) → (vs.map uint).sum < 2 ^ m →
    ((reduceLevel vs).map uint).sum = (vs.map uint).sum ∧ ∀ v ∈ reduceLevel vs, v.overflow = false
  | [], _, ho, _ => ⟨rfl, ho⟩
  | [_], _, ho, _ => ⟨rfl, ho⟩
  | a :: b :: rest, h, ho, hlt => by
    have ha := h a (by simp)
    have hb := h b (by simp)
    have hadd := add_same_format ha.1 hb.1 ha.2.1 hb.2.1 hD
    simp only [List.map_cons, List.sum_cons] at hlt
    have ih := reduceLevel_exact hD (vs := rest) (fun w hw => h w (by simp [hw])) (fun w hw => ho w (by simp [hw]))
      (by omega)
    refine ⟨?_, ?_⟩
    · simp only [reduceLevel, List.map_cons, List.sum_cons, hadd.2.2.1, ih.1]
      rw [Nat.mod_eq_of_lt (by omega)]
      omega
    · intro v hv
      simp only [reduceLevel, List.mem_cons] at hv
      rcases hv with rfl | hv
      · rw [hadd.2.2.2.1]; simp; omega
      · exact ih.2 v hv

theorem reduceTree_length : ∀ (k : Nat) {vs : List Fpn}, vs.length ≤ k + 1 → 0 < vs.length → (reduceTree k vs).length = 1
  | 0, vs, h, h0 => by simp only [reduceTree]; omega
  | k + 1, vs, h, h0 => by
    simp only [reduceTree]
    split
    · next h1 =>
      have := reduceLevel_length vs
      exact reduceTree_length k (by omega) (by omega)
    · omega

theorem reduceTree_format {m D : Nat} (hD : D ≤ m) : ∀ (k : Nat) {vs : List Fpn}, (∀ v ∈ vs, HasFormat m D v) →
    ∀ v ∈ reduceTree k vs, HasFormat m D v
  | 0, _, h => h
  | k + 1, vs, h => by
    simp only [reduceTree]
    split
    · exact reduceTree_format hD k (reduceLevel_format hD h)
    · exact h

theorem reduceTree_sum {m D : Nat} (hD : D ≤ m) : ∀ (k : Nat) {vs : List Fpn}, (∀ v ∈ vs, HasFormat m D v) →
    ((reduceTree k vs).map uint).sum % 2 ^ m = (vs.map uint).sum % 2 ^ m
  | 0, _, _ => rfl
  | k + 1, vs, h => by
    simp only [reduceTree]
    split
    · rw [reduceTree_sum hD k (reduceLevel_format hD h), reduceLevel_sum hD h]
    · rfl

theorem reduceTree_exact {m D : Nat} (hD : D ≤ m) : ∀ (k : Nat) {vs : List Fpn}, (∀ v ∈ vs, HasFormat m D v) →
    (∀ v ∈ vs, v.overflow = false) → (vs.map uint).sum < 2 ^ m →
    ((reduceTree k vs).map uint).sum = (vs.map uint).sum ∧ ∀ v ∈ reduceTree k vs, v.overflow = false
  | 0, _, _, ho, _ => ⟨rfl, ho⟩
  | k + 1, vs, h, ho, hlt => by
    simp only [reduceTree]
    split
    · have h1 := reduceLevel_exact hD h ho hlt
      have h2 := reduceTree_exact hD k (reduceLevel_format hD h) h1.2 (by rw [h1.1]; exact hlt)
      exact ⟨by rw [h2.1, h1.1], h2.2⟩
    · exact ⟨rfl, ho⟩

/-- What the tree leaves of at least one row. -/
theorem reduceRows_spec {m D : Nat} (hD : D ≤ m) {vs : List Fpn} (h0 : 0 < vs.length) (h : ∀ v ∈ vs, HasFormat m D v) :
    HasFormat m D (reduceRows vs) ∧ uint (reduceRows vs) = (vs.map uint).sum % 2 ^ m ∧
    ((∀ v ∈ vs, v.overflow = false) → (vs.map uint).sum < 2 ^ m → (reduceRows vs).overflow = false) := by
  have hlen := reduceTree_length vs.length (vs := vs) (by omega) h0
  obtain ⟨p, hp⟩ := List.length_eq_one_iff.mp hlen
  have hr : reduceRows vs = p := by simp [reduceRows, hp]
  have hf := reduceTree_format hD vs.length h p (by simp [hp])
  have hs := reduceTree_sum hD vs.length h
  rw [hp] at hs
  simp only [List.map_cons, List.map_nil, List.sum_cons, List.sum_nil, Nat.add_zero] at hs
  rw [hr]
  refine ⟨hf, ?_, ?_⟩
  · rw [← hs, Nat.mod_eq_of_lt (hf.1 ▸ uint_lt p)]
  · intro ho hlt
    exact (reduceTree_exact hD vs.length h ho hlt).2 p (by simp [hp])

/-- `mul` as integer arithmetic (R165 to R172): when it answers, the format, the product modulo `2^(2n−1)`, the flags
and the cost. -/
theorem mul_eq_ok {l r : Fpn} {p : Fpn × Nat} {n : Nat} (hn : n = max l.size r.size) (h1 : 1 ≤ n)
    (h : mul l r = .ok p) :
    l.decimal + (n - l.size) + (r.decimal + (n - r.size)) ≤ 2 * n - 1 ∧
    p.1.size = 2 * n - 1 ∧ p.1.decimal = l.decimal + (n - l.size) + (r.decimal + (n - r.size)) ∧
    uint p.1 = (uint l * 2 ^ (n - l.size)) * (uint r * 2 ^ (n - r.size)) % 2 ^ (2 * n - 1) ∧
    p.1.carryin = p.1.overflow ∧ p.1.truncated = false ∧ p.2 = mulCost n ∧
    ((uint l * 2 ^ (n - l.size)) * (uint r * 2 ^ (n - r.size)) < 2 ^ (2 * n - 1) → p.1.overflow = false) := by
  subst hn
  simp only [mul, except_bind_eq_ok] at h
  obtain ⟨l', hl, r', hr, h⟩ := h
  split at h
  · cases h
  · next hD =>
    simp only [Except.ok.injEq] at h
    subst h
    have hls := pad_size hl
    have hrs := pad_size hr
    have hD' : l'.decimal + r'.decimal ≤ 2 * max l.size r.size - 1 := by omega
    have hlen : 0 < (partialRows l' r' (max l.size r.size) (l'.decimal + r'.decimal)).length := by
      simp only [partialRows, List.length_map, List.length_range]; omega
    have hfmt : ∀ v ∈ partialRows l' r' (max l.size r.size) (l'.decimal + r'.decimal),
        HasFormat (2 * max l.size r.size - 1) (l'.decimal + r'.decimal) v := by
      intro v hv
      simp only [partialRows, List.mem_map] at hv
      obtain ⟨i, _, rfl⟩ := hv
      exact partialRow_format ..
    have hov : ∀ v ∈ partialRows l' r' (max l.size r.size) (l'.decimal + r'.decimal), v.overflow = false := by
      intro v hv
      simp only [partialRows, List.mem_map] at hv
      obtain ⟨i, _, rfl⟩ := hv
      rfl
    have hspec := reduceRows_spec hD' hlen hfmt
    rw [partialRows_sum _ hls hrs] at hspec
    rw [pad_decimal hl, pad_decimal hr] at hspec hD'
    rw [pad_uint hl, pad_uint hr] at hspec
    refine ⟨hD', ?_, ?_, ?_, ?_, ?_, rfl, ?_⟩
    · simp only [pad_decimal hl, pad_decimal hr]; exact hspec.1.1
    · simp only [pad_decimal hl, pad_decimal hr]; exact hspec.1.2.1
    · simp only [pad_decimal hl, pad_decimal hr]; exact hspec.2.1
    · simp only [pad_decimal hl, pad_decimal hr]; exact hspec.1.2.2.1
    · simp only [pad_decimal hl, pad_decimal hr]; exact hspec.1.2.2.2
    · intro hlt
      rw [pad_decimal hl, pad_decimal hr] at hov
      simp only [pad_decimal hl, pad_decimal hr]; exact hspec.2.2 hov hlt

theorem mul_eq_error {l r : Fpn} {k : FaultKind} {n : Nat} (hn : n = max l.size r.size) (h : mul l r = .error k) :
    k = .widthMismatch ∧ l.decimal + (n - l.size) + (r.decimal + (n - r.size)) > 2 * n - 1 := by
  subst hn
  have hl : pad l (max l.size r.size) = .ok _ := pad_eq_ok.mpr ⟨by omega, rfl⟩
  have hr : pad r (max l.size r.size) = .ok _ := pad_eq_ok.mpr ⟨by omega, rfl⟩
  simp only [mul, hl, hr, except_ok_bind] at h
  split at h
  · next hD => simp only [Except.error.injEq] at h; exact ⟨h.symm, by omega⟩
  · cases h

/-- When `mul` answers at all (R166). -/
theorem mul_ok_of_fits {l r : Fpn} {n : Nat} (hn : n = max l.size r.size)
    (hD : l.decimal + (n - l.size) + (r.decimal + (n - r.size)) ≤ 2 * n - 1) : ∃ p, mul l r = .ok p := by
  cases h : mul l r with
  | ok p => exact ⟨p, rfl⟩
  | error k => exact absurd (mul_eq_error hn h).2 (by omega)

end Sys2Proof.Machine
end

