-- ==== Sys2Proof/Laws/Encoding.lean ====
section
/-! SUPPORT. Laws of the encoding: a word is its fields, masks act field by field, and the fields of a packed word. -/

namespace Sys2Proof

/-- The fields of a word as numbers. -/
theorem fields_toNat (w : Word) :
    (fields w).op.toNat = w.toNat / 2 ^ 56 % 2 ^ 8 ∧ (fields w).rd.toNat = w.toNat / 2 ^ 52 % 2 ^ 4 ∧
    (fields w).rs1.toNat = w.toNat / 2 ^ 48 % 2 ^ 4 ∧ (fields w).rs2.toNat = w.toNat / 2 ^ 44 % 2 ^ 4 ∧
    (fields w).zero.toNat = w.toNat / 2 ^ 32 % 2 ^ 12 ∧ (fields w).immA.toNat = w.toNat / 2 ^ 16 % 2 ^ 16 ∧
    (fields w).immB.toNat = w.toNat % 2 ^ 16 := by
  simp only [fields, BitVec.extractLsb'_toNat, Nat.shiftRight_eq_div_pow, Nat.pow_zero, Nat.div_one, and_self]

/-- A word is the sum of its fields at their places (R66). -/
theorem word_toNat (w : Word) :
    w.toNat = (fields w).op.toNat * 2 ^ 56 + (fields w).rd.toNat * 2 ^ 52 + (fields w).rs1.toNat * 2 ^ 48 +
      (fields w).rs2.toNat * 2 ^ 44 + (fields w).zero.toNat * 2 ^ 32 + (fields w).immA.toNat * 2 ^ 16 +
      (fields w).immB.toNat := by
  obtain ⟨h1, h2, h3, h4, h5, h6, h7⟩ := fields_toNat w
  have hw := w.isLt
  omega

/-- Two words with the same fields are one word. -/
theorem word_ext {w w' : Word} (h : fields w = fields w') : w = w' := by
  apply BitVec.eq_of_toNat_eq
  rw [word_toNat w, word_toNat w', h]

/-- The number of a packed word. -/
theorem pack_toNat {op rd rs1 rs2 immA immB : Nat} (h1 : op < 2 ^ 8) (h2 : rd < 2 ^ 4) (h3 : rs1 < 2 ^ 4)
    (h4 : rs2 < 2 ^ 4) (h5 : immA < 2 ^ 16) (h6 : immB < 2 ^ 16) :
    (pack op rd rs1 rs2 immA immB).toNat =
      op * 2 ^ 56 + rd * 2 ^ 52 + rs1 * 2 ^ 48 + rs2 * 2 ^ 44 + immA * 2 ^ 16 + immB := by
  simp only [pack, BitVec.toNat_ofNat]
  omega

/-- Packing then reading the fields. -/
theorem fields_pack {op rd rs1 rs2 immA immB : Nat} (h1 : op < 2 ^ 8) (h2 : rd < 2 ^ 4) (h3 : rs1 < 2 ^ 4)
    (h4 : rs2 < 2 ^ 4) (h5 : immA < 2 ^ 16) (h6 : immB < 2 ^ 16) :
    fields (pack op rd rs1 rs2 immA immB) =
      ⟨BitVec.ofNat 8 op, BitVec.ofNat 4 rd, BitVec.ofNat 4 rs1, BitVec.ofNat 4 rs2, 0#12, BitVec.ofNat 16 immA,
        BitVec.ofNat 16 immB⟩ := by
  have e := pack_toNat h1 h2 h3 h4 h5 h6
  obtain ⟨a1, a2, a3, a4, a5, a6, a7⟩ := fields_toNat (pack op rd rs1 rs2 immA immB)
  rw [e] at a1 a2 a3 a4 a5 a6 a7
  generalize fields (pack op rd rs1 rs2 immA immB) = f at a1 a2 a3 a4 a5 a6 a7
  obtain ⟨f1, f2, f3, f4, f5, f6, f7⟩ := f
  simp only at a1 a2 a3 a4 a5 a6 a7
  clear e
  have b1 : f1 = BitVec.ofNat 8 op := by
    clear a2 a3 a4 a5 a6 a7; apply BitVec.eq_of_toNat_eq; rw [a1, BitVec.toNat_ofNat]; clear a1; omega
  have b2 : f2 = BitVec.ofNat 4 rd := by
    clear a1 a3 a4 a5 a6 a7; apply BitVec.eq_of_toNat_eq; rw [a2, BitVec.toNat_ofNat]; clear a2; omega
  have b3 : f3 = BitVec.ofNat 4 rs1 := by
    clear a1 a2 a4 a5 a6 a7; apply BitVec.eq_of_toNat_eq; rw [a3, BitVec.toNat_ofNat]; clear a3; omega
  have b4 : f4 = BitVec.ofNat 4 rs2 := by
    clear a1 a2 a3 a5 a6 a7; apply BitVec.eq_of_toNat_eq; rw [a4, BitVec.toNat_ofNat]; clear a4; omega
  have b5 : f5 = 0#12 := by
    clear a1 a2 a3 a4 a6 a7; apply BitVec.eq_of_toNat_eq; rw [a5, BitVec.toNat_ofNat]; clear a5; omega
  have b6 : f6 = BitVec.ofNat 16 immA := by
    clear a1 a2 a3 a4 a5 a7; apply BitVec.eq_of_toNat_eq; rw [a6, BitVec.toNat_ofNat]; clear a6; omega
  have b7 : f7 = BitVec.ofNat 16 immB := by
    clear a1 a2 a3 a4 a5 a6; apply BitVec.eq_of_toNat_eq; rw [a7, BitVec.toNat_ofNat]; clear a7; omega
  rw [b1, b2, b3, b4, b5, b6, b7]

/-- A mask acts on each field by itself. -/
theorem fields_and (w m : Word) :
    fields (w &&& m) = ⟨(fields w).op &&& (fields m).op, (fields w).rd &&& (fields m).rd,
      (fields w).rs1 &&& (fields m).rs1, (fields w).rs2 &&& (fields m).rs2, (fields w).zero &&& (fields m).zero,
      (fields w).immA &&& (fields m).immA, (fields w).immB &&& (fields m).immB⟩ := by
  simp only [fields, BitVec.extractLsb'_and]

/-- A row accepts a word when the word's fields, masked, are the row's. -/
theorem accepts_iff (r : OpRow) (w : Word) : r.accepts w = true ↔ fields (w &&& r.mask) = fields r.bits := by
  simp only [OpRow.accepts, beq_iff_eq]
  exact ⟨fun h => congrArg fields h, word_ext⟩

theorem packFa_lt (a b c : Bool) : packFa a b c < 2 ^ 16 := by cases a <;> cases b <;> cases c <;> decide

theorem regOf_ofNat (r : Reg) : regOf (BitVec.ofNat 4 r) = r := by
  apply Fin.ext
  have := r.isLt
  simp only [regOf, BitVec.toFin_ofNat, Fin.val_ofNat]
  omega

theorem ofNat_regOf (x : BitVec 4) : BitVec.ofNat 4 (regOf x).val = x := by
  apply BitVec.eq_of_toNat_eq
  have := x.isLt
  simp only [BitVec.toNat_ofNat, regOf, BitVec.val_toFin]
  omega

end Sys2Proof
end

