-- ==== Sys2Proof/Laws/Exec.lean ====
section
/-! SUPPORT. Laws of exec: what the next state of a command can be, for every command at once. -/

namespace Sys2Proof.Machine

/-- What a command can do: its fault, or the writes of one of seven shapes. -/
theorem exec_cases (i : Instr) (s t : State) (h : exec i s = .next t) :
    (∃ k, t = takeFault k (encode i) s) ∨
    (∃ r x c, destination i = some r ∧ writesCost i = true ∧ isDivision i = false ∧ i ≠ .clrcost ∧
      t = (s.setReg r x).addCost c) ∨
    (∃ r x c st k, destination i = some r ∧ writesCost i = true ∧ isDivision i = true ∧
      t = ((s.setReg r x).addCost c).setDiv st k) ∨
    (∃ r x, destination i = some r ∧ t = s.setReg r x) ∨
    (∃ n, writesQ i = true ∧ t = s.setQ n) ∨
    (∃ p, i.mnemonic = "TOREAL" ∧ t = s.setRR p) ∨
    (∃ r a x u, i = .ststr r a ∧ s.v.get r = some x ∧ s.memWrite a.toNat (display x) = .ok u ∧
      t = u.setQ (x.size + 1)) ∨
    (i = .clrcost ∧ t = { s with cost := 0 }) := by
  cases i
  all_goals
    simp only [exec, execNew, execSetint, execLdstr, execAsgstr, execMov, execCompl, execShl, execShr, execSetdig,
      execSetdec, execResize, execPad, execTrunc, execSize, execDecidx, execOvf, execCin, execTruncf, execToreal,
      execStstr, execEq, execFa, execAdd, execSub, execMul, execMdiv, execRdiv, execClrcost] at h
    rcases complete_next h with h | ⟨k, h, h'⟩
    case inr => exact .inl ⟨k, h'⟩
    try simp only [convert, query, arith, divide] at h
    try simp only [except_bind_eq_ok, Except.ok.injEq] at h
    right
  case add => obtain ⟨a, _, b, _, p, _, e⟩ := h; exact .inl ⟨_, _, _, rfl, rfl, rfl, by simp, e.symm⟩
  case sub => obtain ⟨a, _, b, _, p, _, e⟩ := h; exact .inl ⟨_, _, _, rfl, rfl, rfl, by simp, e.symm⟩
  case mul => obtain ⟨a, _, b, _, p, _, e⟩ := h; exact .inl ⟨_, _, _, rfl, rfl, rfl, by simp, e.symm⟩
  case compl => obtain ⟨a, _, e⟩ := h; exact .inl ⟨_, _, _, rfl, rfl, rfl, by simp, e.symm⟩
  case mdiv => obtain ⟨a, _, b, _, p, _, e⟩ := h; exact .inr (.inl ⟨_, _, _, _, _, rfl, rfl, rfl, e.symm⟩)
  case rdiv => obtain ⟨a, _, b, _, p, _, e⟩ := h; exact .inr (.inl ⟨_, _, _, _, _, rfl, rfl, rfl, e.symm⟩)
  case ststr => 
    obtain ⟨x, hx, u, hu, e⟩ := h
    refine .inr (.inr (.inr (.inr (.inr (.inl ⟨_, _, x, u, rfl, ?_, hu, e.symm⟩)))))
    unfold State.readReg at hx; split at hx <;> simp_all
  case clrcost => exact .inr (.inr (.inr (.inr (.inr (.inr ⟨rfl, h.symm⟩)))))
  case toreal => obtain ⟨x, hx, e⟩ := h; exact .inr (.inr (.inr (.inr (.inl ⟨_, rfl, e.symm⟩))))
  case fa => exact .inr (.inr (.inr (.inl ⟨_, rfl, h.symm⟩)))
  case size => obtain ⟨x, hx, e⟩ := h; exact .inr (.inr (.inr (.inl ⟨_, rfl, e.symm⟩)))
  case decidx => obtain ⟨x, hx, e⟩ := h; exact .inr (.inr (.inr (.inl ⟨_, rfl, e.symm⟩)))
  case ovf => obtain ⟨x, hx, e⟩ := h; exact .inr (.inr (.inr (.inl ⟨_, rfl, e.symm⟩)))
  case cin => obtain ⟨x, hx, e⟩ := h; exact .inr (.inr (.inr (.inl ⟨_, rfl, e.symm⟩)))
  case truncf => obtain ⟨x, hx, e⟩ := h; exact .inr (.inr (.inr (.inl ⟨_, rfl, e.symm⟩)))
  case eq => obtain ⟨x, hx, y, hy, e⟩ := h; exact .inr (.inr (.inr (.inl ⟨_, rfl, e.symm⟩)))
  case new => obtain ⟨x, hx, e⟩ := h; exact .inr (.inr (.inl ⟨_, _, rfl, e.symm⟩))
  case ldstr => obtain ⟨x, hx, y, hy, e⟩ := h; exact .inr (.inr (.inl ⟨_, _, rfl, e.symm⟩))
  case asgstr => obtain ⟨x, hx, y, hy, z, hz, w, hw, e⟩ := h; exact .inr (.inr (.inl ⟨_, _, rfl, e.symm⟩))
  all_goals obtain ⟨x, hx, y, hy, e⟩ := h; exact .inr (.inr (.inl ⟨_, _, rfl, e.symm⟩))

end Sys2Proof.Machine
end

