-- ==== Sys2Proof/Laws/PerInstr.lean ====
section
/-! SUPPORT. The per-instruction family MatchesRow: the word of a command matches the row of R70 that has the
command's mnemonic. -/

namespace Sys2Proof.Laws.MatchesRow

/-- The word of `i` is accepted by a row of the table of R70 with the mnemonic of `i`. -/
def Statement (i : Instr) : Prop := ∃ r ∈ opcodeTable, r.mnemonic = i.mnemonic ∧ r.accepts (encode i) = true

/-- The row of an opcode, given by its place in the table, accepts a packed word whose fields match under its mask. -/
theorem of_pack {i : Instr} {r : OpRow} {op rd rs1 rs2 immA immB : Nat} (hr : r ∈ opcodeTable)
    (hm : r.mnemonic = i.mnemonic) (he : encode i = pack op rd rs1 rs2 immA immB) (h1 : op < 2 ^ 8) (h2 : rd < 2 ^ 4)
    (h3 : rs1 < 2 ^ 4) (h4 : rs2 < 2 ^ 4) (h5 : immA < 2 ^ 16) (h6 : immB < 2 ^ 16)
    (hf : BitVec.ofNat 8 op &&& (fields r.mask).op = (fields r.bits).op ∧
      BitVec.ofNat 4 rd &&& (fields r.mask).rd = (fields r.bits).rd ∧
      BitVec.ofNat 4 rs1 &&& (fields r.mask).rs1 = (fields r.bits).rs1 ∧
      BitVec.ofNat 4 rs2 &&& (fields r.mask).rs2 = (fields r.bits).rs2 ∧
      0#12 &&& (fields r.mask).zero = (fields r.bits).zero ∧
      BitVec.ofNat 16 immA &&& (fields r.mask).immA = (fields r.bits).immA ∧
      BitVec.ofNat 16 immB &&& (fields r.mask).immB = (fields r.bits).immB) : Statement i := by
  refine ⟨r, hr, hm, ?_⟩
  obtain ⟨f1, f2, f3, f4, f5, f6, f7⟩ := hf
  rw [accepts_iff, fields_and, he, fields_pack h1 h2 h3 h4 h5 h6]
  simp only [f1, f2, f3, f4, f5, f6, f7]

/-- A field the format uses is masked out. -/
theorem masked_out {n x : Nat} {m b : BitVec n} (hm : m = 0#n) (hb : b = 0#n) : BitVec.ofNat n x &&& m = b := by
  subst hm hb; simp

theorem new (rd : Reg) (size : BitVec 16) (dec : BitVec 16) : Statement (.new rd size dec) :=
  of_pack (r := opcodeTable[0]) (List.getElem_mem _) rfl rfl (by decide) rd.isLt (by decide) (by decide) size.isLt dec.isLt
    ⟨by decide, masked_out (by decide) (by decide), by decide, by decide, by decide, masked_out (by decide) (by decide), masked_out (by decide) (by decide)⟩

theorem setint (rd : Reg) (imm : BitVec 32) : Statement (.setint rd imm) :=
  of_pack (r := opcodeTable[1]) (List.getElem_mem _) rfl rfl (by decide) rd.isLt (by decide) (by decide) (by have := imm.isLt; omega) (by have := imm.isLt; omega)
    ⟨by decide, masked_out (by decide) (by decide), by decide, by decide, by decide, masked_out (by decide) (by decide), masked_out (by decide) (by decide)⟩

theorem ldstr (rd : Reg) (addr : BitVec 16) (len : BitVec 16) : Statement (.ldstr rd addr len) :=
  of_pack (r := opcodeTable[2]) (List.getElem_mem _) rfl rfl (by decide) rd.isLt (by decide) (by decide) addr.isLt len.isLt
    ⟨by decide, masked_out (by decide) (by decide), by decide, by decide, by decide, masked_out (by decide) (by decide), masked_out (by decide) (by decide)⟩

theorem asgstr (rd : Reg) (addr : BitVec 16) (len : BitVec 16) : Statement (.asgstr rd addr len) :=
  of_pack (r := opcodeTable[3]) (List.getElem_mem _) rfl rfl (by decide) rd.isLt (by decide) (by decide) addr.isLt len.isLt
    ⟨by decide, masked_out (by decide) (by decide), by decide, by decide, by decide, masked_out (by decide) (by decide), masked_out (by decide) (by decide)⟩

theorem mov (rd : Reg) (rs1 : Reg) : Statement (.mov rd rs1) :=
  of_pack (r := opcodeTable[4]) (List.getElem_mem _) rfl rfl (by decide) rd.isLt rs1.isLt (by decide) (by decide) (by decide)
    ⟨by decide, masked_out (by decide) (by decide), masked_out (by decide) (by decide), by decide, by decide, by decide, by decide⟩

theorem compl (rd : Reg) : Statement (.compl rd) :=
  of_pack (r := opcodeTable[5]) (List.getElem_mem _) rfl rfl (by decide) rd.isLt (by decide) (by decide) (by decide) (by decide)
    ⟨by decide, masked_out (by decide) (by decide), by decide, by decide, by decide, by decide, by decide⟩

theorem shl (rd : Reg) (n : BitVec 16) : Statement (.shl rd n) :=
  of_pack (r := opcodeTable[6]) (List.getElem_mem _) rfl rfl (by decide) rd.isLt (by decide) (by decide) (by decide) n.isLt
    ⟨by decide, masked_out (by decide) (by decide), by decide, by decide, by decide, by decide, masked_out (by decide) (by decide)⟩

theorem shr (rd : Reg) (n : BitVec 16) : Statement (.shr rd n) :=
  of_pack (r := opcodeTable[7]) (List.getElem_mem _) rfl rfl (by decide) rd.isLt (by decide) (by decide) (by decide) n.isLt
    ⟨by decide, masked_out (by decide) (by decide), by decide, by decide, by decide, by decide, masked_out (by decide) (by decide)⟩

theorem setdig (rd : Reg) (index : BitVec 16) (bit : BitVec 16) : Statement (.setdig rd index bit) :=
  of_pack (r := opcodeTable[8]) (List.getElem_mem _) rfl rfl (by decide) rd.isLt (by decide) (by decide) index.isLt bit.isLt
    ⟨by decide, masked_out (by decide) (by decide), by decide, by decide, by decide, masked_out (by decide) (by decide), masked_out (by decide) (by decide)⟩

theorem setdec (rd : Reg) (dec : BitVec 16) : Statement (.setdec rd dec) :=
  of_pack (r := opcodeTable[9]) (List.getElem_mem _) rfl rfl (by decide) rd.isLt (by decide) (by decide) (by decide) dec.isLt
    ⟨by decide, masked_out (by decide) (by decide), by decide, by decide, by decide, by decide, masked_out (by decide) (by decide)⟩

theorem resize (rd : Reg) (rs1 : Reg) (n : BitVec 16) : Statement (.resize rd rs1 n) :=
  of_pack (r := opcodeTable[10]) (List.getElem_mem _) rfl rfl (by decide) rd.isLt rs1.isLt (by decide) (by decide) n.isLt
    ⟨by decide, masked_out (by decide) (by decide), masked_out (by decide) (by decide), by decide, by decide, by decide, masked_out (by decide) (by decide)⟩

theorem pad (rd : Reg) (rs1 : Reg) (n : BitVec 16) : Statement (.pad rd rs1 n) :=
  of_pack (r := opcodeTable[11]) (List.getElem_mem _) rfl rfl (by decide) rd.isLt rs1.isLt (by decide) (by decide) n.isLt
    ⟨by decide, masked_out (by decide) (by decide), masked_out (by decide) (by decide), by decide, by decide, by decide, masked_out (by decide) (by decide)⟩

theorem trunc (rd : Reg) (rs1 : Reg) (n : BitVec 16) : Statement (.trunc rd rs1 n) :=
  of_pack (r := opcodeTable[12]) (List.getElem_mem _) rfl rfl (by decide) rd.isLt rs1.isLt (by decide) (by decide) n.isLt
    ⟨by decide, masked_out (by decide) (by decide), masked_out (by decide) (by decide), by decide, by decide, by decide, masked_out (by decide) (by decide)⟩

theorem size (rs1 : Reg) : Statement (.size rs1) :=
  of_pack (r := opcodeTable[13]) (List.getElem_mem _) rfl rfl (by decide) (by decide) rs1.isLt (by decide) (by decide) (by decide)
    ⟨by decide, by decide, masked_out (by decide) (by decide), by decide, by decide, by decide, by decide⟩

theorem decidx (rs1 : Reg) : Statement (.decidx rs1) :=
  of_pack (r := opcodeTable[14]) (List.getElem_mem _) rfl rfl (by decide) (by decide) rs1.isLt (by decide) (by decide) (by decide)
    ⟨by decide, by decide, masked_out (by decide) (by decide), by decide, by decide, by decide, by decide⟩

theorem ovf (rs1 : Reg) : Statement (.ovf rs1) :=
  of_pack (r := opcodeTable[15]) (List.getElem_mem _) rfl rfl (by decide) (by decide) rs1.isLt (by decide) (by decide) (by decide)
    ⟨by decide, by decide, masked_out (by decide) (by decide), by decide, by decide, by decide, by decide⟩

theorem cin (rs1 : Reg) : Statement (.cin rs1) :=
  of_pack (r := opcodeTable[16]) (List.getElem_mem _) rfl rfl (by decide) (by decide) rs1.isLt (by decide) (by decide) (by decide)
    ⟨by decide, by decide, masked_out (by decide) (by decide), by decide, by decide, by decide, by decide⟩

theorem truncf (rs1 : Reg) : Statement (.truncf rs1) :=
  of_pack (r := opcodeTable[17]) (List.getElem_mem _) rfl rfl (by decide) (by decide) rs1.isLt (by decide) (by decide) (by decide)
    ⟨by decide, by decide, masked_out (by decide) (by decide), by decide, by decide, by decide, by decide⟩

theorem toreal (rs1 : Reg) : Statement (.toreal rs1) :=
  of_pack (r := opcodeTable[18]) (List.getElem_mem _) rfl rfl (by decide) (by decide) rs1.isLt (by decide) (by decide) (by decide)
    ⟨by decide, by decide, masked_out (by decide) (by decide), by decide, by decide, by decide, by decide⟩

theorem ststr (rs1 : Reg) (addr : BitVec 16) : Statement (.ststr rs1 addr) :=
  of_pack (r := opcodeTable[19]) (List.getElem_mem _) rfl rfl (by decide) (by decide) rs1.isLt (by decide) addr.isLt (by decide)
    ⟨by decide, by decide, masked_out (by decide) (by decide), by decide, by decide, masked_out (by decide) (by decide), by decide⟩

theorem eq (rs1 : Reg) (rs2 : Reg) : Statement (.eq rs1 rs2) :=
  of_pack (r := opcodeTable[20]) (List.getElem_mem _) rfl rfl (by decide) (by decide) rs1.isLt rs2.isLt (by decide) (by decide)
    ⟨by decide, by decide, masked_out (by decide) (by decide), masked_out (by decide) (by decide), by decide, by decide, by decide⟩

theorem fa (a : Bool) (b : Bool) (c : Bool) : Statement (.fa a b c) := by
  refine ⟨opcodeTable[21], List.getElem_mem _, rfl, ?_⟩
  cases a <;> cases b <;> cases c <;> decide

theorem add (rd : Reg) (rs1 : Reg) (rs2 : Reg) : Statement (.add rd rs1 rs2) :=
  of_pack (r := opcodeTable[22]) (List.getElem_mem _) rfl rfl (by decide) rd.isLt rs1.isLt rs2.isLt (by decide) (by decide)
    ⟨by decide, masked_out (by decide) (by decide), masked_out (by decide) (by decide), masked_out (by decide) (by decide), by decide, by decide, by decide⟩

theorem sub (rd : Reg) (rs1 : Reg) (rs2 : Reg) : Statement (.sub rd rs1 rs2) :=
  of_pack (r := opcodeTable[23]) (List.getElem_mem _) rfl rfl (by decide) rd.isLt rs1.isLt rs2.isLt (by decide) (by decide)
    ⟨by decide, masked_out (by decide) (by decide), masked_out (by decide) (by decide), masked_out (by decide) (by decide), by decide, by decide, by decide⟩

theorem mul (rd : Reg) (rs1 : Reg) (rs2 : Reg) : Statement (.mul rd rs1 rs2) :=
  of_pack (r := opcodeTable[24]) (List.getElem_mem _) rfl rfl (by decide) rd.isLt rs1.isLt rs2.isLt (by decide) (by decide)
    ⟨by decide, masked_out (by decide) (by decide), masked_out (by decide) (by decide), masked_out (by decide) (by decide), by decide, by decide, by decide⟩

theorem mdiv (rd : Reg) (rs1 : Reg) (rs2 : Reg) : Statement (.mdiv rd rs1 rs2) :=
  of_pack (r := opcodeTable[25]) (List.getElem_mem _) rfl rfl (by decide) rd.isLt rs1.isLt rs2.isLt (by decide) (by decide)
    ⟨by decide, masked_out (by decide) (by decide), masked_out (by decide) (by decide), masked_out (by decide) (by decide), by decide, by decide, by decide⟩

theorem rdiv (rd : Reg) (rs1 : Reg) (rs2 : Reg) : Statement (.rdiv rd rs1 rs2) :=
  of_pack (r := opcodeTable[26]) (List.getElem_mem _) rfl rfl (by decide) rd.isLt rs1.isLt rs2.isLt (by decide) (by decide)
    ⟨by decide, masked_out (by decide) (by decide), masked_out (by decide) (by decide), masked_out (by decide) (by decide), by decide, by decide, by decide⟩

theorem clrcost : Statement .clrcost :=
  of_pack (r := opcodeTable[27]) (List.getElem_mem _) rfl rfl (by decide) (by decide) (by decide) (by decide) (by decide) (by decide)
    ⟨by decide, by decide, by decide, by decide, by decide, by decide, by decide⟩

end Sys2Proof.Laws.MatchesRow
end

