-- ==== Sys2Proof/Laws/Texts.lean ====
section
/-! SUPPORT. Laws of texts: reading a text from `BUF`, what `parse` answers, the display text; and of sign extension
as a real value. -/

namespace Sys2Proof.Machine

/-- A text that stands in `BUF` is what `MemRead` answers. -/
theorem State.memRead_of_bufHolds {s : State} {addr n : Nat} {t : List Byte} (hn : t.length = n)
    (hr : addr + n ≤ 65536) (hb : bufHolds s addr t) : s.memRead addr n = .ok t := by
  rw [State.memRead_eq_ok]
  refine ⟨hr, List.ext_getElem (by simp [hn]) ?_⟩
  intro k h1 h2
  simpa using (hb k h1).symm

theorem digitByte_ne_point (b : Bool) : digitByte b ≠ chPoint := by cases b <;> decide

theorem digitByte_eq_one (b : Bool) : (digitByte b == chOne) = b := by cases b <;> decide

theorem digits_any_foreign (l : List Bool) :
    (l.map digitByte).any (fun c => c != chZero && c != chOne && c != chPoint) = false := by
  simp only [List.any_eq_false, List.mem_map]
  rintro c ⟨b, _, rfl⟩
  cases b <;> decide

theorem digits_count_point (l : List Bool) : (l.map digitByte).count chPoint = 0 := by
  simp only [List.count_eq_zero, List.mem_map]
  rintro ⟨b, _, hb⟩
  exact digitByte_ne_point b hb

theorem digits_filter (l : List Bool) : (l.map digitByte).filter (fun c => c != chPoint) = l.map digitByte := by
  simp only [List.filter_eq_self, List.mem_map]
  rintro c ⟨b, _, rfl⟩
  simp [digitByte_ne_point]

theorem digits_read_back (l : List Bool) : (l.map digitByte).reverse.map (fun c => c == chOne) = l.reverse := by
  rw [← List.map_reverse, List.map_map]
  conv_rhs => rw [← List.map_id l.reverse]
  exact List.map_congr_left (fun b _ => digitByte_eq_one b)

/-- R90 on a text of digits, with or without a point. -/
theorem parse_digitText (l1 : List Bool) (l2 : Option (List Bool)) (h : l1 ++ l2.getD [] ≠ []) :
    parse (digitText l1 l2) = .ok ((l2.getD []).length, (l1 ++ l2.getD []).reverse) := by
  cases l2 with
  | none =>
    have hc : (l1.map digitByte).contains chPoint = false := by
      have := digits_count_point l1
      rw [List.count_eq_zero] at this
      simpa using this
    have hl : ¬ (l1.map digitByte).length = 0 := by simpa using h
    unfold parse digitText
    simp only [digits_any_foreign, digits_count_point, digits_filter, digits_read_back, hc, if_neg hl]
    simp
  | some l =>
    have hdrop : (l1.map digitByte ++ chPoint :: l.map digitByte).dropWhile (fun c => c != chPoint) =
        chPoint :: l.map digitByte := by
      rw [List.dropWhile_append_of_pos]
      · simp
      · simp only [List.mem_map]
        rintro c ⟨b, _, rfl⟩
        simp [digitByte_ne_point]
    have hc : (l1.map digitByte ++ chPoint :: l.map digitByte).contains chPoint = true := by simp
    have hf : (chPoint :: l.map digitByte).filter (fun c => c != chPoint) = l.map digitByte := by
      simp [digits_filter]
    have hl : ¬ (l1.map digitByte ++ l.map digitByte).length = 0 := by simpa using h
    unfold parse digitText
    simp only [List.any_append, List.any_cons, digits_any_foreign, List.count_append, List.count_cons_self,
      digits_count_point, List.filter_append, hc, hdrop, hf, digits_filter, if_neg hl]
    rw [if_neg (by simp), if_neg (by simp), ← List.map_append, digits_read_back]
    simp

/-- R91: the display text is one byte longer than the value. -/
@[simp] theorem display_length (v : Fpn) : (display v).length = v.size + 1 := by
  simp [display, Fpn.size]
  omega

/-- R91: the display text is the digits of the integer part, the point, the digits of the fraction. -/
theorem display_eq_digitText (v : Fpn) :
    display v = digitText (v.bits.reverse.take (v.size - v.decimal)) (some (v.bits.reverse.drop (v.size - v.decimal))) := by
  simp [display, digitText, List.map_take, List.map_drop]

/-- R116, R120 (e): sign extension at the top keeps the real value. -/
theorem toReal_signExtend (d : Nat) (b : List Bool) (k : Nat) (o c t o' c' t' : Bool) :
    toReal ⟨d, b ++ List.replicate k (b.getD (b.length - 1) false), o, c, t⟩ = toReal ⟨d, b, o', c', t'⟩ := by
  rcases Nat.eq_zero_or_pos k with rfl | hk
  · simp [toReal, sint, sign, bitAt, uint]
  have e : (b ++ List.replicate k (b.getD (b.length - 1) false)).getD (b.length + k - 1) false =
      b.getD (b.length - 1) false := by
    rw [List.getD_append_right _ _ _ _ (by omega)]
    generalize b.getD (b.length - 1) false = x
    rw [List.getD_eq_getElem?_getD, List.getElem?_replicate, if_pos (by omega)]
    rfl
  simp only [toReal, sint, sign, uint, bitAt, size_mk, List.length_append, List.length_replicate, e]
  congr 2
  rw [bitsToNat_append]
  cases b.getD (b.length - 1) false
  · simp
  · rw [bitsToNat_replicate_true]
    have h1 : 1 ≤ 2 ^ k := Nat.one_le_two_pow
    push_cast [h1]
    rw [pow_add]
    simp
    ring

end Sys2Proof.Machine
end

