-- ==== Sys2Proof/Tests/Slice0.lean ====
section
/-! SUPPORT. Tests: words decoded as the spec writes them, ill-formed words and values refused, one or two vectors of
`spec/95_test_vectors.md` per command, and for every statement with hypotheses a concrete state that meets them. -/

namespace Sys2Proof.Tests

open Sys2Proof Sys2Proof.Machine

/-! ### Helpers -/

/-- The value of `size` bits, decimal index `dec` and pattern `n`, flags 0. -/
def fx (size dec n : Nat) : Fpn := { decimal := dec, bits := natToBits size n }

/-- `v0 = x`, `v1 = y`, the rest as after reset. -/
def st (x y : Fpn) : State := (State.reset.setReg 0 x).setReg 1 y

/-- The state after an outcome; the reset state when there is none. -/
def after (o : Host.Outcome State Fault Refusal) : State :=
  match o with
  | .next t => t
  | _ => State.reset

/-- `V[r]`, `COST` and `STATUS` after a command. -/
def out (i : Instr) (s : State) (r : Reg) : Option Fpn × Nat × BitVec 16 :=
  ((after (exec i s)).v.get r, (after (exec i s)).cost, (after (exec i s)).status)

/-- `Q` and `STATUS` after a command. -/
def outQ (i : Instr) (s : State) : BitVec 64 × BitVec 16 := ((after (exec i s)).q, (after (exec i s)).status)

/-- A state whose `BUF` holds the text `t` from address `a` on. -/
def withText (a : Nat) (t : List Byte) (s : State) : State := { s with buf := Memory.writeBytes s.buf a t }

/-- The text `0.101`. -/
def text0101 : List Byte := [0x30#8, 0x2E#8, 0x31#8, 0x30#8, 0x31#8]

/-! ### Decoding: every command, its word written from R66, R68 and R70 (worked words: R77 and `spec/95`) -/

theorem test_decode_new : decode 0x0100000000040003#64 = .ok (.new 0 4#16 3#16) := by decide
theorem test_decode_setint : decode 0x02500000FFFFFFFD#64 = .ok (.setint 5 (-3#32)) := by decide
theorem test_decode_ldstr : decode 0x0310000000100005#64 = .ok (.ldstr 1 16#16 5#16) := by decide
theorem test_decode_asgstr : decode 0x04300000FFFF0009#64 = .ok (.asgstr 3 65535#16 9#16) := by decide
theorem test_decode_mov : decode 0x0531000000000000#64 = .ok (.mov 3 1) := by decide
theorem test_decode_compl : decode 0x0870000000000000#64 = .ok (.compl 7) := by decide
theorem test_decode_shl : decode 0x0930000000000001#64 = .ok (.shl 3 1#16) := by decide
theorem test_decode_shr : decode 0x0AF0000000008000#64 = .ok (.shr 15 32768#16) := by decide
theorem test_decode_setdig : decode 0x0B00000000020001#64 = .ok (.setdig 0 2#16 1#16) := by decide
theorem test_decode_setdec : decode 0x0C30000000000005#64 = .ok (.setdec 3 5#16) := by decide
theorem test_decode_resize : decode 0x0D21000000000010#64 = .ok (.resize 2 1 16#16) := by decide
theorem test_decode_pad : decode 0x0E20000000000003#64 = .ok (.pad 2 0 3#16) := by decide
theorem test_decode_trunc : decode 0x0F3A00000000FFFF#64 = .ok (.trunc 3 10 65535#16) := by decide
theorem test_decode_size : decode 0x1000000000000000#64 = .ok (.size 0) := by decide
theorem test_decode_decidx : decode 0x110F000000000000#64 = .ok (.decidx 15) := by decide
theorem test_decode_ovf : decode 0x1202000000000000#64 = .ok (.ovf 2) := by decide
theorem test_decode_cin : decode 0x1308000000000000#64 = .ok (.cin 8) := by decide
theorem test_decode_truncf : decode 0x1402000000000000#64 = .ok (.truncf 2) := by decide
theorem test_decode_toreal : decode 0x1501000000000000#64 = .ok (.toreal 1) := by decide
theorem test_decode_ststr : decode 0x1603000000300000#64 = .ok (.ststr 3 48#16) := by decide
theorem test_decode_eq : decode 0x1702300000000000#64 = .ok (.eq 2 3) := by decide
theorem test_decode_fa : decode 0x2000000000000004#64 = .ok (.fa false false true) := by decide
theorem test_decode_add : decode 0x2120100000000000#64 = .ok (.add 2 0 1) := by decide
theorem test_decode_sub : decode 0x2220100000000000#64 = .ok (.sub 2 0 1) := by decide
theorem test_decode_mul : decode 0x2330100000000000#64 = .ok (.mul 3 0 1) := by decide
theorem test_decode_mdiv : decode 0x2420100000000000#64 = .ok (.mdiv 2 0 1) := by decide
theorem test_decode_rdiv : decode 0x2530100000000000#64 = .ok (.rdiv 3 0 1) := by decide
theorem test_decode_clrcost : decode 0x3000000000000000#64 = .ok .clrcost := by decide

/-- The encoder writes the same words. -/
theorem test_encode : encode (.setint 5 (-3#32)) = 0x02500000FFFFFFFD#64 ∧ encode (.add 2 0 1) = 0x2120100000000000#64 ∧
    encode (.fa true true false) = 0x2000000000000003#64 ∧ encode (.ststr 3 48#16) = 0x1603000000300000#64 := by decide

/-- No two rows of R70 accept one word: they differ in a bit that both masks hold. -/
theorem test_rows_disjoint :
    opcodeTable.Pairwise (fun a b => a.bits &&& (a.mask &&& b.mask) ≠ b.bits &&& (a.mask &&& b.mask)) := by
  decide +kernel

/-- The host's reading of a table word, and a placed word runs first. -/
theorem test_table_word : decodeTableWord 64 0x2120100000000000 = some (.add 2 0 1) := by decide
theorem test_fetch_word :
    (after (step (State.reset.withFetchWord 64 0x0100000000040003))).v.get 0 = some (fx 4 3 0) := by decide

/-! ### WellFormed: each check refuses an ill-formed word or value -/

/-- R72 (a): unassigned opcodes (V-FLT-1). -/
theorem test_illegal_opcode : legalWord 0#64 = false ∧ legalWord 0x0600000000000000#64 = false ∧
    legalWord 0xFF00000000000000#64 = false := by decide
/-- R69: `rd` unused (`SIZE`), `rs1` unused (`COMPL`), `rs2` unused (`MOV`). -/
theorem test_illegal_registers : legalWord 0x1010000000000000#64 = false ∧ legalWord 0x0871000000000000#64 = false ∧
    legalWord 0x0531100000000000#64 = false := by decide
/-- R69: the field `zero` (`ADD` with bit 32), `immA` unused (`SHL`), `immB` unused (`STSTR`, `CLRCOST`). -/
theorem test_illegal_immediates : legalWord 0x2120100100000000#64 = false ∧ legalWord 0x0930000000010001#64 = false ∧
    legalWord 0x1603000000300001#64 = false ∧ legalWord 0x3000000000000001#64 = false := by decide
/-- R69: bits `immB[15:3]` of `FA`. -/
theorem test_illegal_fa : legalWord 0x2000000000000008#64 = false ∧ legalWord 0x2000000000000007#64 = true := by decide
/-- The decoder refuses by name. -/
theorem test_decode_refuses : decode 0x0600000000000000#64 = .error .unassignedOpcode ∧
    decode 0x2000000000000008#64 = .error .nonzeroUnusedField := by decide
/-- R21, R22: no bit, more than `WMAX` bits, a decimal index above the size, unequal carry flags. -/
theorem test_wf_refuses : (fx 0 0 0).wf = false ∧ (fx 4 5 0).wf = false ∧
    ({ fx 4 3 5 with overflow := true } : Fpn).wf = false ∧ (fx 4 4 5).wf = true := by decide
theorem test_wf_refuses_wide : ∀ b : List Bool, 65535 < b.length → ({ decimal := 0, bits := b } : Fpn).wf = false := by
  intro b h
  have h' : ¬ b.length ≤ 65535 := by omega
  simp [Fpn.wf, Fpn.formatOk, Fpn.size, h']

/-! ### Construction, copy and mutation (`spec/95` section 2.1) -/

theorem test_new : out (.new 0 4 3) State.reset 0 = (some (fx 4 3 0), 0, 0#16) ∧
    out (.new 0 4 5) State.reset 0 = (none, 0, 0x2000#16) := by decide
theorem test_setint : out (.setint 0 (-3#32)) (st (fx 8 4 0) (fx 1 0 0)) 0 = (some (fx 8 4 0b11010000), 0, 0#16) ∧
    out (.setint 0 8) (st (fx 8 4 0) (fx 1 0 0)) 0 = (some (fx 8 4 0b10000000), 0, 0#16) := by decide
theorem test_ldstr : out (.ldstr 0 16 5) (withText 16 text0101 State.reset) 0 = (some (fx 4 3 0b0101), 0, 0#16) ∧
    out (.ldstr 0 65535 2) State.reset 0 = (none, 0, 0x6000#16) := by decide
theorem test_asgstr :
    out (.asgstr 0 2 3) (withText 0 text0101 (st (fx 8 0 0) (fx 1 0 0))) 0 = (some (fx 8 0 0b11111101), 0, 0#16) ∧
    out (.asgstr 0 0 5) (withText 0 text0101 (st (fx 2 0 0) (fx 1 0 0))) 0 = (some (fx 2 0 0), 0, 0x1000#16) := by
  decide
theorem test_mov :
    out (.mov 2 1) (st (fx 1 0 0) { fx 4 3 2 with overflow := true, carryin := true }) 2 =
      (some { fx 4 3 2 with overflow := true, carryin := true }, 0, 0#16) := by decide
theorem test_compl : out (.compl 0) (st (fx 4 3 0b0011) (fx 1 0 0)) 0 = (some (fx 4 3 0b1101), 4, 0#16) ∧
    out (.compl 0) (st (fx 4 3 0b1000) (fx 1 0 0)) 0 = (some (fx 4 3 0b1000), 4, 0#16) := by decide
theorem test_shl : out (.shl 0 1) (st (fx 4 3 0b1101) (fx 1 0 0)) 0 = (some (fx 4 3 0b1010), 0, 0#16) := by decide
theorem test_shr : out (.shr 0 2) (st (fx 4 3 0b1101) (fx 1 0 0)) 0 = (some (fx 4 3 0b0011), 0, 0#16) := by decide
theorem test_setdig : out (.setdig 0 2 1) (st (fx 4 3 0) (fx 1 0 0)) 0 = (some (fx 4 3 0b0100), 0, 0#16) ∧
    out (.setdig 0 0 2) (st (fx 4 3 0) (fx 1 0 0)) 0 = (some (fx 4 3 0), 0, 0x2000#16) := by decide
theorem test_setdec : out (.setdec 0 2) (st (fx 4 3 0b0110) (fx 1 0 0)) 0 = (some (fx 4 2 0b0110), 0, 0#16) := by
  decide

/-! ### Width changes (section 2.2) -/

theorem test_resize_shrinks : out (.resize 2 0 4) (st (fx 8 5 0b00010100) (fx 1 0 0)) 2 =
    (some { fx 4 3 0b0101 with truncated := true }, 0, 0#16) := by decide
theorem test_resize_grows : out (.resize 2 0 5) (st (fx 3 2 0b101) (fx 1 0 0)) 2 = (some (fx 5 2 0b11101), 0, 0#16) := by
  decide
theorem test_pad : out (.pad 2 0 9) (st (fx 5 4 0b01110) (fx 1 0 0)) 2 = (some (fx 9 8 0b011100000), 0, 0#16) ∧
    out (.pad 2 0 3) (st (fx 4 3 0b0101) (fx 1 0 0)) 2 = (none, 0, 0x1000#16) := by decide
theorem test_trunc :
    out (.trunc 2 0 4) (st (fx 7 6 0b0001111) (fx 1 0 0)) 2 = (some { fx 4 3 1 with truncated := true }, 0, 0#16) ∧
    out (.trunc 2 0 2) (st (fx 5 2 0b01101) (fx 1 0 0)) 2 = (none, 0, 0x1000#16) := by decide

/-! ### Queries (section 2.3) -/

theorem test_size : outQ (.size 0) (st (fx 4 3 5) (fx 1 0 0)) = (4#64, 0#16) := by decide
theorem test_decidx : outQ (.decidx 0) (st (fx 4 3 5) (fx 1 0 0)) = (3#64, 0#16) := by decide
theorem test_ovf : outQ (.ovf 0) (st { fx 8 4 0 with overflow := true } (fx 1 0 0)) = (1#64, 0#16) := by decide
theorem test_cin : outQ (.cin 0) (st { fx 8 4 0 with carryin := true } (fx 1 0 0)) = (1#64, 0#16) := by decide
theorem test_truncf : outQ (.truncf 0) (st { fx 8 4 0 with truncated := true } (fx 1 0 0)) = (1#64, 0#16) := by
  decide
theorem test_toreal : (after (exec (.toreal 0) (st (fx 8 4 0b11010000) (fx 1 0 0)))).rr = ⟨-48, 4⟩ := by decide
theorem test_ststr :
    (after (exec (.ststr 0 32) (st (fx 4 3 0b0101) (fx 1 0 0)))).buf =
      [(32, 0x30#8), (33, 0x2E#8), (34, 0x31#8), (35, 0x30#8), (36, 0x31#8)] ∧
    outQ (.ststr 0 32) (st (fx 4 3 0b0101) (fx 1 0 0)) = (5#64, 0#16) := by decide
theorem test_ststr_at_end : outQ (.ststr 0 65534) (st (fx 1 0 0) (fx 1 0 0)) = (2#64, 0#16) ∧
    outQ (.ststr 0 65534) (st (fx 2 0 0) (fx 1 0 0)) = (0#64, 0x6000#16) := by decide
theorem test_eq : outQ (.eq 0 1) (st (fx 2 1 0b11) (fx 4 2 0b1110)) = (1#64, 0#16) ∧
    outQ (.eq 0 1) (st (fx 1 0 1) (fx 1 1 1)) = (0#64, 0#16) := by decide

/-! ### Arithmetic (sections 2.4 and 2.5) -/

theorem test_fa : outQ (.fa true false true) State.reset = (2#64, 0#16) ∧
    outQ (.fa true true true) State.reset = (3#64, 0#16) := by decide
theorem test_add_aligns : out (.add 2 0 1) (st (fx 3 1 0b011) (fx 4 3 0b0011)) 2 =
    (some { fx 4 2 0b0111 with truncated := true }, 16, 0#16) := by decide
theorem test_add_carries : out (.add 2 0 1) (st (fx 4 3 0b1111) (fx 4 3 0b0001)) 2 =
    (some { fx 4 3 0 with overflow := true, carryin := true }, 16, 0#16) := by decide
theorem test_sub : out (.sub 2 0 1) (st (fx 4 3 0b0101) (fx 4 3 0b0011)) 2 =
    (some { fx 4 3 0b0010 with overflow := true, carryin := true }, 20, 0#16) := by decide
theorem test_sub_zero : out (.sub 2 0 1) (st (fx 4 3 0b0011) (fx 4 3 0)) 2 = (some (fx 4 3 0b0011), 20, 0#16) := by
  decide
theorem test_mul : out (.mul 2 0 1) (st (fx 2 1 0b01) (fx 4 3 0b0011)) 2 = (some (fx 7 6 0b0001100), 37, 0#16) := by
  decide
/-- V-MUL-13: the flags of the last add depend on the order of the operands. -/
theorem test_mul_flags : out (.mul 2 0 1) (st (fx 4 1 0b1100) (fx 4 2 0b1011)) 2 =
      (some { fx 7 3 0b0000100 with overflow := true, carryin := true }, 37, 0#16) ∧
    out (.mul 2 1 0) (st (fx 4 1 0b1100) (fx 4 2 0b1011)) 2 = (some (fx 7 3 0b0000100), 37, 0#16) := by decide

/-! ### Division (section 2.6) -/

/-- V-MDIV-1. -/
theorem test_mdiv : out (.mdiv 2 0 1) (st (fx 9 8 0b011011110) (fx 5 4 0b01110)) 2 =
    (some { fx 9 8 0b011111100 with truncated := true }, 450, 0x0017#16) := by decide +kernel
/-- V-MDIV-7: a fault inside a pass leaves everything as it was. -/
theorem test_mdiv_faults : out (.mdiv 2 0 1) (st (fx 8 4 0b00110000) (fx 8 4 0b00100000)) 2 =
    (none, 0, 0x1000#16) := by decide
/-- V-RDIV-3. -/
theorem test_rdiv : out (.rdiv 2 0 1) (st (fx 8 4 0b00110000) (fx 8 4 0b00100000)) 2 =
    (some { fx 8 6 0b01011111 with truncated := true }, 339, 0x000E#16) := by decide +kernel
/-- V-RDIV-5, V-RDIV-6. -/
theorem test_rdiv_faults : out (.rdiv 2 0 1) (st (fx 4 3 0b0110) (fx 4 3 0)) 2 = (none, 0, 0x3000#16) ∧
    out (.rdiv 2 0 1) (st (fx 4 2 0b0110) (fx 5 4 1)) 2 = (none, 0, 0x1000#16) := by decide

/-! ### System, faults, host (section 2.7) -/

theorem test_clrcost : out .clrcost { st (fx 4 3 0) (fx 1 0 0) with cost := 73 } 0 = (some (fx 4 3 0), 0, 0#16) := by
  decide
/-- V-FLT-3: the fault is precise and records the word. -/
theorem test_fault_records_word : out (.add 2 0 5) (st (fx 4 3 0) (fx 1 0 0)) 2 = (none, 0, 0x4000#16) ∧
    (after (exec (.add 2 0 5) (st (fx 4 3 0) (fx 1 0 0)))).fcmd = 0x2120500000000000#64 := by decide
/-- V-FLT-8, V-FLT-9, V-FLT-10: the order of the checks (R249). -/
theorem test_fault_order : out (.asgstr 3 65535 9) State.reset 3 = (none, 0, 0x4000#16) ∧
    out (.asgstr 0 65535 9) (st (fx 2 0 0) (fx 1 0 0)) 0 = (some (fx 2 0 0), 0, 0x6000#16) ∧
    out (.asgstr 0 0 5) (withText 0 [0x30#8, 0x78#8, 0x31#8, 0x30#8, 0x31#8] (st (fx 2 0 0) (fx 1 0 0))) 0 =
      (some (fx 2 0 0), 0, 0x2000#16) := by decide
/-- V-FLT-12: a faulted block keeps the first faulting word. -/
theorem test_faulted_ignores :
    step { takeFault .widthMismatch 7#64 State.reset with host := [.present 0x3000000000000000#64] } =
      .next (takeFault .widthMismatch 7#64 State.reset) := by rfl
/-- R265: reset after a fault and a write. -/
theorem test_host_reset :
    step { takeFault .widthMismatch 7#64 (withText 0 text0101 State.reset) with host := [.reset, .read] } =
      .next { State.reset with epoch := 1, host := [.read] } := by rfl
/-- R258 (b). -/
theorem test_host_write : (after (step { State.reset with host := [.writeBuf 65535 0x31#8] })).buf = [(65535, 0x31#8)] := by
  decide

/-! ### The text form (R75 to R77) -/

theorem test_assemble_add : assemble ("ADD v2, v0, v1 ; sum").toList = some [.present 0x2120100000000000#64] := by
  decide
theorem test_assemble_pseudo : assemble ("NEWI v0, 8, 0x4, -3").toList =
    some [.present 0x0100000000080004#64, .present 0x02000000FFFFFFFD#64] := by decide
theorem test_assemble_text : assemble (".text 16, \"0.\"").toList =
    some [.writeBuf 16 0x30#8, .writeBuf 17 0x2E#8] := by decide

/-! ### Witnesses: for every statement with hypotheses, concrete states and operands that meet them, every clause -/

/-- `v0 = 0.101`, `v1 = 0.011`, the host about to present `w`. -/
def stw (w : Word) : State := { st (fx 4 3 5) (fx 4 3 3) with host := [.present w] }

/-- A faulted state. -/
def stf (a : HostAction) : State := { takeFault .bufferRange 7#64 (st (fx 4 3 5) (fx 4 3 3)) with host := [a] }

/-- A state with two registers written meets the invariant. -/
theorem inv_stw (w : Word) : Inv (stw w) := by
  refine ⟨?_, by change statusOk State.reset; unfold statusOk; decide, fun _ => rfl,
    ⟨by simp [stw, st, State.reset], by simp [stw, st, State.reset], Nat.zero_le _⟩, rfl⟩
  intro r x h
  simp only [stw, st, State.setReg_get] at h
  split at h
  · cases h; decide
  · split at h
    · cases h; decide
    · simp [State.reset] at h

theorem witness_DecodeThenEncodeIsIdentity : ∃ i, decode 0x25F0E00000000000#64 = .ok i := ⟨.rdiv 15 0 14, by decide⟩
theorem witness_DecoderAgreesWithOpcodeTable : decode 0x2000000000000007#64 = .ok (.fa true true true) := by decide
theorem witness_StepRunsDecodedCommand : (stw 0x2120100000000000#64).host = [.present 0x2120100000000000#64] ∧
    (stw 0x2120100000000000#64).faulted = false ∧ decode 0x2120100000000000#64 = .ok (.add 2 0 1) := by decide
theorem witness_IllegalWordRaisesIllegalCommand : (stw 0x2000000000000008#64).host = [.present 0x2000000000000008#64] ∧
    (stw 0x2000000000000008#64).faulted = false ∧ legalWord 0x2000000000000008#64 = false := by decide
theorem witness_FaultedBlockIgnoresCommands :
    (stf (.present 0#64)).faulted = true ∧ (stf .reset).faulted = true ∧ (stf (.writeBuf 0 0)).faulted = true ∧
    (stf (.writeBuf 0 0)).host.head? ≠ some .reset ∧ ∃ t, step (stf (.writeBuf 0 0)) = .next t :=
  ⟨by decide, by decide, by decide, by decide, _, rfl⟩
theorem witness_ResetLeavesResetValues : (stf .reset).host = .reset :: [] := rfl
theorem witness_HostReadsAndWrites : (stf .read).host = .read :: [] ∧ State.reset.host = [] ∧
    (stf (.writeBuf 65535 1)).host = .writeBuf 65535 1 :: [] := by decide
theorem witness_StepKeepsInvariant : Inv (stw 0x2120100000000000#64) ∧ ∃ t, step (stw 0x2120100000000000#64) = .next t :=
  ⟨inv_stw _, _, rfl⟩
theorem witness_CostNeverDecreases : (∃ t, exec (.add 2 0 1) (stw 0#64) = .next t) ∧ Instr.add 2 0 1 ≠ .clrcost ∧
    (stw 0#64).faulted = false ∧ ∃ t, exec (.add 2 0 5) (stw 0#64) = .next t ∧ t.faulted = true :=
  ⟨⟨_, rfl⟩, by decide, by decide, _, rfl, by decide⟩
theorem witness_RegistersEmptyUntilWritten : (∃ t, step (stw 0x2120100000000000#64) = .next t) ∧
    (stw 0x2120100000000000#64).host.head? ≠ some .reset ∧ ((stw 0x2120100000000000#64).v.get 0).isSome = true ∧
    (stw 0x2120100000000000#64).v.get 2 = none ∧ (∃ t, step (stf .reset) = .next t) ∧
    (stf .reset).host.head? = some .reset :=
  ⟨⟨_, rfl⟩, by decide, by decide, by decide, ⟨_, rfl⟩, by decide⟩
theorem witness_FrameOfValueRegisters : (∃ t, exec (.add 2 0 1) (stw 0#64) = .next t) ∧
    destination (.add 2 0 1) ≠ some 0 ∧ destination (.size 0) ≠ some 0 := ⟨⟨_, rfl⟩, by decide, by decide⟩
theorem witness_FrameOfResultRegisters : (∃ t, exec (.add 2 0 1) (stw 0#64) = .next t) ∧
    writesCost (.mov 2 0) = false ∧ writesQ (.add 2 0 1) = false ∧ (Instr.add 2 0 1).mnemonic ≠ "TOREAL" ∧
    isDivision (.add 2 0 1) = false := ⟨⟨_, rfl⟩, by decide, by decide, by decide, by decide⟩
/-- The byte after the five stored ones, and the byte before them. -/
theorem witness_FrameOfBuf : (∃ t, exec (.ststr 0 32) (stw 0#64) = .next t) ∧ ∀ a ∈ [31, 37], ∀ rs1 addr x,
    Instr.ststr 0 32 = .ststr rs1 addr → (stw 0#64).v.get rs1 = some x →
    ¬ (addr.toNat ≤ a ∧ a < addr.toNat + (display x).length) := by
  refine ⟨⟨_, rfl⟩, ?_⟩
  intro a ha rs1 addr x h hx
  cases h
  have hx' : x = fx 4 3 5 := (Option.some.inj (show some (fx 4 3 5) = some x from hx)).symm
  subst hx'
  have : (display (fx 4 3 5)).length = 5 := by decide
  rw [this]
  fin_cases ha <;> decide
theorem witness_EmptySourceRaisesUnwrittenRegister : (∃ r ∈ sources (.add 2 0 5), (stw 0#64).v.get r = none) ∧
    (∀ r ∈ sources (.add 2 0 1), (stw 0#64).v.get r ≠ none) ∧ (stw 0#64).faulted = false := by decide
/-- Each access passes the end of `BUF` by one byte. -/
theorem witness_AccessPastEndRaisesBufferRange : (65535#16).toNat + (2#16).toNat > 65536 ∧
    (stw 0#64).v.get 0 = some (fx 4 3 5) ∧
    (65532#16).toNat + ((fx 4 3 5).size + 1) > 65536 := by decide
theorem witness_BadRequestsRaiseInvalidArgument : (stw 0#64).v.get 0 = some (fx 4 3 5) ∧
    (4#16).toNat ≥ (fx 4 3 5).size ∧ (2#16).toNat > 1 ∧ (5#16).toNat > (fx 4 3 5).size := by decide
/-- A foreign byte, two points, no digit. -/
theorem witness_MalformedTextRaisesInvalidArgument :
    (∃ c ∈ [0x30#8, 0x78#8], c ≠ 0x30#8 ∧ c ≠ 0x31#8 ∧ c ≠ 0x2E#8) ∧ [0x2E#8, 0x31#8, 0x2E#8].count 0x2E#8 ≥ 2 ∧
    (∀ c ∈ [0x2E#8], c = 0x2E#8) ∧ [0x2E#8].length = (1#16).toNat ∧ (65535#16).toNat + (1#16).toNat ≤ 65536 ∧
    bufHolds (withText 65535 [0x2E#8] (stw 0#64)) (65535#16).toNat [0x2E#8] ∧
    (withText 65535 [0x2E#8] (stw 0#64)).v.get 0 = some (fx 4 3 5) := by
  unfold bufHolds
  decide
/-- `PAD` to one bit less, `TRUNC` to one bit more and to one integer bit less, `MUL` of `.1` by itself, `MDIV` of a
value without integer bit and of `001.1`, whose first pass must cut 3 bits of 2 fraction bits. -/
theorem witness_IrreconcilableWidthsRaiseWidthMismatch :
    (st (fx 1 1 1) (fx 1 1 1)).v.get 0 = some (fx 1 1 1) ∧ (st (fx 1 1 1) (fx 1 1 1)).v.get 1 = some (fx 1 1 1) ∧
    (0#16).toNat < (fx 1 1 1).size ∧ 0 < (2#16).toNat ∧ (2#16).toNat > (fx 1 1 1).size ∧
    (fx 3 1 2).size - (1#16).toNat > (fx 3 1 2).decimal ∧
    1 + 1 + (2 * max (fx 1 1 1).size (fx 1 1 1).size - 1 - 1) > 2 * max (fx 1 1 1).size (fx 1 1 1).size - 1 ∧
    (fx 1 1 1).decimal ≥ (fx 1 1 1).size ∧ 2 * (fx 4 1 3).decimal < (fx 4 1 3).size - 1 := by decide
theorem witness_OnlyRdivByZeroRaisesDivideByZero : (st (fx 4 3 6) (fx 4 3 0)).faulted = false ∧
    ∃ t, exec (.rdiv 2 0 1) (st (fx 4 3 6) (fx 4 3 0)) = .next t ∧ t.faultCode = 3#4 :=
  ⟨by decide, _, rfl, by decide⟩
theorem witness_NewWritesZeros : 0 < (4#16).toNat ∧ (4#16).toNat ≤ (4#16).toNat ∧ (0#16).toNat = 0 ∧
    (5#16).toNat > (4#16).toNat := by decide
theorem witness_MovCopiesWholeValue : (stw 0#64).v.get 0 = some (fx 4 3 5) ∧ (stw 0#64).v.get 5 = none := by decide
theorem witness_PseudoInstructionsExpand : (stw 0#64).v.get 0 = some (fx 4 3 5) ∧ 0 < (8#16).toNat ∧
    (8#16).toNat ≤ (8#16).toNat := by decide
theorem witness_ClrcostClearsCostOnly : (0x3000000000000001#64).extractLsb' 56 8 = 0x30#8 ∧
    0x3000000000000001#64 ≠ 0x3000000000000000#64 ∧
    (stw 0x3000000000000001#64).host = [.present 0x3000000000000001#64] ∧
    (stw 0x3000000000000001#64).faulted = false := by decide
/-- The most negative integer that fits. -/
theorem witness_SetintPlacesIntegerAtRadixPoint : (st (fx 8 4 0) (fx 1 0 0)).v.get 0 = some (fx 8 4 0) ∧
    (fx 8 4 0).decimal < (fx 8 4 0).size ∧ -(2 ^ ((fx 8 4 0).size - (fx 8 4 0).decimal - 1)) ≤ (-8#32).toInt ∧
    (-8#32).toInt < 2 ^ ((fx 8 4 0).size - (fx 8 4 0).decimal - 1) := by decide
/-- The text `0.101`, and a text of one digit without point, at the end of `BUF`. -/
theorem witness_LdstrLoadsDigits :
    digitText [false] (some [true, false, true]) = text0101 ∧ text0101.length = (5#16).toNat ∧
    (65531#16).toNat + (5#16).toNat ≤ 65536 ∧
    bufHolds (withText 65531 text0101 State.reset) (65531#16).toNat (digitText [false] (some [true, false, true])) ∧
    [false] ++ (some [true, false, true]).getD [] ≠ [] ∧ (digitText [true] none).length = (1#16).toNat := by
  unfold bufHolds
  decide
/-- The text `0.101` into 4 bits (it fits exactly) and into 3 (it does not). -/
theorem witness_AsgstrSignExtendsText :
    (withText 0 text0101 (st (fx 4 0 0) (fx 3 0 0))).v.get 0 = some (fx 4 0 0) ∧
    (withText 0 text0101 (st (fx 4 0 0) (fx 3 0 0))).v.get 1 = some (fx 3 0 0) ∧
    (digitText [false] (some [true, false, true])).length = (5#16).toNat ∧ (0#16).toNat + (5#16).toNat ≤ 65536 ∧
    bufHolds (withText 0 text0101 (st (fx 4 0 0) (fx 3 0 0))) (0#16).toNat (digitText [false] (some [true, false, true])) ∧
    [false] ++ (some [true, false, true]).getD [] ≠ [] ∧
    ([false] ++ (some [true, false, true]).getD []).length ≤ (fx 4 0 0).size ∧
    ([false] ++ (some [true, false, true]).getD []).length > (fx 3 0 0).size := by
  unfold bufHolds
  decide
/-- The hypothesis `s.v.get r = some x` alone: `COMPL`, the shifts, the queries, `ADD` in either order. -/
theorem witness_written_source : (st (fx 4 3 5) (fx 4 3 3)).v.get 0 = some (fx 4 3 5) ∧
    (st (fx 4 3 5) (fx 4 3 3)).v.get 1 = some (fx 4 3 3) := by decide
theorem witness_SetdigAndSetdecChangeOnePart : (st (fx 4 3 5) (fx 4 3 3)).v.get 0 = some (fx 4 3 5) ∧
    (3#16).toNat < (fx 4 3 5).size ∧ (1#16).toNat ≤ 1 ∧ (4#16).toNat ≤ (fx 4 3 5).size := by decide
theorem witness_ResizeGrowsBySignExtension : (st (fx 4 3 5) (fx 4 3 3)).v.get 0 = some (fx 4 3 5) ∧
    0 < (4#16).toNat ∧ (fx 4 3 5).size ≤ (4#16).toNat := by decide
/-- `0011.0100` to 3 bits (four low bits cut, the last that may) and `0110.` to 2 (an integer bit would be cut). -/
theorem witness_ResizeShrinksByTrimmingThenCutting : (st (fx 8 4 52) (fx 4 0 6)).v.get 0 = some (fx 8 4 52) ∧
    (st (fx 8 4 52) (fx 4 0 6)).v.get 1 = some (fx 4 0 6) ∧ (fx 8 4 52).decimal ≤ (fx 8 4 52).size ∧
    0 < (3#16).toNat ∧ (3#16).toNat < (fx 8 4 52).size ∧
    (fx 8 4 52).size - 3 - min ((fx 8 4 52).size - 3) (redundantZeros (fx 8 4 52)) ≤ (fx 8 4 52).decimal ∧
    (2#16).toNat < (fx 4 0 6).size ∧
    (fx 4 0 6).size - 2 - min ((fx 4 0 6).size - 2) (redundantZeros (fx 4 0 6)) > (fx 4 0 6).decimal := by decide +kernel
theorem witness_PadKeepsRealValue : (st (fx 4 3 5) (fx 4 3 3)).v.get 0 = some (fx 4 3 5) ∧
    (fx 4 3 5).size ≤ (4#16).toNat := by decide
/-- All fraction bits cut. -/
theorem witness_TruncRoundsDown : (st (fx 4 3 5) (fx 4 3 3)).v.get 0 = some (fx 4 3 5) ∧ 0 < (1#16).toNat ∧
    (1#16).toNat ≤ (fx 4 3 5).size ∧ (fx 4 3 5).size - (1#16).toNat ≤ (fx 4 3 5).decimal := by decide
theorem witness_TorealWritesTwosComplementPair : (st (fx 1 0 1) (fx 4 3 3)).v.get 0 = some (fx 1 0 1) ∧
    1 ≤ (fx 1 0 1).size := by decide
/-- The text ends at the last byte of `BUF`. -/
theorem witness_StstrWritesDisplayText : (st (fx 4 3 5) (fx 4 3 3)).v.get 0 = some (fx 4 3 5) ∧
    (fx 4 3 5).decimal ≤ (fx 4 3 5).size ∧ (65531#16).toNat + ((fx 4 3 5).size + 1) ≤ 65536 := by decide
theorem witness_StstrThenLdstrRestoresValue : (st (fx 4 4 5) (fx 4 3 3)).v.get 0 = some (fx 4 4 5) ∧
    1 ≤ (fx 4 4 5).size ∧ (fx 4 4 5).decimal ≤ (fx 4 4 5).size ∧ (5#16).toNat = (fx 4 4 5).size + 1 ∧
    (65531#16).toNat + (5#16).toNat ≤ 65536 := by decide
theorem witness_EqIsEqualityOfRealValues : (st (fx 1 0 1) (fx 1 1 1)).v.get 0 = some (fx 1 0 1) ∧
    (st (fx 1 0 1) (fx 1 1 1)).v.get 1 = some (fx 1 1 1) ∧ 1 ≤ (fx 1 0 1).size ∧ 1 ≤ (fx 1 1 1).size := by decide
/-- `01.1` and `0.011` (V-ADD-4, V-SUB-8): `W = 4`, `D = 2`. -/
theorem witness_AddAndSubAlign : (st (fx 3 1 3) (fx 4 3 3)).v.get 0 = some (fx 3 1 3) ∧
    (st (fx 3 1 3) (fx 4 3 3)).v.get 1 = some (fx 4 3 3) ∧ (fx 3 1 3).decimal ≤ (fx 3 1 3).size ∧
    (fx 4 3 3).decimal ≤ (fx 4 3 3).size ∧ 4 = max (fx 3 1 3).size (fx 4 3 3).size ∧
    2 = 4 - max ((fx 3 1 3).size - (fx 3 1 3).decimal) ((fx 4 3 3).size - (fx 4 3 3).decimal) := by decide
theorem witness_SubUndoesAdd : (st (fx 4 3 5) (fx 4 3 3)).v.get 0 = some (fx 4 3 5) ∧
    (st (fx 4 3 5) (fx 4 3 3)).v.get 1 = some (fx 4 3 3) ∧ (fx 4 3 5).size = (fx 4 3 3).size ∧
    (fx 4 3 5).decimal = (fx 4 3 3).decimal ∧ (fx 4 3 5).decimal ≤ (fx 4 3 5).size ∧ (0 : Reg) ≠ 1 := by decide
/-- `.11` times `0.1`: the decimal index is the size of the product (V-MUL-12). -/
theorem witness_MulIsUnsignedProduct : (st (fx 2 2 3) (fx 2 1 1)).v.get 0 = some (fx 2 2 3) ∧
    (st (fx 2 2 3) (fx 2 1 1)).v.get 1 = some (fx 2 1 1) ∧ 1 ≤ (fx 2 2 3).size ∧ 1 ≤ (fx 2 1 1).size ∧
    2 = max (fx 2 2 3).size (fx 2 1 1).size ∧ 2 ≤ 32768 ∧
    3 = (fx 2 2 3).decimal + (fx 2 1 1).decimal + (2 * 2 - (fx 2 2 3).size - (fx 2 1 1).size) ∧ 3 ≤ 2 * 2 - 1 := by decide
theorem witness_MulOfNonnegativeValuesIsExact : (st (fx 2 2 1) (fx 2 1 1)).v.get 0 = some (fx 2 2 1) ∧
    (st (fx 2 2 1) (fx 2 1 1)).v.get 1 = some (fx 2 1 1) ∧ (fx 2 2 1).wf = true ∧ (fx 2 1 1).wf = true ∧
    max (fx 2 2 1).size (fx 2 1 1).size ≤ 32768 ∧ sign (fx 2 2 1) = false ∧ sign (fx 2 1 1) = false ∧
    (fx 2 1 1).decimal < (fx 2 1 1).size := by decide
theorem witness_MdivRefinesIntegerRecurrence : (st (fx 9 8 222) (fx 5 4 14)).v.get 0 = some (fx 9 8 222) ∧
    (st (fx 9 8 222) (fx 5 4 14)).v.get 1 = some (fx 5 4 14) ∧ 9 = (fx 9 8 222).size ∧ (fx 9 8 222).decimal + 1 = 9 ∧
    (fx 5 4 14).decimal + 1 = (fx 5 4 14).size ∧ (fx 5 4 14).size ≤ 9 := by decide
/-- V-MDIV-2 (`01.10` by `01.00`, converged) and V-MDIV-3 (`0.110` by zero, exhausted). -/
theorem witness_MdivStateAndCost : (st (fx 4 2 6) (fx 4 2 4)).v.get 0 = some (fx 4 2 6) ∧
    (st (fx 4 2 6) (fx 4 2 4)).v.get 1 = some (fx 4 2 4) ∧ 1 ≤ (fx 4 2 6).size ∧ 1 ≤ (fx 4 2 4).size ∧
    mdiv (fx 4 2 6) (fx 4 2 4) = .ok ⟨{ fx 4 1 3 with truncated := true }, 37, .converged, 1⟩ ∧
    mdiv (fx 4 3 6) (fx 4 3 0) = .ok ⟨{ fx 4 3 0 with truncated := true }, 205, .exhausted, 5⟩ := by decide +kernel
theorem witness_MdivByZeroIsExhaustedZero : (st (fx 4 3 6) (fx 4 3 0)).v.get 0 = some (fx 4 3 6) ∧
    (st (fx 4 3 6) (fx 4 3 0)).v.get 1 = some (fx 4 3 0) ∧ (fx 4 3 6).decimal + 1 = (fx 4 3 6).size ∧
    (fx 4 3 0).decimal + 1 = (fx 4 3 0).size ∧ (fx 4 3 0).size ≤ (fx 4 3 6).size ∧ uint (fx 4 3 0) = 0 := by decide
/-- `0.110` by `0.100` has room; `01.10` by `0.0001` has `da = −1` (V-RDIV-6); `11.00` by `0100.` has `da = 5 > 4`. -/
theorem witness_NormalisationKeepsQuotient : 1 ≤ (fx 4 3 4).size ∧ uint (fx 4 3 4) ≠ 0 ∧
    ((fx 4 3 6).decimal : Int) + (bitlength (sint (fx 4 3 4)).natAbs : Int) - (fx 4 3 4).decimal = 3 ∧
    uint (fx 5 4 1) ≠ 0 ∧
    ((fx 4 2 6).decimal : Int) + (bitlength (sint (fx 5 4 1)).natAbs : Int) - (fx 5 4 1).decimal = -1 ∧
    uint (fx 4 0 4) ≠ 0 ∧
    ((fx 4 2 12).decimal : Int) + (bitlength (sint (fx 4 0 4)).natAbs : Int) - (fx 4 0 4).decimal = 5 := by decide +kernel
/-- V-RDIV-8. -/
theorem witness_RdivStateAndCost : (st (fx 4 3 6) (fx 4 3 6)).v.get 0 = some (fx 4 3 6) ∧
    (st (fx 4 3 6) (fx 4 3 6)).v.get 1 = some (fx 4 3 6) ∧ 1 ≤ (fx 4 3 6).size ∧
    4 = max (fx 4 3 6).size (fx 4 3 6).size ∧ 4 = max 3 4 ∧
    rdiv (fx 4 3 6) (fx 4 3 6) = .ok ⟨{ fx 4 2 4 with truncated := true }, 57, .converged, 1⟩ := by decide +kernel
/-- The divisor is 1/2, the working width 6. -/
theorem witness_RdivCompletesOnFractions : (st (fx 6 5 31) (fx 4 3 4)).v.get 0 = some (fx 6 5 31) ∧
    (st (fx 6 5 31) (fx 4 3 4)).v.get 1 = some (fx 4 3 4) ∧ (fx 6 5 31).decimal < (fx 6 5 31).size ∧
    (fx 4 3 4).decimal < (fx 4 3 4).size ∧ sign (fx 6 5 31) = false ∧ sign (fx 4 3 4) = false ∧
    toReal (fx 6 5 31) < 1 ∧ 1 / 2 ≤ toReal (fx 4 3 4) ∧ toReal (fx 4 3 4) < 1 ∧
    6 ≤ max (fx 6 5 31).size (fx 4 3 4).size := by decide +kernel
theorem witness_RdivWithoutRoomRaisesWidthMismatch : (st (fx 4 2 6) (fx 5 4 1)).v.get 0 = some (fx 4 2 6) ∧
    (st (fx 4 2 6) (fx 5 4 1)).v.get 1 = some (fx 5 4 1) ∧ uint (fx 5 4 1) ≠ 0 ∧
    ((fx 4 2 6).decimal : Int) + (bitlength (sint (fx 5 4 1)).natAbs : Int) - (fx 5 4 1).decimal < 0 := by decide +kernel

end Sys2Proof.Tests
end

section
/-! SUPPORT. Family State (`spec/10_state.md`): what a step can be, what a command does to the value registers and to
the result registers, and the invariant of the machine, kept by every step. The invariant is proved in three layers:
every function of the datapath answers a value that a register may hold, every update of the state keeps the
invariant, and a command is one of these updates. -/

namespace Sys2Proof.Machine

/-! ### What a step can be -/

theorem State.popHost_eq {s : State} {a : HostAction} {rest : List HostAction} (h : s.host = a :: rest) :
    s.popHost = { s with host := rest } := by
  simp [State.popHost, h]

theorem step_present {s : State} {w : Word} {rest : List HostAction} (h : s.host = .present w :: rest) :
    step s = runWord w s.popHost := by
  simp [step, h]

theorem runWord_of_decode {s : State} {w : Word} {i : Instr} (hf : s.faulted = false) (hd : decode w = .ok i) :
    runWord w s = exec i s := by
  simp [runWord, hf, hd]

/-- What a presented word can do (R247, R249): it is ignored, its command runs, or it is no command. -/
theorem runWord_cases {w : Word} {s t : State} (h : runWord w s = .next t) :
    (s.faulted = true ∧ t = s) ∨ (∃ i, decode w = .ok i ∧ exec i s = .next t) ∨
      t = takeFault .illegalCommand w s := by
  unfold runWord at h
  split at h
  · next hf => exact .inl ⟨hf, (Host.Outcome.next.inj h).symm⟩
  · split at h
    · next i hd => exact .inr (.inl ⟨i, hd, h⟩)
    · exact .inr (.inr (Host.Outcome.next.inj h).symm)

/-- What a step can be (R258): idle, or one of the host's four actions. -/
theorem step_cases {s t : State} (h : step s = .next t) :
    (s.host = [] ∧ t = s) ∨
    (∃ rest, s.host = .read :: rest ∧ t = s.popHost) ∨
    (∃ a b rest, s.host = .writeBuf a b :: rest ∧ t = hostWrite a b s.popHost) ∨
    (∃ w rest, s.host = .present w :: rest ∧ runWord w s.popHost = .next t) ∨
    (∃ rest, s.host = .reset :: rest ∧ t = hostReset s.popHost) := by
  unfold step at h
  split at h
  · next hh => exact .inl ⟨hh, (Host.Outcome.next.inj h).symm⟩
  · next rest hh => exact .inr (.inl ⟨rest, hh, (Host.Outcome.next.inj h).symm⟩)
  · next a b rest hh => exact .inr (.inr (.inl ⟨a, b, rest, hh, (Host.Outcome.next.inj h).symm⟩))
  · next w rest hh => exact .inr (.inr (.inr (.inl ⟨w, rest, hh, h⟩)))
  · next rest hh => exact .inr (.inr (.inr (.inr ⟨rest, hh, (Host.Outcome.next.inj h).symm⟩)))

/-- Settles O5: the state that runs the command is the state without the action performed. -/
theorem stepRunsDecodedCommand : Obligations.StepRunsDecodedCommand := by
  intro s w rest i hhost hf hd
  rw [step_present hhost, ← State.popHost_eq hhost]
  exact runWord_of_decode hf hd

/-! ### The value registers -/

/-- A write of the destination register leaves every other register, and leaves the destination written. -/
theorem State.setReg_get_cases (s : State) {i : Instr} {d : Reg} (hd : destination i = some d) (x : Fpn) (r : Reg) :
    (s.setReg d x).v.get r = s.v.get r ∨ destination i = some r ∧ ((s.setReg d x).v.get r).isSome = true := by
  by_cases h : r = d
  · subst h; exact .inr ⟨hd, by rw [State.setReg_get_same]; rfl⟩
  · exact .inl (State.setReg_get_other s d r x h)

/-- What a command does to a value register (R26, R28, R30): nothing, or it is the destination and is now written. -/
theorem exec_get_cases {i : Instr} {s t : State} (h : exec i s = .next t) (r : Reg) :
    t.v.get r = s.v.get r ∨ destination i = some r ∧ (t.v.get r).isSome = true := by
  rcases exec_cases i s t h with ⟨k, rfl⟩ | ⟨d, x, c, hd, -, -, -, rfl⟩ | ⟨d, x, c, st, k, hd, -, -, rfl⟩ |
    ⟨d, x, hd, rfl⟩ | ⟨n, -, rfl⟩ | ⟨p, -, rfl⟩ | ⟨rs1, a, x, u, -, -, hu, rfl⟩ | ⟨-, rfl⟩
  case inr.inl | inr.inr.inl | inr.inr.inr.inl => exact s.setReg_get_cases hd x r
  case inr.inr.inr.inr.inr.inr.inl =>
    obtain ⟨-, rfl⟩ := State.memWrite_eq_ok.mp hu
    exact .inl rfl
  all_goals exact .inl rfl

/-- Settles O15. -/
theorem frameOfValueRegisters : Obligations.FrameOfValueRegisters := by
  intro i s t r h hd
  exact (exec_get_cases h r).resolve_right (fun hw => hd hw.1)

/-- What a step other than a reset does to a value register: nothing, or it presents a command whose destination the
register is, and the register is now written. -/
theorem step_get_cases {s t : State} (h : step s = .next t) (hr : s.host.head? ≠ some .reset) (r : Reg) :
    t.v.get r = s.v.get r ∨
      (∃ w i rest, s.host = .present w :: rest ∧ decode w = .ok i ∧ destination i = some r) ∧
        (t.v.get r).isSome = true := by
  rcases step_cases h with ⟨-, rfl⟩ | ⟨rest, -, rfl⟩ | ⟨a, b, rest, -, rfl⟩ | ⟨w, rest, hh, hw⟩ | ⟨rest, hh, -⟩
  · exact .inl rfl
  · exact .inl rfl
  · exact .inl rfl
  · rcases runWord_cases hw with ⟨-, rfl⟩ | ⟨i, hd, he⟩ | rfl
    · exact .inl rfl
    · exact (exec_get_cases he r).imp id (fun ⟨hdst, hsome⟩ => ⟨⟨w, i, rest, hh, hd, hdst⟩, hsome⟩)
    · exact .inl rfl
  · exact absurd (by rw [hh]; rfl) hr

theorem step_get_of_reset {s t : State} (h : step s = .next t) (hr : s.host.head? = some .reset) (r : Reg) :
    t.v.get r = none := by
  rcases step_cases h with ⟨hh, -⟩ | ⟨rest, hh, -⟩ | ⟨a, b, rest, hh, -⟩ | ⟨w, rest, hh, -⟩ | ⟨rest, -, rfl⟩
  case inr.inr.inr.inr => exact State.reset_get r
  all_goals rw [hh] at hr; cases hr

/-- Settles O14: a step that is not a reset leaves a register as it is or writes it. -/
theorem registersEmptyUntilWritten : Obligations.RegistersEmptyUntilWritten := by
  refine ⟨State.reset_get, fun s t r h => ⟨fun hr => step_get_of_reset h hr r, fun hr hs => ?_, fun hn => ?_⟩⟩
  · rcases step_get_cases h hr r with he | ⟨-, hw⟩
    · rw [he]; exact hs
    · exact hw
  · by_cases hr : s.host.head? = some .reset
    · exact .inl (step_get_of_reset h hr r)
    · exact (step_get_cases h hr r).imp (fun he => he.trans hn) And.left

/-! ### The result registers -/

/-- Settles O16: each of the shapes of `exec_cases` writes only the result registers that its commands name. -/
theorem frameOfResultRegisters : Obligations.FrameOfResultRegisters := by
  intro i s t h
  rcases exec_cases i s t h with ⟨k, rfl⟩ | ⟨r, x, c, -, hc, -, -, rfl⟩ | ⟨r, x, c, st, k, -, hc, hdiv, rfl⟩ |
    ⟨r, x, -, rfl⟩ | ⟨n, hq, rfl⟩ | ⟨p, hrr, rfl⟩ | ⟨r, a, x, u, rfl, -, hu, rfl⟩ | ⟨rfl, rfl⟩
  · exact ⟨fun _ => rfl, fun _ => rfl, fun _ => rfl, fun _ => by simp, by simp, rfl, rfl⟩
  · exact ⟨by simp [hc], fun _ => rfl, fun _ => rfl, fun _ => ⟨rfl, rfl⟩, rfl, rfl, rfl⟩
  · exact ⟨by simp [hc], fun _ => rfl, fun _ => rfl, by simp [hdiv], by simp, rfl, rfl⟩
  · exact ⟨fun _ => rfl, fun _ => rfl, fun _ => rfl, fun _ => ⟨rfl, rfl⟩, rfl, rfl, rfl⟩
  · exact ⟨fun _ => rfl, by simp [hq], fun _ => rfl, fun _ => ⟨rfl, rfl⟩, rfl, rfl, rfl⟩
  · exact ⟨fun _ => rfl, fun _ => rfl, fun hne => absurd hrr hne, fun _ => ⟨rfl, rfl⟩, rfl, rfl, rfl⟩
  · obtain ⟨-, rfl⟩ := State.memWrite_eq_ok.mp hu
    exact ⟨fun _ => rfl, fun hq => absurd hq (by simp [writesQ, Instr.mnemonic]), fun _ => rfl,
      fun _ => ⟨rfl, rfl⟩, rfl, rfl, rfl⟩
  · exact ⟨fun hc => absurd hc (by simp [writesCost, Instr.mnemonic]), fun _ => rfl, fun _ => rfl,
      fun _ => ⟨rfl, rfl⟩, rfl, rfl, rfl⟩

/-! ### Values a register may hold (R21, R22) -/

theorem fpn_wf_iff {v : Fpn} :
    v.wf = true ↔ 1 ≤ v.size ∧ v.size ≤ 65535 ∧ v.decimal ≤ v.size ∧ v.overflow = v.carryin := by
  simp [Fpn.wf, Fpn.formatOk, Fpn.flagsOk, and_assoc]

theorem fpn_wf_plain {d : Nat} {b : List Bool} (h1 : 1 ≤ b.length) (h2 : b.length ≤ 65535) (hd : d ≤ b.length) :
    (Fpn.plain d b).wf = true := fpn_wf_iff.mpr ⟨h1, h2, hd, rfl⟩

/-- A mutator that keeps the number of bits, the decimal index and the flags. -/
theorem fpn_wf_withBits {v : Fpn} {b : List Bool} (h : v.wf = true) (hb : b.length = v.size) :
    ({ v with bits := b } : Fpn).wf = true := by
  rw [fpn_wf_iff, size_mk, hb]
  exact fpn_wf_iff.mp h

theorem newValue_wf {size dec : Nat} {x : Fpn} (hs : size ≤ 65535) (h : newValue size dec = .ok x) : x.wf = true := by
  unfold newValue at h
  split at h
  · cases h
  · next hbad =>
    rw [← Except.ok.inj h]
    exact fpn_wf_plain (by simp; omega) (by simpa using hs) (by simp; omega)

theorem intValue_wf {old : Fpn} (imm : BitVec 32) (h : old.wf = true) : (intValue old imm).wf = true := by
  obtain ⟨h1, h2, hd, -⟩ := fpn_wf_iff.mp h
  exact fpn_wf_plain (by simpa [intBits] using h1) (by simpa [intBits] using h2) (by simpa [intBits] using hd)

/-- R90: a text that parses has at least one digit, no more digits than bytes, and no more digits after the point than
digits at all. -/
theorem parse_bounds {t : List Byte} {p : Parsed} (h : parse t = .ok p) :
    1 ≤ p.2.length ∧ p.2.length ≤ t.length ∧ p.1 ≤ p.2.length := by
  have hlen : t.length = t.count chPoint + (t.filter (fun c => c != chPoint)).length := by
    rw [List.length_eq_countP_add_countP (· == chPoint), List.count, ← List.countP_eq_length_filter]
    congr 1
    exact List.countP_congr (by simp)
  have hdrop : (t.dropWhile (fun c => c != chPoint)).length ≤ t.length := List.length_dropWhile_le _ _
  unfold parse at h
  split at h
  · cases h
  · split at h
    · cases h
    · next hcount =>
      simp only at h
      split at h
      · cases h
      · next hdigits =>
        rw [← Except.ok.inj h]
        refine ⟨by simp; omega, by simp; omega, ?_⟩
        simp only [List.length_map, List.length_reverse]
        split <;> omega

theorem assignValue_wf {S : Nat} {p : Parsed} {x : Fpn} (h1 : 1 ≤ S) (h2 : S ≤ 65535) (hp : p.1 ≤ p.2.length)
    (h : assignValue S p = .ok x) : x.wf = true := by
  unfold assignValue at h
  split at h
  · cases h
  · next hfit =>
    rw [← Except.ok.inj h]
    exact fpn_wf_plain (by simp; omega) (by simp; omega) (by simp; omega)

theorem complement_wf {v : Fpn} (h : v.wf = true) : (complement v).1.wf = true :=
  fpn_wf_withBits h (complement_size v)

theorem shl_wf {v : Fpn} (n : Nat) (h : v.wf = true) : (shl v n).wf = true := fpn_wf_withBits h (by simp)

theorem shr_wf {v : Fpn} (n : Nat) (h : v.wf = true) : (shr v n).wf = true := fpn_wf_withBits h (by simp)

theorem setDigit_wf {v x : Fpn} {index bit : Nat} (hv : v.wf = true) (h : setDigit v index bit = .ok x) :
    x.wf = true := by
  unfold setDigit at h
  split at h
  · cases h
  · rw [← Except.ok.inj h]
    exact fpn_wf_withBits hv (by simp [Fpn.size])

theorem setDecimal_wf {v x : Fpn} {dec : Nat} (hv : v.wf = true) (h : setDecimal v dec = .ok x) : x.wf = true := by
  unfold setDecimal at h
  split at h
  · cases h
  · next hd =>
    obtain ⟨h1, h2, -, hflags⟩ := fpn_wf_iff.mp hv
    rw [← Except.ok.inj h]
    exact fpn_wf_iff.mpr ⟨h1, h2, Nat.le_of_not_gt hd, hflags⟩

theorem pad_wf {v w : Fpn} {N : Nat} (hN : N ≤ 65535) (hv : v.wf = true) (h : pad v N = .ok w) : w.wf = true := by
  obtain ⟨h1, -, hd, hflags⟩ := fpn_wf_iff.mp hv
  obtain ⟨ho, hc, -⟩ := pad_flags h
  have hle := (pad_eq_ok.mp h).1
  rw [fpn_wf_iff, pad_size h, pad_decimal h, ho, hc]
  exact ⟨by omega, hN, by omega, hflags⟩

/-- The value that is cut may be wider than a register, as a product inside a division is (R191). -/
theorem trunc_wf {v w : Fpn} {N : Nat} (hN : N ≤ 65535) (hd : v.decimal ≤ v.size) (hflags : v.overflow = v.carryin)
    (h : trunc v N = .ok w) : w.wf = true := by
  obtain ⟨ho, hc, -⟩ := trunc_flags h
  obtain ⟨hpos, hle, -, -⟩ := trunc_eq_ok.mp h
  rw [fpn_wf_iff, trunc_size h, trunc_decimal h, ho, hc]
  exact ⟨hpos, hN, by omega, hflags⟩

/-- The value that is resized may be wider than a register, as a product inside a division is (R203). -/
theorem resize_wf {v w : Fpn} {N : Nat} (hN : N ≤ 65535) (hd : v.decimal ≤ v.size) (hflags : v.overflow = v.carryin)
    (h : resize v N = .ok w) : w.wf = true := by
  obtain ⟨ho, hc⟩ := resize_flags h
  have hdec := resize_decimal_le h hd
  rw [resize_size h] at hdec
  rw [fpn_wf_iff, resize_size h, ho, hc]
  exact ⟨(resize_eq_ok h).1, hN, hdec, hflags⟩

theorem add_wf {l r : Fpn} (hl : l.wf = true) (hr : r.wf = true) : (add l r).1.wf = true := by
  obtain ⟨h1, h2, -, -⟩ := fpn_wf_iff.mp hl
  obtain ⟨-, h3, -, -⟩ := fpn_wf_iff.mp hr
  rw [fpn_wf_iff, add_size, add_decimal, commonFormat_snd]
  exact ⟨by omega, by omega, by omega, (add_carryin l r).symm⟩

theorem sub_wf {l r : Fpn} (hl : l.wf = true) (hr : r.wf = true) : (sub l r).1.wf = true := by
  obtain ⟨h1, h2, -, -⟩ := fpn_wf_iff.mp hl
  obtain ⟨-, h3, -, -⟩ := fpn_wf_iff.mp hr
  rw [fpn_wf_iff, sub_size, sub_decimal, commonFormat_snd]
  exact ⟨by omega, by omega, by omega, (sub_carryin l r).symm⟩

/-- A product satisfies R21 and R22 but for the bound on its size. -/
theorem mul_format {l r : Fpn} {p : Fpn × Nat} (h1 : 1 ≤ l.size) (h : mul l r = .ok p) :
    p.1.size = 2 * max l.size r.size - 1 ∧ p.1.decimal ≤ p.1.size ∧ p.1.overflow = p.1.carryin := by
  obtain ⟨hD, hsize, hdec, -, hflags, -⟩ := mul_eq_ok rfl (by omega) h
  exact ⟨hsize, by omega, hflags.symm⟩

theorem mulIntoRegister_wf {l r : Fpn} {p : Fpn × Nat} (hl : l.wf = true) (h : mulIntoRegister l r = .ok p) :
    p.1.wf = true := by
  obtain ⟨h1, -, -, -⟩ := fpn_wf_iff.mp hl
  unfold mulIntoRegister at h
  split at h
  · cases h
  · next hfit =>
    obtain ⟨hsize, hdec, hflags⟩ := mul_format h1 h
    exact fpn_wf_iff.mpr ⟨by omega, hsize ▸ Nat.le_of_not_gt hfit, hdec, hflags⟩

/-! ### What the division engines answer -/

/-- A division's result as `spec/10_state.md` R36, R37 and `spec/43_division.md` R191, R203 allow it: a value that fits
a register, a final state, from 1 to 5 passes. -/
def divResultOk (r : DivResult) : Prop :=
  r.quotient.wf = true ∧ (r.state = .converged ∨ r.state = .exhausted) ∧ 1 ≤ r.iterations ∧ r.iterations ≤ 5

theorem mdivLoop_ok {n : Nat} {one : Fpn} {passes : Nat} {r : DivResult} : ∀ {f ai bi : Fpn} {cost made : Nat},
    ai.wf = true → ai.size = n → 1 ≤ made + passes → made + passes ≤ 5 →
    mdivLoop n one passes f ai bi cost made = .ok r → divResultOk r := by
  induction passes with
  | zero =>
    intro f ai bi cost made hwf hn h1 h5 h
    rw [← Except.ok.inj h]
    exact ⟨hwf, .inr rfl, h1, h5⟩
  | succ passes ih =>
    intro f ai bi cost made hwf hn h1 h5 h
    obtain ⟨hpos, hle, -, -⟩ := fpn_wf_iff.mp hwf
    simp only [mdivLoop, except_bind_eq_ok] at h
    obtain ⟨pa, hpa, pb, -, ai', hai', bi', -, h⟩ := h
    obtain ⟨-, hdec, hflags⟩ := mul_format hpos hpa
    have hwf' : ai'.wf = true := trunc_wf (by omega) hdec hflags hai'
    split at h
    · rw [← Except.ok.inj h]
      exact ⟨hwf', .inl rfl, by simp only; omega, by simp only; omega⟩
    · exact ih hwf' (trunc_size hai') (by omega) (by omega) h

theorem mdiv_ok {a b : Fpn} {r : DivResult} (ha : a.wf = true) (h : mdiv a b = .ok r) : divResultOk r := by
  unfold mdiv at h
  split at h
  · cases h
  · exact mdivLoop_ok ha rfl (by decide) (by decide) h

theorem rdivLoop_ok {W : Nat} {q : ℚ} {passes : Nat} {r : DivResult} (hW : W ≤ 65535) :
    ∀ {x y : Fpn} {cost made : Nat}, x.wf = true → 1 ≤ made + passes → made + passes ≤ 5 →
    rdivLoop W q passes x y cost made = .ok r → divResultOk r := by
  induction passes with
  | zero =>
    intro x y cost made hwf h1 h5 h
    rw [← Except.ok.inj h]
    exact ⟨hwf, .inr rfl, h1, h5⟩
  | succ passes ih =>
    intro x y cost made hwf h1 h5 h
    simp only [rdivLoop, except_bind_eq_ok] at h
    obtain ⟨px, hpx, py, -, x', hx', y', -, h⟩ := h
    obtain ⟨-, hdec, hflags⟩ := mul_format (fpn_wf_iff.mp hwf).1 hpx
    have hwf' : x'.wf = true := resize_wf hW hdec hflags hx'
    split at h
    · rw [← Except.ok.inj h]
      exact ⟨hwf', .inl rfl, by simp only; omega, by simp only; omega⟩
    · exact ih hwf' (by omega) (by omega) h

/-- R196: normalisation moves the dividend's decimal index inside the value, and keeps its flags. -/
theorem normalise_fst {a b : Fpn} {ab : Fpn × Fpn} (h : normalise a b = .ok ab) :
    ab.1.decimal ≤ ab.1.size ∧ ab.1.overflow = a.overflow ∧ ab.1.carryin = a.carryin := by
  unfold normalise at h
  simp only at h
  split at h
  · cases h
  · next hroom =>
    rw [← Except.ok.inj h]
    refine ⟨?_, rfl, rfl⟩
    show Int.toNat _ ≤ a.size
    omega

theorem rdiv_ok {a b : Fpn} {r : DivResult} (ha : a.wf = true) (hb : b.wf = true) (h : rdiv a b = .ok r) :
    divResultOk r := by
  obtain ⟨-, hsa, -, hflags⟩ := fpn_wf_iff.mp ha
  obtain ⟨-, hsb, -, -⟩ := fpn_wf_iff.mp hb
  have hW : max a.size b.size ≤ 65535 := by omega
  unfold rdiv at h
  split at h
  · cases h
  · simp only [except_bind_eq_ok] at h
    obtain ⟨ab, hab, x, hx, y, -, h⟩ := h
    obtain ⟨hdec, ho, hc⟩ := normalise_fst hab
    exact rdivLoop_ok hW (resize_wf hW hdec (by rw [ho, hc, hflags]) hx) (by decide) (by decide) h

/-! ### The invariant under the updates of the state -/

/-- Settles O11. -/
theorem resetMeetsInvariant : Obligations.ResetMeetsInvariant where
  registers := fun r x h => by rw [State.reset_get] at h; cases h
  status := ⟨by decide, by decide, .inl ⟨by decide, by decide⟩⟩
  fcmd := fun _ => rfl
  results := ⟨Nat.zero_le _, Nat.zero_le _, Nat.zero_le _⟩
  buf := rfl

section
variable {s : State}

theorem Inv.wf_of_get (h : Inv s) {r : Reg} {x : Fpn} (hx : s.v.get r = some x) : x.wf = true := h.registers r x hx

theorem Inv.popHost (h : Inv s) : Inv s.popHost := ⟨h.registers, h.status, h.fcmd, h.results, h.buf⟩

theorem Inv.setReg (h : Inv s) (r : Reg) {x : Fpn} (hx : x.wf = true) : Inv (s.setReg r x) where
  registers := fun r' y hy => by
    rw [State.setReg_get] at hy
    split at hy
    · rw [← Option.some.inj hy]; exact hx
    · exact h.registers r' y hy
  status := h.status
  fcmd := h.fcmd
  results := h.results
  buf := h.buf

/-- No clause of the invariant speaks of `COST`. -/
theorem Inv.withCost (h : Inv s) (c : Nat) : Inv { s with cost := c } :=
  ⟨h.registers, h.status, h.fcmd, h.results, h.buf⟩

theorem Inv.setQ (h : Inv s) {n : Nat} (hn : n ≤ Config.wmax + 1) : Inv (s.setQ n) where
  registers := h.registers
  status := h.status
  fcmd := h.fcmd
  results := by
    obtain ⟨-, hd, hm⟩ := h.results
    exact ⟨(Nat.mod_le _ _).trans hn, hd, hm⟩
  buf := h.buf

theorem Inv.setRR (h : Inv s) {p : RealPair} (hd : p.d ≤ Config.wmax) (hm : p.m.natAbs ≤ 2 ^ (Config.wmax - 1)) :
    Inv (s.setRR p) :=
  ⟨h.registers, h.status, h.fcmd, ⟨h.results.1, hd, hm⟩, h.buf⟩

/-- A fault entry leaves `DIVSTATE` and `DIVITER`, and the faulted state allows any `FCMD`. -/
theorem Inv.takeFault (h : Inv s) (k : FaultKind) (w : Word) : Inv (takeFault k w s) where
  registers := h.registers
  status := by
    obtain ⟨hres, -, hdiv⟩ := h.status
    simpa [statusOk, k.code_le_six] using And.intro hres hdiv
  fcmd := fun hf => by simp at hf
  results := h.results
  buf := h.buf

theorem Inv.setDiv (h : Inv s) {st : DivState} {n : Nat} (hst : st = .converged ∨ st = .exhausted) (h1 : 1 ≤ n)
    (h5 : n ≤ 5) : Inv (s.setDiv st n) where
  registers := h.registers
  status := by
    obtain ⟨hres, hcode, -⟩ := h.status
    have hn : (BitVec.ofNat 8 n).toNat = n := by rw [BitVec.toNat_ofNat]; omega
    have hdiv : st.code = 2#2 ∨ st.code = 3#2 := by rcases hst with rfl | rfl <;> decide
    refine ⟨by simpa using hres, by simpa using hcode, .inr ⟨by simpa using hdiv, ?_⟩⟩
    rw [State.setDiv_diviter, hn]
    exact ⟨h1, h5⟩
  fcmd := fun hf => h.fcmd (by simpa using hf)
  results := h.results
  buf := h.buf

theorem Inv.withBuf (h : Inv s) {m : List Host.Cell} (hm : Memory.wf m = true) : Inv { s with buf := m } :=
  ⟨h.registers, h.status, h.fcmd, h.results, hm⟩

theorem Inv.memWrite (h : Inv s) {t : State} {a : Nat} {bs : List Byte} (hw : s.memWrite a bs = .ok t) : Inv t := by
  obtain ⟨hr, rfl⟩ := State.memWrite_eq_ok.mp hw
  exact h.withBuf (Memory.wf_writeBytes bs hr h.buf)

theorem Inv.hostWrite (h : Inv s) (a : BitVec 16) (b : Byte) : Inv (hostWrite a b s) :=
  h.withBuf (Memory.wf_write a.isLt h.buf)

/-- A reset leaves what `State.reset` holds but for the model's own fields, of which the invariant does not speak. -/
theorem inv_hostReset (s : State) : Inv (hostReset s) :=
  ⟨resetMeetsInvariant.registers, resetMeetsInvariant.status, resetMeetsInvariant.fcmd, resetMeetsInvariant.results,
    resetMeetsInvariant.buf⟩

/-! ### The invariant under the shapes of a command -/

theorem Inv.complete (h : Inv s) {i : Instr} {t : State} {r : Except FaultKind State} (hr : ∀ u, r = .ok u → Inv u)
    (ht : complete i s r = .next t) : Inv t := by
  rcases complete_next ht with hok | ⟨k, -, rfl⟩
  · exact hr t hok
  · exact h.takeFault k _

theorem Inv.convert (h : Inv s) {rd rs1 : Reg} {f : Fpn → Except FaultKind Fpn}
    (hf : ∀ x y, x.wf = true → f x = .ok y → y.wf = true) (u : State) (hu : convert rd rs1 f s = .ok u) : Inv u := by
  obtain ⟨x, y, hx, hy, rfl⟩ := convert_eq_ok.mp hu
  exact h.setReg rd (hf x y (h.wf_of_get hx) hy)

theorem Inv.query (h : Inv s) {rs1 : Reg} {f : Fpn → Nat} (hf : ∀ x, x.wf = true → f x ≤ Config.wmax + 1) (u : State)
    (hu : query rs1 f s = .ok u) : Inv u := by
  obtain ⟨x, hx, rfl⟩ := query_eq_ok.mp hu
  exact h.setQ (hf x (h.wf_of_get hx))

theorem Inv.arith (h : Inv s) {rd rs1 rs2 : Reg} {f : Fpn → Fpn → Except FaultKind (Fpn × Nat)}
    (hf : ∀ l r p, l.wf = true → r.wf = true → f l r = .ok p → p.1.wf = true) (u : State)
    (hu : arith rd rs1 rs2 f s = .ok u) : Inv u := by
  obtain ⟨l, r, p, hl, hr, hp, rfl⟩ := arith_eq_ok.mp hu
  exact (h.setReg rd (hf l r p (h.wf_of_get hl) (h.wf_of_get hr) hp)).withCost _

theorem Inv.divide (h : Inv s) {rd rs1 rs2 : Reg} {f : Fpn → Fpn → Except FaultKind DivResult}
    (hf : ∀ a b r, a.wf = true → b.wf = true → f a b = .ok r → divResultOk r) (u : State)
    (hu : divide rd rs1 rs2 f s = .ok u) : Inv u := by
  obtain ⟨a, b, r, ha, hb, hr, rfl⟩ := divide_eq_ok.mp hu
  obtain ⟨hq, hst, h1, h5⟩ := hf a b r (h.wf_of_get ha) (h.wf_of_get hb) hr
  exact ((h.setReg rd hq).withCost _).setDiv hst h1 h5

/-! ### The invariant under the commands of a shape of their own -/

theorem execNew_inv (h : Inv s) {rd : Reg} {size dec : BitVec 16} {t : State}
    (ht : execNew rd size dec s = .next t) : Inv t := by
  refine h.complete (fun u hu => ?_) ht
  obtain ⟨x, hx, hu⟩ := except_bind_eq_ok.mp hu
  rw [← Except.ok.inj hu]
  exact h.setReg rd (newValue_wf (by omega) hx)

theorem execLdstr_inv (h : Inv s) {rd : Reg} {addr len : BitVec 16} {t : State}
    (ht : execLdstr rd addr len s = .next t) : Inv t := by
  refine h.complete (fun u hu => ?_) ht
  simp only [except_bind_eq_ok] at hu
  obtain ⟨text, htext, p, hp, hu⟩ := hu
  have htlen : text.length = len.toNat := by rw [(State.memRead_eq_ok.mp htext).2]; simp
  obtain ⟨h1, hlen, hd⟩ := parse_bounds hp
  rw [← Except.ok.inj hu]
  exact h.setReg rd (fpn_wf_plain h1 (by omega) hd)

theorem execAsgstr_inv (h : Inv s) {rd : Reg} {addr len : BitVec 16} {t : State}
    (ht : execAsgstr rd addr len s = .next t) : Inv t := by
  refine h.complete (fun u hu => ?_) ht
  simp only [except_bind_eq_ok, State.readReg_eq_ok] at hu
  obtain ⟨old, hold, text, -, p, hp, x, hx, hu⟩ := hu
  obtain ⟨h1, h2, -, -⟩ := fpn_wf_iff.mp (h.wf_of_get hold)
  obtain ⟨-, -, hd⟩ := parse_bounds hp
  rw [← Except.ok.inj hu]
  exact h.setReg rd (assignValue_wf h1 h2 hd hx)

theorem execCompl_inv (h : Inv s) {rd : Reg} {t : State} (ht : execCompl rd s = .next t) : Inv t := by
  refine h.complete (fun u hu => ?_) ht
  simp only [except_bind_eq_ok, State.readReg_eq_ok] at hu
  obtain ⟨x, hx, hu⟩ := hu
  rw [← Except.ok.inj hu]
  exact (h.setReg rd (complement_wf (h.wf_of_get hx))).withCost _

/-- R34: the two's complement reading of a value of at most `WMAX` bits fits `RR`. -/
theorem sint_natAbs_le {x : Fpn} (h : x.wf = true) : (sint x).natAbs ≤ 2 ^ (Config.wmax - 1) := by
  obtain ⟨h1, h2, -, -⟩ := fpn_wf_iff.mp h
  obtain ⟨hlo, hhi⟩ := sint_bounds h1
  have hsize : (sint x).natAbs ≤ 2 ^ (x.size - 1) := by
    zify
    exact abs_le.mpr ⟨hlo, hhi.le⟩
  exact hsize.trans (Nat.pow_le_pow_right (by decide) (Nat.sub_le_sub_right h2 1))

theorem execToreal_inv (h : Inv s) {rs1 : Reg} {t : State} (ht : execToreal rs1 s = .next t) : Inv t := by
  refine h.complete (fun u hu => ?_) ht
  simp only [except_bind_eq_ok, State.readReg_eq_ok] at hu
  obtain ⟨x, hx, hu⟩ := hu
  have hwf := h.wf_of_get hx
  obtain ⟨-, h2, hd, -⟩ := fpn_wf_iff.mp hwf
  rw [← Except.ok.inj hu]
  exact h.setRR (hd.trans h2) (sint_natAbs_le hwf)

theorem execStstr_inv (h : Inv s) {rs1 : Reg} {addr : BitVec 16} {t : State}
    (ht : execStstr rs1 addr s = .next t) : Inv t := by
  refine h.complete (fun u hu => ?_) ht
  simp only [except_bind_eq_ok, State.readReg_eq_ok] at hu
  obtain ⟨x, hx, u', hw, hu⟩ := hu
  obtain ⟨-, h2, -, -⟩ := fpn_wf_iff.mp (h.wf_of_get hx)
  rw [← Except.ok.inj hu]
  exact (h.memWrite hw).setQ (Nat.succ_le_succ h2)

/-- A flag or a truth value in `Q` is 0 or 1. -/
theorem bool_toNat_le_wmax_succ (b : Bool) : b.toNat ≤ Config.wmax + 1 := (Bool.toNat_le b).trans (by decide)

theorem execEq_inv (h : Inv s) {rs1 rs2 : Reg} {t : State} (ht : execEq rs1 rs2 s = .next t) : Inv t := by
  refine h.complete (fun u hu => ?_) ht
  simp only [except_bind_eq_ok] at hu
  obtain ⟨a, -, b, -, hu⟩ := hu
  rw [← Except.ok.inj hu]
  exact h.setQ (bool_toNat_le_wmax_succ _)

theorem execFa_inv (h : Inv s) {a b c : Bool} {t : State} (ht : execFa a b c s = .next t) : Inv t := by
  refine h.complete (fun u hu => ?_) ht
  have ha := Bool.toNat_le a
  have hb := Bool.toNat_le b
  have hc := Bool.toNat_le c
  rw [← Except.ok.inj hu, fa_sum]
  exact h.setQ (by simp only [Config.wmax]; omega)

theorem execClrcost_inv (h : Inv s) {t : State} (ht : execClrcost s = .next t) : Inv t := by
  refine h.complete (fun u hu => ?_) ht
  rw [← Except.ok.inj hu]
  exact h.withCost 0

/-- Every command keeps the invariant. -/
theorem exec_inv (h : Inv s) {i : Instr} {t : State} (ht : exec i s = .next t) : Inv t := by
  cases i with
  | new rd size dec => exact execNew_inv h ht
  | setint rd imm =>
    refine h.complete (h.convert fun x y hx hy => ?_) ht
    rw [← Except.ok.inj hy]
    exact intValue_wf imm hx
  | ldstr rd addr len => exact execLdstr_inv h ht
  | asgstr rd addr len => exact execAsgstr_inv h ht
  | mov rd rs1 => exact h.complete (h.convert fun x y hx hy => Except.ok.inj hy ▸ hx) ht
  | compl rd => exact execCompl_inv h ht
  | shl rd n => exact h.complete (h.convert fun x y hx hy => Except.ok.inj hy ▸ shl_wf _ hx) ht
  | shr rd n => exact h.complete (h.convert fun x y hx hy => Except.ok.inj hy ▸ shr_wf _ hx) ht
  | setdig rd index bit => exact h.complete (h.convert fun x y hx hy => setDigit_wf hx hy) ht
  | setdec rd dec => exact h.complete (h.convert fun x y hx hy => setDecimal_wf hx hy) ht
  | resize rd rs1 n =>
    refine h.complete (h.convert fun x y hx hy => ?_) ht
    obtain ⟨-, -, hd, hflags⟩ := fpn_wf_iff.mp hx
    exact resize_wf (by omega) hd hflags hy
  | pad rd rs1 n => exact h.complete (h.convert fun x y hx hy => pad_wf (by omega) hx hy) ht
  | trunc rd rs1 n =>
    refine h.complete (h.convert fun x y hx hy => ?_) ht
    obtain ⟨-, -, hd, hflags⟩ := fpn_wf_iff.mp hx
    exact trunc_wf (by omega) hd hflags hy
  | size rs1 => exact h.complete (h.query fun x hx => Nat.le_succ_of_le (fpn_wf_iff.mp hx).2.1) ht
  | decidx rs1 =>
    refine h.complete (h.query fun x hx => ?_) ht
    obtain ⟨-, h2, hd, -⟩ := fpn_wf_iff.mp hx
    exact Nat.le_succ_of_le (hd.trans h2)
  | ovf rs1 => exact h.complete (h.query fun x _ => bool_toNat_le_wmax_succ _) ht
  | cin rs1 => exact h.complete (h.query fun x _ => bool_toNat_le_wmax_succ _) ht
  | truncf rs1 => exact h.complete (h.query fun x _ => bool_toNat_le_wmax_succ _) ht
  | toreal rs1 => exact execToreal_inv h ht
  | ststr rs1 addr => exact execStstr_inv h ht
  | eq rs1 rs2 => exact execEq_inv h ht
  | fa a b c => exact execFa_inv h ht
  | add rd rs1 rs2 =>
    exact h.complete (h.arith fun l r p hl hr hp => Except.ok.inj hp ▸ add_wf hl hr) ht
  | sub rd rs1 rs2 =>
    exact h.complete (h.arith fun l r p hl hr hp => Except.ok.inj hp ▸ sub_wf hl hr) ht
  | mul rd rs1 rs2 => exact h.complete (h.arith fun l r p hl _ hp => mulIntoRegister_wf hl hp) ht
  | mdiv rd rs1 rs2 => exact h.complete (h.divide fun a b r ha _ hr => mdiv_ok ha hr) ht
  | rdiv rd rs1 rs2 => exact h.complete (h.divide fun a b r ha hb hr => rdiv_ok ha hb hr) ht
  | clrcost => exact execClrcost_inv h ht

theorem runWord_inv (h : Inv s) {w : Word} {t : State} (ht : runWord w s = .next t) : Inv t := by
  rcases runWord_cases ht with ⟨-, rfl⟩ | ⟨i, -, he⟩ | rfl
  · exact h
  · exact exec_inv h he
  · exact h.takeFault .illegalCommand w

end

/-- Settles O12: each of the host's actions keeps the invariant. -/
theorem stepKeepsInvariant : Obligations.StepKeepsInvariant := by
  intro s t h ht
  rcases step_cases ht with ⟨-, rfl⟩ | ⟨rest, -, rfl⟩ | ⟨a, b, rest, -, rfl⟩ | ⟨w, rest, -, hw⟩ | ⟨rest, -, rfl⟩
  · exact h
  · exact h.popHost
  · exact h.popHost.hostWrite a b
  · exact runWord_inv h.popHost hw
  · exact inv_hostReset s.popHost

end Sys2Proof.Machine
end
section
/-! SUPPORT. Family Memory (`spec/20_memory.md`): what a command does to the bytes of `BUF`. -/

namespace Sys2Proof.Machine

/-- What a command does to a byte of `BUF` (R51, R118): nothing, or it is an `STSTR` with a written source and the byte
is one of its display text. -/
theorem exec_bufByte_cases {i : Instr} {s t : State} (h : exec i s = .next t) (a : Nat) :
    t.bufByte a = s.bufByte a ∨
      ∃ rs1 addr x, i = .ststr rs1 addr ∧ s.v.get rs1 = some x ∧
        addr.toNat ≤ a ∧ a < addr.toNat + (display x).length := by
  rcases exec_cases i s t h with ⟨k, rfl⟩ | ⟨r, x, c, -, -, -, -, rfl⟩ | ⟨r, x, c, st, k, -, -, -, rfl⟩ |
    ⟨r, x, -, rfl⟩ | ⟨n, -, rfl⟩ | ⟨p, -, rfl⟩ | ⟨rs1, addr, x, u, hi, hx, hu, rfl⟩ | ⟨-, rfl⟩
  case inr.inr.inr.inr.inr.inr.inl =>
    by_cases ha : addr.toNat ≤ a ∧ a < addr.toNat + (display x).length
    · exact .inr ⟨rs1, addr, x, hi, hx, ha⟩
    · exact .inl (State.memWrite_bufByte_other hu ha)
  all_goals exact .inl rfl

/-- Settles O17: a byte that a command changes lies in the text of an `STSTR`. -/
theorem frameOfBuf : Obligations.FrameOfBuf := by
  intro i s t a h hout
  rcases exec_bufByte_cases h a with hsame | ⟨rs1, addr, x, hi, hx, hin⟩
  · exact hsame
  · exact absurd hin (hout rs1 addr x hi hx)

end Sys2Proof.Machine
end
section
/-! SUPPORT. Family Encoding (`spec/30_encoding.md`): decoding inverts encoding, encoding inverts decoding, and the
decoder by fields agrees with the table of R70. The last two rest on one fact about the decoder: an assigned opcode
has a format, and the word decodes exactly when the fields which that format does not use are 0. -/

namespace Sys2Proof

/-! ### Encoding, then decoding -/

/-- Parts of the widths of their fields are read back from a packed word (R66). -/
theorem decode_pack (op : BitVec 8) (rd rs1 rs2 : Reg) (immA immB : BitVec 16) :
    decode (pack op.toNat rd rs1 rs2 immA.toNat immB.toNat) =
      decodeFields ⟨op, .ofFin rd, .ofFin rs1, .ofFin rs2, 0#12, immA, immB⟩ := by
  rw [decode, fields_pack op.isLt rd.isLt rs1.isLt rs2.isLt immA.isLt immB.isLt]
  simp

theorem imm32_toNat (f : Fields) : (imm32 f).toNat = f.immA.toNat * 2 ^ 16 + f.immB.toNat := by
  have hA := f.immA.isLt
  have hB := f.immB.isLt
  rw [imm32, BitVec.toNat_ofNat]
  omega

theorem toNat_high_half (x : BitVec 32) : (x.extractLsb' 16 16).toNat = x.toNat / 2 ^ 16 := by
  have := x.isLt
  rw [BitVec.extractLsb'_toNat, Nat.shiftRight_eq_div_pow]
  omega

theorem toNat_low_half (x : BitVec 32) : (x.extractLsb' 0 16).toNat = x.toNat % 2 ^ 16 := by simp

/-- R68: `imm32` is its high and its low half. -/
theorem imm32_eq_of_halves {f : Fields} {x : BitVec 32} (hA : f.immA = x.extractLsb' 16 16)
    (hB : f.immB = x.extractLsb' 0 16) : imm32 f = x := by
  apply BitVec.eq_of_toNat_eq
  rw [imm32_toNat, hA, hB, toNat_high_half, toNat_low_half]
  omega

theorem decode_encode_setint (rd : Reg) (imm : BitVec 32) :
    decode (encode (.setint rd imm)) = .ok (.setint rd imm) := by
  rw [encode, ← toNat_high_half, ← toNat_low_half]
  refine (decode_pack 0x02 rd 0 0 _ _).trans ?_
  exact congrArg (fun x => Except.ok (Instr.setint rd x)) (imm32_eq_of_halves rfl rfl)

theorem decode_encode_fa (a b c : Bool) : decode (encode (.fa a b c)) = .ok (.fa a b c) := by
  cases a <;> cases b <;> cases c <;> decide

/-- Settles O1: the packed fields of a command are those its format uses, and the decoder reads them back. -/
theorem encodeThenDecodeIsIdentity : Obligations.EncodeThenDecodeIsIdentity := by
  intro i
  cases i with
  | new rd size dec => exact decode_pack 0x01 rd 0 0 size dec
  | setint rd imm => exact decode_encode_setint rd imm
  | ldstr rd addr len => exact decode_pack 0x03 rd 0 0 addr len
  | asgstr rd addr len => exact decode_pack 0x04 rd 0 0 addr len
  | mov rd rs1 => exact decode_pack 0x05 rd rs1 0 0 0
  | compl rd => exact decode_pack 0x08 rd 0 0 0 0
  | shl rd n => exact decode_pack 0x09 rd 0 0 0 n
  | shr rd n => exact decode_pack 0x0A rd 0 0 0 n
  | setdig rd index bit => exact decode_pack 0x0B rd 0 0 index bit
  | setdec rd dec => exact decode_pack 0x0C rd 0 0 0 dec
  | resize rd rs1 n => exact decode_pack 0x0D rd rs1 0 0 n
  | pad rd rs1 n => exact decode_pack 0x0E rd rs1 0 0 n
  | trunc rd rs1 n => exact decode_pack 0x0F rd rs1 0 0 n
  | size rs1 => exact decode_pack 0x10 0 rs1 0 0 0
  | decidx rs1 => exact decode_pack 0x11 0 rs1 0 0 0
  | ovf rs1 => exact decode_pack 0x12 0 rs1 0 0 0
  | cin rs1 => exact decode_pack 0x13 0 rs1 0 0 0
  | truncf rs1 => exact decode_pack 0x14 0 rs1 0 0 0
  | toreal rs1 => exact decode_pack 0x15 0 rs1 0 0 0
  | ststr rs1 addr => exact decode_pack 0x16 0 rs1 0 addr 0
  | eq rs1 rs2 => exact decode_pack 0x17 0 rs1 rs2 0 0
  | fa a b c => exact decode_encode_fa a b c
  | add rd rs1 rs2 => exact decode_pack 0x21 rd rs1 rs2 0 0
  | sub rd rs1 rs2 => exact decode_pack 0x22 rd rs1 rs2 0 0
  | mul rd rs1 rs2 => exact decode_pack 0x23 rd rs1 rs2 0 0
  | mdiv rd rs1 rs2 => exact decode_pack 0x24 rd rs1 rs2 0 0
  | rdiv rd rs1 rs2 => exact decode_pack 0x25 rd rs1 rs2 0 0
  | clrcost => exact decode_pack 0x30 0 0 0 0 0

/-! ### Formats (R67) -/

/-- The formats of R67; those with the same unused fields, `DAI` and `DW`, are one. -/
inductive Format where
  | dai | ds | d | di | dsi | s | sa | ss | b | dss | n

/-- R69: the fields that a format does not use are 0. -/
def Format.unusedZero : Format → Fields → Bool
  | .dai => unusedDAI
  | .ds => unusedDS
  | .d => unusedD
  | .di => unusedDI
  | .dsi => unusedDSI
  | .s => unusedS
  | .sa => unusedSA
  | .ss => unusedSS
  | .b => unusedB
  | .dss => unusedDSS
  | .n => unusedN

/-- The format of an opcode (R67, R70). -/
def formatOf (op : BitVec 8) : Option Format :=
  match op.toNat with
  | 0x01 => some .dai
  | 0x02 => some .dai
  | 0x03 => some .dai
  | 0x04 => some .dai
  | 0x05 => some .ds
  | 0x08 => some .d
  | 0x09 => some .di
  | 0x0A => some .di
  | 0x0B => some .dai
  | 0x0C => some .di
  | 0x0D => some .dsi
  | 0x0E => some .dsi
  | 0x0F => some .dsi
  | 0x10 => some .s
  | 0x11 => some .s
  | 0x12 => some .s
  | 0x13 => some .s
  | 0x14 => some .s
  | 0x15 => some .s
  | 0x16 => some .sa
  | 0x17 => some .ss
  | 0x20 => some .b
  | 0x21 => some .dss
  | 0x22 => some .dss
  | 0x23 => some .dss
  | 0x24 => some .dss
  | 0x25 => some .dss
  | 0x30 => some .n
  | _ => none

/-- The three bits of `immB` that `FA` uses, the others 0 (R68). -/
def faBits (x : BitVec 16) : BitVec 16 := BitVec.ofNat 16 (packFa (x.getLsbD 0) (x.getLsbD 1) (x.getLsbD 2))

/-- The fields with those that the format does not use set to 0. -/
def Format.clear : Format → Fields → Fields
  | .dai, f => { f with rs1 := 0, rs2 := 0, zero := 0 }
  | .ds, f => { f with rs2 := 0, zero := 0, immA := 0, immB := 0 }
  | .d, f => { f with rs1 := 0, rs2 := 0, zero := 0, immA := 0, immB := 0 }
  | .di, f => { f with rs1 := 0, rs2 := 0, zero := 0, immA := 0 }
  | .dsi, f => { f with rs2 := 0, zero := 0, immA := 0 }
  | .s, f => { f with rd := 0, rs2 := 0, zero := 0, immA := 0, immB := 0 }
  | .sa, f => { f with rd := 0, rs2 := 0, zero := 0, immB := 0 }
  | .ss, f => { f with rd := 0, zero := 0, immA := 0, immB := 0 }
  | .b, f => { f with rd := 0, rs1 := 0, rs2 := 0, zero := 0, immA := 0, immB := faBits f.immB }
  | .dss, f => { f with zero := 0, immA := 0, immB := 0 }
  | .n, f => { f with rd := 0, rs1 := 0, rs2 := 0, zero := 0, immA := 0, immB := 0 }

/-- The mask of the rows of R70 that have the format, field by field: the opcode and all that the format
does not use. -/
def Format.mask : Format → Fields
  | .dai => ⟨.allOnes 8, 0, .allOnes 4, .allOnes 4, .allOnes 12, 0, 0⟩
  | .ds => ⟨.allOnes 8, 0, 0, .allOnes 4, .allOnes 12, .allOnes 16, .allOnes 16⟩
  | .d => ⟨.allOnes 8, 0, .allOnes 4, .allOnes 4, .allOnes 12, .allOnes 16, .allOnes 16⟩
  | .di => ⟨.allOnes 8, 0, .allOnes 4, .allOnes 4, .allOnes 12, .allOnes 16, 0⟩
  | .dsi => ⟨.allOnes 8, 0, 0, .allOnes 4, .allOnes 12, .allOnes 16, 0⟩
  | .s => ⟨.allOnes 8, .allOnes 4, 0, .allOnes 4, .allOnes 12, .allOnes 16, .allOnes 16⟩
  | .sa => ⟨.allOnes 8, .allOnes 4, 0, .allOnes 4, .allOnes 12, 0, .allOnes 16⟩
  | .ss => ⟨.allOnes 8, .allOnes 4, 0, 0, .allOnes 12, .allOnes 16, .allOnes 16⟩
  | .b => ⟨.allOnes 8, .allOnes 4, .allOnes 4, .allOnes 4, .allOnes 12, .allOnes 16, 0xFFF8⟩
  | .dss => ⟨.allOnes 8, 0, 0, 0, .allOnes 12, .allOnes 16, .allOnes 16⟩
  | .n => ⟨.allOnes 8, .allOnes 4, .allOnes 4, .allOnes 4, .allOnes 12, .allOnes 16, .allOnes 16⟩

/-- R69: with `immB[15:3]` zero, `immB` is its three low bits. -/
theorem faBits_eq_self {x : BitVec 16} (h : x.extractLsb' 3 13 = 0#13) : faBits x = x := by
  have hlt : x.toNat < 8 := by
    have hhigh := congrArg BitVec.toNat h
    rw [BitVec.extractLsb'_toNat, Nat.shiftRight_eq_div_pow, BitVec.toNat_ofNat] at hhigh
    have := x.isLt
    omega
  obtain ⟨n, rfl⟩ : ∃ n : Fin 8, x = BitVec.ofNat 16 n := ⟨⟨x.toNat, hlt⟩, by simp⟩
  revert n
  decide

/-- Clearing the unused fields changes nothing where they are 0. -/
theorem Format.clear_eq_self {fmt : Format} {f : Fields} (h : fmt.unusedZero f = true) : fmt.clear f = f := by
  obtain ⟨op, rd, rs1, rs2, zero, immA, immB⟩ := f
  cases fmt
  case b =>
    simp only [Format.unusedZero, unusedB, Bool.and_eq_true, beq_iff_eq] at h
    obtain ⟨⟨⟨⟨⟨rfl, rfl⟩, rfl⟩, rfl⟩, rfl⟩, himm⟩ := h
    simp [Format.clear, faBits_eq_self himm]
  all_goals
    simp_all [Format.unusedZero, Format.clear, unusedDAI, unusedDS, unusedD, unusedDI, unusedDSI, unusedS, unusedSA,
      unusedSS, unusedDSS, unusedN]

/-- `immB[15:3]` survives the mask of `FA`. -/
theorem faImm_high_of_masked {x : BitVec 16} (h : x &&& 0xFFF8#16 = 0#16) : x.extractLsb' 3 13 = 0#13 := by
  have hhigh : x.extractLsb' 3 13 &&& BitVec.allOnes 13 = 0#13 := by
    simpa [BitVec.extractLsb'_and] using congrArg (BitVec.extractLsb' 3 13) h
  rwa [BitVec.and_allOnes] at hhigh

/-- A word of which the mask of a format leaves only the opcode has the fields 0 that the format does not use. -/
theorem Format.unusedZero_of_masked {fmt : Format} {w m : Word} {op : BitVec 8} (hm : fields m = fmt.mask)
    (h : fields (w &&& m) = ⟨op, 0, 0, 0, 0, 0, 0⟩) : (fields w).op = op ∧ fmt.unusedZero (fields w) = true := by
  rw [fields_and, hm, Fields.mk.injEq] at h
  obtain ⟨hop, hrd, hrs1, hrs2, hzero, hA, hB⟩ := h
  cases fmt <;> simp only [Format.mask, BitVec.and_allOnes] at hop hrd hrs1 hrs2 hzero hA hB <;> refine ⟨hop, ?_⟩
  case b => simp [Format.unusedZero, unusedB, hrd, hrs1, hrs2, hzero, hA, faImm_high_of_masked hB]
  case dai => simp [Format.unusedZero, unusedDAI, hrs1, hrs2, hzero]
  case ds => simp [Format.unusedZero, unusedDS, hrs2, hzero, hA, hB]
  case d => simp [Format.unusedZero, unusedD, hrs1, hrs2, hzero, hA, hB]
  case di => simp [Format.unusedZero, unusedDI, hrs1, hrs2, hzero, hA]
  case dsi => simp [Format.unusedZero, unusedDSI, hrs2, hzero, hA]
  case s => simp [Format.unusedZero, unusedS, hrd, hrs2, hzero, hA, hB]
  case sa => simp [Format.unusedZero, unusedSA, hrd, hrs2, hzero, hB]
  case ss => simp [Format.unusedZero, unusedSS, hrd, hzero, hA, hB]
  case dss => simp [Format.unusedZero, unusedDSS, hzero, hA, hB]
  case n => simp [Format.unusedZero, unusedN, hrd, hrs1, hrs2, hzero, hA, hB]

/-! ### What the decoder does -/

/-- R66: the word of the fields, `zero` left out. -/
def Fields.toWord (f : Fields) : Word :=
  pack f.op.toNat f.rd.toNat f.rs1.toNat f.rs2.toNat f.immA.toNat f.immB.toNat

theorem toWord_toNat (f : Fields) : f.toWord.toNat = f.op.toNat * 2 ^ 56 + f.rd.toNat * 2 ^ 52 + f.rs1.toNat * 2 ^ 48 +
    f.rs2.toNat * 2 ^ 44 + f.immA.toNat * 2 ^ 16 + f.immB.toNat :=
  pack_toNat f.op.isLt f.rd.isLt f.rs1.isLt f.rs2.isLt f.immA.isLt f.immB.isLt

theorem toWord_fields {w : Word} (h : (fields w).zero = 0#12) : (fields w).toWord = w := by
  have hzero : (fields w).zero.toNat = 0 := congrArg BitVec.toNat h
  apply BitVec.eq_of_toNat_eq
  rw [toWord_toNat, word_toNat w, hzero]
  omega

theorem Format.clear_zero (fmt : Format) (f : Fields) : (fmt.clear f).zero = 0#12 := by cases fmt <;> rfl

theorem whenUnusedZero_eq_ok {ok : Bool} {i j : Instr} : whenUnusedZero ok i = .ok j ↔ ok = true ∧ i = j := by
  cases ok <;> simp [whenUnusedZero]

theorem encode_setint_imm32 (rd : Reg) (f : Fields) :
    encode (.setint rd (imm32 f)) = pack 0x02 rd 0 0 f.immA.toNat f.immB.toNat := by
  have hB := f.immB.isLt
  rw [encode, imm32_toNat]
  congr 1 <;> omega

theorem faBits_toNat (x : BitVec 16) :
    (faBits x).toNat = packFa (x.getLsbD 0) (x.getLsbD 1) (x.getLsbD 2) := by
  rw [faBits, BitVec.toNat_ofNat, Nat.mod_eq_of_lt (packFa_lt _ _ _)]

/-- An opcode without a format is unassigned (R72). -/
theorem decodeFields_of_no_format {f : Fields} (h : formatOf f.op = none) :
    decodeFields f = .error .unassignedOpcode := by
  unfold decodeFields
  split
  case h_29 => rfl
  all_goals
    rename_i hop
    rw [formatOf, hop] at h
    cases h

/-- What the decoder does with an assigned opcode (R67 to R69): it answers a command when the unused fields are 0, and
that command is encoded by the used fields alone. -/
theorem decodeFields_of_format {f : Fields} {fmt : Format} (h : formatOf f.op = some fmt) :
    ∃ i, decodeFields f = whenUnusedZero (fmt.unusedZero f) i ∧ encode i = (fmt.clear f).toWord := by
  unfold formatOf at h
  split at h
  case h_29 => cases h
  all_goals
    rename_i hop
    obtain rfl := Option.some.inj h
    rw [decodeFields, hop]
    refine ⟨_, rfl, ?_⟩
    simp only [Format.clear, Fields.toWord, hop]
  -- `SETINT` and `FA` alone encode an operand that is not a field as it stands.
  case h_2 => exact encode_setint_imm32 _ f
  case h_22 => rw [faBits_toNat]; rfl
  all_goals rfl

/-- Settles O2: the used fields encode the command, and the others are 0. -/
theorem decodeThenEncodeIsIdentity : Obligations.DecodeThenEncodeIsIdentity := by
  intro w i h
  cases hfmt : formatOf (fields w).op with
  | none => rw [decode, decodeFields_of_no_format hfmt] at h; cases h
  | some fmt =>
    obtain ⟨j, hdec, henc⟩ := decodeFields_of_format hfmt
    obtain ⟨hzero, rfl⟩ := whenUnusedZero_eq_ok.mp (hdec.symm.trans h)
    have hclear := Format.clear_eq_self hzero
    rw [henc, hclear]
    exact toWord_fields (hclear ▸ fmt.clear_zero (fields w))

/-! ### The table of R70 -/

/-- Every row of R70 is an assigned opcode with the mask of its format. -/
theorem opcodeTable_formats : ∀ r ∈ opcodeTable,
    (formatOf (fields r.bits).op).map Format.mask = some (fields r.mask) ∧
      fields r.bits = ⟨(fields r.bits).op, 0, 0, 0, 0, 0, 0⟩ := by
  decide

theorem opcodeTable_opcodes_nodup : (opcodeTable.map (fun r => (fields r.bits).op)).Nodup := by decide

/-- A word that matches a row has the row's opcode and decodes. -/
theorem accepts_decodes {r : OpRow} {w : Word} (hr : r ∈ opcodeTable) (h : r.accepts w = true) :
    (fields w).op = (fields r.bits).op ∧ ∃ i, decode w = .ok i := by
  obtain ⟨hformat, hbits⟩ := opcodeTable_formats r hr
  obtain ⟨fmt, hfmt, hmask⟩ := Option.map_eq_some_iff.mp hformat
  obtain ⟨hop, hzero⟩ := Format.unusedZero_of_masked hmask.symm (((accepts_iff r w).mp h).trans hbits)
  obtain ⟨i, hdec, -⟩ := decodeFields_of_format (hop ▸ hfmt)
  exact ⟨hop, i, hdec.trans (whenUnusedZero_eq_ok.mpr ⟨hzero, rfl⟩)⟩

/-- The word of every command matches the row with its mnemonic. -/
theorem matchesRow (i : Instr) : Laws.MatchesRow.Statement i := by
  cases i with
  | new rd size dec => exact Laws.MatchesRow.new rd size dec
  | setint rd imm => exact Laws.MatchesRow.setint rd imm
  | ldstr rd addr len => exact Laws.MatchesRow.ldstr rd addr len
  | asgstr rd addr len => exact Laws.MatchesRow.asgstr rd addr len
  | mov rd rs1 => exact Laws.MatchesRow.mov rd rs1
  | compl rd => exact Laws.MatchesRow.compl rd
  | shl rd n => exact Laws.MatchesRow.shl rd n
  | shr rd n => exact Laws.MatchesRow.shr rd n
  | setdig rd index bit => exact Laws.MatchesRow.setdig rd index bit
  | setdec rd dec => exact Laws.MatchesRow.setdec rd dec
  | resize rd rs1 n => exact Laws.MatchesRow.resize rd rs1 n
  | pad rd rs1 n => exact Laws.MatchesRow.pad rd rs1 n
  | trunc rd rs1 n => exact Laws.MatchesRow.trunc rd rs1 n
  | size rs1 => exact Laws.MatchesRow.size rs1
  | decidx rs1 => exact Laws.MatchesRow.decidx rs1
  | ovf rs1 => exact Laws.MatchesRow.ovf rs1
  | cin rs1 => exact Laws.MatchesRow.cin rs1
  | truncf rs1 => exact Laws.MatchesRow.truncf rs1
  | toreal rs1 => exact Laws.MatchesRow.toreal rs1
  | ststr rs1 addr => exact Laws.MatchesRow.ststr rs1 addr
  | eq rs1 rs2 => exact Laws.MatchesRow.eq rs1 rs2
  | fa a b c => exact Laws.MatchesRow.fa a b c
  | add rd rs1 rs2 => exact Laws.MatchesRow.add rd rs1 rs2
  | sub rd rs1 rs2 => exact Laws.MatchesRow.sub rd rs1 rs2
  | mul rd rs1 rs2 => exact Laws.MatchesRow.mul rd rs1 rs2
  | mdiv rd rs1 rs2 => exact Laws.MatchesRow.mdiv rd rs1 rs2
  | rdiv rd rs1 rs2 => exact Laws.MatchesRow.rdiv rd rs1 rs2
  | clrcost => exact Laws.MatchesRow.clrcost

/-- A word that decodes matches the row with the mnemonic of its command, because it is the word of that command. -/
theorem decode_matchesRow {w : Word} {i : Instr} (h : decode w = .ok i) :
    ∃ r ∈ opcodeTable, r.mnemonic = i.mnemonic ∧ r.accepts w = true := by
  rw [← decodeThenEncodeIsIdentity w i h]
  exact matchesRow i

/-- R72: the words that decode are the legal ones. -/
theorem decode_ok_iff_legalWord (w : Word) : (∃ i, decode w = .ok i) ↔ legalWord w = true := by
  rw [legalWord, List.any_eq_true]
  constructor
  · rintro ⟨i, h⟩
    obtain ⟨r, hr, -, hacc⟩ := decode_matchesRow h
    exact ⟨r, hr, hacc⟩
  · rintro ⟨r, hr, hacc⟩
    exact (accepts_decodes hr hacc).2

/-- No word matches two rows: a matched row has the word's opcode, and the table has every opcode once. -/
theorem filter_accepts_eq_singleton {r : OpRow} {w : Word} (hr : r ∈ opcodeTable) (h : r.accepts w = true) :
    opcodeTable.filter (fun r => r.accepts w) = [r] := by
  have hnodup : opcodeTable.Nodup := opcodeTable_opcodes_nodup.of_map _
  have honly : ∀ r' ∈ opcodeTable, r'.accepts w = (r' == r) := by
    intro r' hr'
    rw [Bool.eq_iff_iff, beq_iff_eq]
    constructor
    · intro h'
      exact List.inj_on_of_nodup_map opcodeTable_opcodes_nodup hr' hr
        ((accepts_decodes hr' h').1.symm.trans (accepts_decodes hr h).1)
    · rintro rfl
      exact h
  rw [List.filter_congr honly, List.filter_beq, List.count_eq_one_of_mem hnodup hr, List.replicate_one]

/-- Settles O3: legal words are those that decode, and the one row of a word is that of its command. -/
theorem decoderAgreesWithOpcodeTable : Obligations.DecoderAgreesWithOpcodeTable := by
  intro w
  refine ⟨decode_ok_iff_legalWord w, fun i h => ?_⟩
  obtain ⟨r, hr, hmn, hacc⟩ := decode_matchesRow h
  rw [filter_accepts_eq_singleton hr hacc, List.map_singleton, hmn]

/-- Settles O4, by running the decoder on the words of R77. -/
theorem workedWordsDecode : Obligations.WorkedWordsDecode := by
  unfold Obligations.WorkedWordsDecode
  decide

end Sys2Proof

namespace Sys2Proof.Machine

/-! ### A presented word that is no command -/

theorem runWord_of_illegal {s : State} {w : Word} (hf : s.faulted = false) (hw : legalWord w = false) :
    runWord w s = .next (takeFault .illegalCommand w s) := by
  cases hdec : decode w with
  | ok i => exact absurd ((decode_ok_iff_legalWord w).mp ⟨i, hdec⟩) (by simp [hw])
  | error e => simp [runWord, hf, hdec]

/-- Settles O6: the fault entry alone happens (R246). -/
theorem illegalWordRaisesIllegalCommand : Obligations.IllegalWordRaisesIllegalCommand := by
  intro s w rest hhost hf hw
  refine ⟨takeFault .illegalCommand w s.popHost, ?_, ?_⟩
  · rw [step_present hhost]
    exact runWord_of_illegal hf hw
  · simp [hhost, FaultKind.code]

/-! ### Pseudo-instructions (R76) -/

theorem exec_mov {s : State} {rs1 : Reg} {x : Fpn} (rd : Reg) (h : s.v.get rs1 = some x) :
    exec (.mov rd rs1) s = .next (s.setReg rd x) := by
  have hok : convert rd rs1 .ok s = .ok (s.setReg rd x) := convert_eq_ok.mpr ⟨x, x, h, rfl, rfl⟩
  rw [exec, execMov, hok, complete_ok]

theorem exec_compl {s : State} {rd : Reg} {x : Fpn} (h : s.v.get rd = some x) :
    exec (.compl rd) s = .next ((s.setReg rd (complement x).1).addCost x.size) := by
  rw [exec, execCompl, State.readReg_some h, except_ok_bind, complete_ok, complement_cost]

/-- R95: the size and the decimal index that `NEW` accepts. -/
theorem newValue_ok {size dec : Nat} (hs : 0 < size) (hd : dec ≤ size) :
    newValue size dec = .ok (Fpn.plain dec (List.replicate size false)) :=
  if_neg (by omega)

theorem exec_new {size dec : BitVec 16} (s : State) (rd : Reg) (hs : 0 < size.toNat) (hd : dec.toNat ≤ size.toNat) :
    exec (.new rd size dec) s = .next (s.setReg rd (Fpn.plain dec.toNat (List.replicate size.toNat false))) := by
  rw [exec, execNew, newValue_ok hs hd, except_ok_bind, complete_ok]

theorem exec_setint {s : State} {rd : Reg} {old : Fpn} (imm : BitVec 32) (h : s.v.get rd = some old) :
    exec (.setint rd imm) s = .next (s.setReg rd (intValue old imm)) := by
  have hok : convert rd rd (fun old => .ok (intValue old imm)) s = .ok (s.setReg rd (intValue old imm)) :=
    convert_eq_ok.mpr ⟨old, _, h, rfl, rfl⟩
  rw [exec, execSetint, hok, complete_ok]

/-- The second of two writes of one register stands. -/
@[simp] theorem State.setReg_setReg (s : State) (r : Reg) (x y : Fpn) : (s.setReg r x).setReg r y = s.setReg r y := by
  simp [State.setReg]

@[simp] theorem intValue_size (old : Fpn) (imm : BitVec 32) : (intValue old imm).size = old.size := by
  simp [intValue, intBits]

/-- R96: the integer is placed at the radix point, modulo the size. -/
theorem intValue_uint (old : Fpn) (imm : BitVec 32) :
    (uint (intValue old imm) : Int) = imm.toInt * 2 ^ old.decimal % 2 ^ old.size := by
  have hpos : (0 : Int) < 2 ^ old.size := by positivity
  have hnonneg := Int.emod_nonneg (imm.toInt * 2 ^ old.decimal) hpos.ne'
  rw [intValue, uint_plain, intBits, bitsToNat_natToBits, Int.natCast_mod, Int.toNat_of_nonneg hnonneg, Nat.cast_pow,
    Nat.cast_ofNat, Int.emod_emod]

/-- Settles O32: the second command reads what the first has written. -/
theorem pseudoInstructionsExpand : Obligations.PseudoInstructionsExpand := by
  intro s rd rs1 size dec imm x
  constructor
  · intro hx
    refine ⟨_, _, _, _, (complement x).1, rfl, exec_mov rd hx, exec_compl (State.setReg_get_same s rd x), ?_, rfl,
      complement_size x, complement_uint x⟩
    rw [State.setReg_setReg]
  · intro hs hd
    refine ⟨_, _, _, _, intValue (Fpn.plain dec.toNat (List.replicate size.toNat false)) imm, rfl,
      exec_new s rd hs hd, exec_setint imm (State.setReg_get_same s rd _), ?_, ?_, rfl, ?_⟩
    · rw [State.setReg_setReg]
    · simp
    · simpa [Fpn.plain] using intValue_uint (Fpn.plain dec.toNat (List.replicate size.toNat false)) imm

end Sys2Proof.Machine
end
section
/-! SUPPORT. Family Number representation (`spec/40_number_representation.md`): the numbers that bits stand for under
the in-place mutators and the width changes, texts in and out, and the queries. The real value of a result comes from
one of three facts about the two's-complement reading: it is pinned by its range and its residue, sign extension at the
top keeps it, and zero bits at the low end multiply it. -/

namespace Sys2Proof.Machine

/-! ### The two's-complement reading (R11) -/

theorem sint_emod (v : Fpn) : sint v % 2 ^ v.size = (uint v : Int) := by
  have hlt : (uint v : Int) < 2 ^ v.size := by exact_mod_cast uint_lt v
  rw [sint, Int.sub_mul_emod_self_right, Int.emod_eq_of_lt (by positivity) hlt]

/-- `sint` is the only number in the range of two's complement with the residue of the pattern. -/
theorem sint_eq_of_emod {v : Fpn} {m : Int} (h : 1 ≤ v.size) (hlo : -2 ^ (v.size - 1) ≤ m) (hhi : m < 2 ^ (v.size - 1))
    (hm : m % 2 ^ v.size = (uint v : Int)) : sint v = m := by
  obtain ⟨hlo', hhi'⟩ := sint_bounds h
  have hpow : (2 : Int) ^ v.size = 2 ^ (v.size - 1) * 2 := by rw [← pow_succ]; congr 1; omega
  have hmod : m ≡ sint v [ZMOD 2 ^ v.size] := hm.trans (sint_emod v).symm
  have hzero : sint v - m = 0 := Int.eq_zero_of_abs_lt_dvd hmod.dvd (by rw [abs_lt]; constructor <;> omega)
  omega

/-- Bits added at the low end, all 0, multiply the reading. -/
theorem sint_scaled {v w : Fpn} {k : Nat} (hs : w.size = v.size + k) (hu : uint w = uint v * 2 ^ k)
    (hsign : sign w = sign v) : sint w = sint v * 2 ^ k := by
  simp only [sint, hs, hu, hsign, pow_add]
  push_cast
  ring

/-- Bits cut at the low end divide the reading, toward minus infinity. -/
theorem sint_cut {v w : Fpn} {k : Nat} (hs : v.size = w.size + k) (hu : uint w = uint v / 2 ^ k)
    (hsign : sign w = sign v) : sint w = sint v / 2 ^ k := by
  have hv : sint v = (uint v : Int) - ((sign v).toNat : Int) * 2 ^ w.size * 2 ^ k := by
    rw [sint, hs, pow_add, mul_assoc]
  rw [hv, Int.sub_mul_ediv_right _ _ (by positivity), sint, hu, hsign]
  push_cast
  rfl

/-! ### The operand shapes with a written source -/

theorem complete_convert_ok {i : Instr} {rd rs1 : Reg} {f : Fpn → Except FaultKind Fpn} {s : State} {x y : Fpn}
    (hx : s.v.get rs1 = some x) (hf : f x = .ok y) : complete i s (convert rd rs1 f s) = .next (s.setReg rd y) := by
  rw [convert_eq_ok.mpr ⟨x, y, hx, hf, rfl⟩, complete_ok]

theorem complete_convert_error {i : Instr} {rd rs1 : Reg} {f : Fpn → Except FaultKind Fpn} {s : State} {x : Fpn}
    {k : FaultKind} (hx : s.v.get rs1 = some x) (hf : f x = .error k) :
    complete i s (convert rd rs1 f s) = .next (takeFault k (encode i) s) := by
  rw [convert_eq_error.mpr (.inr ⟨x, hx, hf⟩), complete_error]

theorem complete_query {i : Instr} {rs1 : Reg} {f : Fpn → Nat} {s : State} {x : Fpn} (hx : s.v.get rs1 = some x) :
    complete i s (query rs1 f s) = .next (s.setQ (f x)) := by
  rw [query_eq_ok.mpr ⟨x, hx, rfl⟩, complete_ok]

/-! ### Construction and copy -/

theorem newValue_error {size dec : Nat} (h : size = 0 ∨ dec > size) : newValue size dec = .error .invalidArgument :=
  if_pos h

/-- Settles O25: the two clauses are the two branches of `newValue`. -/
theorem newWritesZeros : Obligations.NewWritesZeros := by
  intro s rd size dec
  refine ⟨by simp [encode, pack], fun hs hd => ?_, fun hbad => ?_⟩
  · exact ⟨_, exec_new s rd hs hd, by simp, rfl, by simp, rfl, rfl, rfl⟩
  · rw [exec, execNew, newValue_error hbad, except_error_bind, complete_error]

/-- Settles O26: an integer that fits lies, moved to the radix point, in the range of two's complement. -/
theorem setintPlacesIntegerAtRadixPoint : Obligations.SetintPlacesIntegerAtRadixPoint := by
  intro s rd imm old h
  refine ⟨intValue old imm, exec_setint imm h, intValue_size old imm, rfl, intValue_uint old imm, rfl, rfl, rfl, ?_⟩
  intro hd hlo hhi
  have hpow : (2 : Int) ^ (old.size - 1) = 2 ^ (old.size - old.decimal - 1) * 2 ^ old.decimal := by
    rw [← pow_add]; congr 1; omega
  have hsint : sint (intValue old imm) = imm.toInt * 2 ^ old.decimal := by
    apply sint_eq_of_emod
    · rw [intValue_size]; omega
    · rw [intValue_size, hpow, ← neg_mul]; gcongr
    · rw [intValue_size, hpow]; gcongr
    · rw [intValue_size, intValue_uint]
  have hdec : (intValue old imm).decimal = old.decimal := rfl
  rw [toReal, hsint, hdec]
  push_cast
  exact mul_div_cancel_right₀ _ (by positivity)

/-- Writing what a register holds changes nothing. -/
theorem State.setReg_self {s : State} {r : Reg} {x : Fpn} (h : s.v.get r = some x) : s.setReg r x = s := by
  have hset : s.v.set r.val (some x) r.isLt = s.v := by rw [← h]; exact Vector.set_getElem_self r.isLt
  rw [State.setReg, hset]

/-- Settles O29. -/
theorem movCopiesWholeValue : Obligations.MovCopiesWholeValue := by
  intro s rd rs1
  refine ⟨by simp [encode, pack], fun x hx => ⟨exec_mov rd hx, ?_⟩, fun hempty => ?_⟩
  · rw [exec_mov rs1 hx, State.setReg_self hx]
  · rw [exec, execMov, convert_eq_error.mpr (.inl ⟨hempty, rfl⟩), complete_error]

/-! ### In-place mutators -/

/-- Settles O30. -/
theorem complNegatesModuloTwoPowSize : Obligations.ComplNegatesModuloTwoPowSize := by
  intro s rd x hx
  exact ⟨(complement x).1, exec_compl hx, complement_size x, rfl, complement_uint x, rfl, rfl, rfl⟩

/-- Negation modulo `2^n` is its own inverse. -/
theorem neg_neg_mod_two_pow {u n : Nat} (h : u < 2 ^ n) : (2 ^ n - (2 ^ n - u) % 2 ^ n) % 2 ^ n = u := by
  rcases Nat.eq_zero_or_pos u with rfl | hu
  · simp
  · rw [Nat.mod_eq_of_lt (a := 2 ^ n - u) (by omega), Nat.sub_sub_self h.le, Nat.mod_eq_of_lt h]

theorem complement_complement (v : Fpn) : (complement (complement v).1).1 = v := by
  have huint : uint (complement (complement v).1).1 = uint v := by
    rw [complement_uint, complement_size, complement_uint, neg_neg_mod_two_pow (uint_lt v)]
  have hbits : (complement (complement v).1).1.bits = v.bits :=
    bits_ext ((complement_size _).trans (complement_size v)) huint
  calc (complement (complement v).1).1 = { v with bits := (complement (complement v).1).1.bits } := rfl
    _ = v := by rw [hbits]

/-- Settles O31: the complement is an involution that keeps the size. -/
theorem complTwiceRestoresValue : Obligations.ComplTwiceRestoresValue := by
  intro s rd x hx
  refine ⟨_, _, exec_compl hx, exec_compl (State.setReg_get_same s rd _), ?_, ?_⟩
  · rw [complement_complement, State.addCost_v, State.setReg_get_same]
  · simp only [State.addCost_cost, State.setReg_cost, complement_size]
    omega

theorem shl_bits (v : Fpn) (n : Nat) : (shl v n).bits = natToBits v.size (uint v * 2 ^ n) := by
  refine natToBits_of_forall (fun i _ => ?_)
  by_cases h : n ≤ i
  · simp [h, bitAt_eq_testBit, Nat.testBit_mul_two_pow]
  · simp [h, Nat.testBit_mul_two_pow]

theorem shr_bits (v : Fpn) (n : Nat) : (shr v n).bits = natToBits v.size (uint v / 2 ^ n) :=
  natToBits_of_forall (fun i _ => by rw [bitAt_eq_testBit, Nat.testBit_div_two_pow])

/-- Settles O33: the bits moved by their index are the bits of the product and of the quotient. -/
theorem shiftsAreLogical : Obligations.ShiftsAreLogical := by
  intro s rd n x hx
  constructor
  · refine ⟨shl x n.toNat, complete_convert_ok hx rfl, rfl, by simp [Fpn.size, shl_bits], ?_⟩
    rw [uint, shl_bits, bitsToNat_natToBits]
  · refine ⟨shr x n.toNat, complete_convert_ok hx rfl, rfl, by simp [Fpn.size, shr_bits], ?_⟩
    rw [uint, shr_bits, bitsToNat_natToBits]
    exact Nat.mod_eq_of_lt ((Nat.div_le_self _ _).trans_lt (uint_lt x))

theorem setDigit_ok {v : Fpn} {index bit : Nat} (hi : index < v.size) (hb : bit ≤ 1) :
    setDigit v index bit = .ok { v with bits := v.bits.set index (bit == 1) } :=
  if_neg (by omega)

theorem setDecimal_ok {v : Fpn} {dec : Nat} (h : dec ≤ v.size) : setDecimal v dec = .ok { v with decimal := dec } :=
  if_neg (by omega)

/-- The bits of a value after one of them is set. -/
theorem bitAt_set {v : Fpn} {index : Nat} (hi : index < v.size) (b : Bool) (j : Nat) :
    bitAt { v with bits := v.bits.set index b } j = if j = index then b else bitAt v j := by
  simp only [bitAt, List.getD_eq_getElem?_getD, List.getElem?_set]
  by_cases h : j = index
  · subst h
    have hj : j < v.bits.length := hi
    simp [hj]
  · simp [h, Ne.symm h]

/-- Settles O34. -/
theorem setdigAndSetdecChangeOnePart : Obligations.SetdigAndSetdecChangeOnePart := by
  intro s rd index bit dec x hx
  constructor
  · intro hi hb
    refine ⟨_, complete_convert_ok hx (setDigit_ok hi hb), rfl, by simp [Fpn.size], fun j => ?_⟩
    have hbit : (bit.toNat == 1) = (bit == 1#16) := by
      rw [Bool.eq_iff_iff, beq_iff_eq, beq_iff_eq, ← BitVec.toNat_inj]; rfl
    rw [bitAt_set hi, hbit]
  · intro hd
    refine ⟨_, complete_convert_ok hx (setDecimal_ok hd), rfl, ?_⟩
    have hsint : sint { x with decimal := dec.toNat } = sint x := rfl
    rw [toReal, hsint, toReal, div_mul_cancel₀ _ (by positivity)]

/-! ### Width changes -/

/-- The top bit is the same bit after low bits are cut. -/
theorem sign_cut {v w : Fpn} {k : Nat} (h : 1 ≤ w.size) (hs : v.size = w.size + k) (hu : uint w = uint v / 2 ^ k) :
    sign w = sign v := by
  have hidx : v.size - 1 = w.size - 1 + k := by omega
  rw [sign, sign, bitAt_eq_testBit, bitAt_eq_testBit, hu, Nat.testBit_div_two_pow, hidx]

/-- The top bit is the same bit after zero bits are put below. -/
theorem getD_top_replicate_append (k : Nat) (b : List Bool) :
    (List.replicate k false ++ b).getD (k + b.length - 1) false = b.getD (b.length - 1) false := by
  rcases Nat.eq_zero_or_pos b.length with hb | hb
  · rw [List.length_eq_zero_iff.mp hb, List.append_nil, List.getD_eq_getElem?_getD,
      List.getElem?_getD_replicate_default_eq]
    rfl
  · rw [List.getD_append_right _ _ _ _ (by rw [List.length_replicate]; omega), List.length_replicate]
    congr 1
    omega

/-- R109, R120 (e): zero bits at the low end, with as many fraction bits, keep the real value. -/
theorem toReal_padLow (d : Nat) (b : List Bool) (k : Nat) (o c t o' c' t' : Bool) :
    toReal ⟨d + k, List.replicate k false ++ b, o, c, t⟩ = toReal ⟨d, b, o', c', t'⟩ := by
  have hsint : sint ⟨d + k, List.replicate k false ++ b, o, c, t⟩ = sint ⟨d, b, o', c', t'⟩ * 2 ^ k := by
    apply sint_scaled
    · simp [Nat.add_comm]
    · rw [uint_mk, uint_mk, bitsToNat_append, bitsToNat_replicate_false, List.length_replicate, Nat.zero_add,
        Nat.mul_comm]
    · simpa [sign, bitAt] using getD_top_replicate_append k b
  simp only [toReal, hsint, pow_add]
  push_cast
  exact mul_div_mul_right _ _ (by positivity)

theorem resize_grow {v : Fpn} {N : Nat} (h0 : 0 < N) (h : v.size ≤ N) :
    resize v N = .ok { v with bits := v.bits ++ List.replicate (N - v.size) (sign v) } := by
  rw [resize, if_neg h0.ne', if_pos h]

/-- Settles O35. -/
theorem resizeGrowsBySignExtension : Obligations.ResizeGrowsBySignExtension := by
  intro s rd rs1 n x hx h0 hn
  have hok := resize_grow h0 hn
  exact ⟨_, complete_convert_ok hx hok, rfl, resize_size hok, toReal_signExtend ..⟩

/-- Settles O37. -/
theorem padKeepsRealValue : Obligations.PadKeepsRealValue := by
  intro s rd rs1 n x hx hn
  have hok := pad_eq_ok.mpr ⟨hn, rfl⟩
  exact ⟨_, complete_convert_ok hx hok, pad_size hok, rfl, pad_uint hok, rfl, rfl, rfl, toReal_padLow ..⟩

/-- R120 (f): a value whose low fraction bits are cut does not grow, and drops by less than one unit of the new last
place. -/
theorem toReal_cut_bounds {v w : Fpn} {k : Nat} (hd : v.decimal = w.decimal + k) (hs : sint w = sint v / 2 ^ k) :
    toReal w ≤ toReal v ∧ toReal v < toReal w + 1 / 2 ^ w.decimal := by
  have hk : (0 : Int) < 2 ^ k := by positivity
  have hlo : (sint w : ℚ) * 2 ^ k ≤ sint v := by rw [hs]; exact_mod_cast Int.ediv_mul_le (sint v) hk.ne'
  have hhi : (sint v : ℚ) < (sint w + 1) * 2 ^ k := by rw [hs]; exact_mod_cast Int.lt_ediv_add_one_mul_self (sint v) hk
  have hv : toReal v = (sint v : ℚ) / 2 ^ k / 2 ^ w.decimal := by
    rw [toReal, hd, pow_add, mul_comm, div_div]
  rw [hv, toReal, ← add_div]
  constructor
  · gcongr
    exact (le_div_iff₀ (by positivity)).mpr hlo
  · gcongr
    exact (div_lt_iff₀ (by positivity)).mpr hhi

/-- Settles O38. -/
theorem truncRoundsDown : Obligations.TruncRoundsDown := by
  intro s rd rs1 n x hx h0 hn hcut
  have hok := trunc_eq_ok.mpr ⟨h0, hn, hcut, rfl⟩
  have hsize := trunc_size hok
  have hdec := trunc_decimal hok
  have huint := trunc_uint hok
  have hsign := sign_cut (by omega) (by omega) huint
  obtain ⟨hlo, hhi⟩ := toReal_cut_bounds (by omega) (sint_cut (by omega) huint hsign)
  refine ⟨_, complete_convert_ok hx hok, hsize, hdec, huint, rfl, rfl, ?_, hlo, hhi⟩
  simp [truncatedBy]

/-! ### Leading zeros -/

theorem bitlength_le_iff {x k : Nat} : bitlength x ≤ k ↔ x < 2 ^ k := by
  unfold bitlength
  split
  · next h => simp [h]
  · next h => exact Nat.log2_lt h

theorem bitlength_div_two_pow (x d : Nat) : bitlength (x / 2 ^ d) = bitlength x - d := by
  apply eq_of_forall_ge_iff
  intro k
  rw [bitlength_le_iff, Nat.div_lt_iff_lt_mul (by positivity), ← pow_add, ← bitlength_le_iff, Nat.sub_le_iff_le_add]

/-- The bits above the leading 1 are the leading zeros. -/
theorem leadingZeros_add_bitlength (b : List Bool) : leadingZeros b + bitlength (bitsToNat b) = b.length := by
  induction b using List.reverseRecOn with
  | nil => rfl
  | append_singleton xs x ih =>
    cases x with
    | false =>
      have hz : leadingZeros (xs ++ [false]) = leadingZeros xs + 1 := by simp [leadingZeros]
      have hn : bitsToNat (xs ++ [false]) = bitsToNat xs := by simp [bitsToNat_append, bitsToNat_cons]
      rw [hz, hn, List.length_append, List.length_singleton]
      omega
    | true =>
      have hz : leadingZeros (xs ++ [true]) = 0 := by simp [leadingZeros]
      have hle : bitlength (bitsToNat (xs ++ [true])) ≤ xs.length + 1 :=
        bitlength_le_iff.mpr (by simpa using bitsToNat_lt (xs ++ [true]))
      have hgt : ¬ bitlength (bitsToNat (xs ++ [true])) ≤ xs.length := by
        rw [bitlength_le_iff, bitsToNat_append]
        simp [bitsToNat_cons]
      rw [hz, List.length_append, List.length_singleton]
      omega

/-- R105: the engine's count of trimmable zeros is the count of redundant zeros in words. -/
theorem redundantZeros_eq_trimmable {v : Fpn} (h : 1 ≤ v.size) (hd : v.decimal ≤ v.size) :
    redundantZeros v = trimmable v := by
  have hsum : leadingZeros v.bits + bitlength (uint v) = v.size := leadingZeros_add_bitlength v.bits
  have hsign : sign v = true ↔ ¬ bitlength (uint v) ≤ v.size - 1 := by
    rw [sign_eq_true_iff h, bitlength_le_iff, not_lt]
  rw [redundantZeros, trimmable, bitlength_div_two_pow]
  split
  · next hs => have := hsign.mp hs; omega
  · next hs => have := mt hsign.mpr hs; omega

/-- A pattern whose trimmable leading zeros are cut is the same number. -/
theorem bitsToNat_take_trimmed {v : Fpn} {t : Nat} (ht : t ≤ trimmable v) :
    bitsToNat (v.bits.take (v.size - t)) = uint v := by
  have hz := trimmable_le_leadingZeros v
  rw [bitsToNat_take]
  exact Nat.mod_eq_of_lt ((bitsToNat_lt_of_leadingZeros v.bits).trans_le
    (Nat.pow_le_pow_right (by norm_num) (Nat.sub_le_sub_left (by omega) _)))

/-- Below trimmed leading zeros stands another 0, so that the sign bit stays. -/
theorem testBit_top_trimmed {v : Fpn} {t : Nat} (ht : t ≤ trimmable v) :
    (uint v).testBit (v.size - t - 1) = sign v := by
  rw [sign, bitAt_eq_testBit]
  rcases Nat.eq_zero_or_pos t with rfl | hpos
  · rfl
  · have hz := trimmable_le_leadingZeros v
    have hlen := leadingZeros_le v.bits
    have hsmall : ∀ i, v.size - t - 1 ≤ i → (uint v).testBit i = false := fun i hi =>
      Nat.testBit_lt_two_pow ((bitsToNat_lt_of_leadingZeros v.bits).trans_le
        (Nat.pow_le_pow_right (by norm_num) (by unfold Fpn.size at hi; omega)))
    rw [hsmall _ le_rfl, hsmall _ (by omega)]

theorem resize_shrink_ok {v : Fpn} {N t e : Nat} (h0 : 0 < N) (h : N < v.size) (ht : t = min (v.size - N) (trimmable v))
    (he : e = v.size - N - t) (hd : e ≤ v.decimal) :
    resize v N = .ok { v with decimal := v.decimal - e, bits := (v.bits.take (v.size - t)).drop e,
                              truncated := truncatedBy v e } := by
  subst ht he
  rw [resize, if_neg h0.ne', if_neg (not_le.mpr h)]
  exact if_neg (not_lt.mpr hd)

theorem resize_shrink_error {v : Fpn} {N e : Nat} (h0 : 0 < N) (h : N < v.size)
    (he : e = v.size - N - min (v.size - N) (trimmable v)) (hd : e > v.decimal) :
    resize v N = .error .widthMismatch := by
  subst he
  rw [resize, if_neg h0.ne', if_neg (not_le.mpr h)]
  exact if_pos hd

/-- Settles O36: trimming keeps the number and the top bit, cutting divides. -/
theorem resizeShrinksByTrimmingThenCutting : Obligations.ResizeShrinksByTrimmingThenCutting := by
  intro s rd rs1 n x e hx hd h0 hn he
  rw [redundantZeros_eq_trimmable (by omega) hd] at he
  refine ⟨fun hle => ?_, fun hgt => complete_convert_error hx (resize_shrink_error h0 hn he hgt)⟩
  have hok := resize_shrink_ok h0 hn rfl he hle
  have hsize := resize_size hok
  have htrim : min (x.size - n.toNat) (trimmable x) ≤ trimmable x := min_le_right _ _
  have huint : bitsToNat ((x.bits.take (x.size - min (x.size - n.toNat) (trimmable x))).drop e) = uint x / 2 ^ e := by
    rw [bitsToNat_drop, bitsToNat_take_trimmed htrim]
  refine ⟨_, complete_convert_ok hx hok, hsize, rfl, huint, ?_, rfl, rfl, rfl⟩
  rw [sign, bitAt_eq_testBit, hsize, uint_mk, huint, Nat.testBit_div_two_pow, ← testBit_top_trimmed htrim]
  congr 1
  omega

/-! ### Texts in (R90, R97, R98) -/

theorem exec_ldstr_of_text {s : State} {addr len : BitVec 16} {t : List Byte} (rd : Reg) (hn : t.length = len.toNat)
    (hr : addr.toNat + len.toNat ≤ 65536) (hb : bufHolds s addr.toNat t) :
    exec (.ldstr rd addr len) s =
      complete (.ldstr rd addr len) s (do let p ← parse t; .ok (s.setReg rd (Fpn.plain p.1 p.2))) := by
  rw [exec, execLdstr, State.memRead_of_bufHolds hn hr hb, except_ok_bind]

theorem exec_asgstr_of_text {s : State} {rd : Reg} {addr len : BitVec 16} {t : List Byte} {old : Fpn}
    (h : s.v.get rd = some old) (hn : t.length = len.toNat) (hr : addr.toNat + len.toNat ≤ 65536)
    (hb : bufHolds s addr.toNat t) :
    exec (.asgstr rd addr len) s =
      complete (.asgstr rd addr len) s (do
        let p ← parse t
        let x ← assignValue old.size p
        .ok (s.setReg rd x)) := by
  rw [exec, execAsgstr, State.readReg_some h, except_ok_bind, State.memRead_of_bufHolds hn hr hb, except_ok_bind]

/-- R90: each of the three kinds of malformed text fails one of the checks of `parse`, or an earlier one. -/
theorem parse_malformed {t : List Byte}
    (h : (∃ c ∈ t, c ≠ chZero ∧ c ≠ chOne ∧ c ≠ chPoint) ∨ t.count chPoint ≥ 2 ∨ ∀ c ∈ t, c = chPoint) :
    parse t = .error .invalidArgument := by
  unfold parse
  split
  · rfl
  · next hforeign =>
    split
    · rfl
    · next hcount =>
      have hpoints : ∀ c ∈ t, c = chPoint := by
        rcases h with ⟨c, hc, hne⟩ | htwo | hall
        · exact absurd (List.any_eq_true.mpr ⟨c, hc, by simpa [and_assoc] using hne⟩) hforeign
        · omega
        · exact hall
      have hnone : t.filter (fun c => c != chPoint) = [] := List.filter_eq_nil_iff.mpr (by simpa using hpoints)
      simp [hnone]

/-- Settles O22. -/
theorem malformedTextRaisesInvalidArgument : Obligations.MalformedTextRaisesInvalidArgument := by
  intro s rd addr len t x hn hr hb hbad
  have hparse : parse t = .error .invalidArgument := parse_malformed hbad
  refine ⟨fun w => takeFault_faultCode _ w s, ?_, fun hx => ?_⟩
  · rw [exec_ldstr_of_text rd hn hr hb, hparse, except_error_bind, complete_error]
  · rw [exec_asgstr_of_text hx hn hr hb, hparse, except_error_bind, complete_error]

/-- Settles O27. -/
theorem ldstrLoadsDigits : Obligations.LdstrLoadsDigits := by
  intro s rd addr len l1 l2 hn hr hb hne
  rw [exec_ldstr_of_text rd hn hr hb, parse_digitText l1 l2 hne, except_ok_bind, complete_ok]
  rfl

theorem assignValue_ok {S : Nat} {p : Parsed} (h : p.2.length ≤ S) : assignValue S p =
    .ok (Fpn.plain p.1 (p.2 ++ List.replicate (S - p.2.length) (p.2.getD (p.2.length - 1) false))) :=
  if_neg (not_lt.mpr h)

theorem assignValue_error {S : Nat} {p : Parsed} (h : p.2.length > S) : assignValue S p = .error .widthMismatch :=
  if_pos h

/-- Settles O28: the digits of the text, extended with the first of them, which is the top bit of what they say. -/
theorem asgstrSignExtendsText : Obligations.AsgstrSignExtendsText := by
  intro s rd addr len l1 l2 old hx hn hr hb hne
  rw [exec_asgstr_of_text hx hn hr hb, parse_digitText l1 l2 hne, except_ok_bind, ← List.length_reverse]
  generalize (l1 ++ l2.getD []).reverse = b
  constructor
  · intro hfit
    rw [assignValue_ok hfit, except_ok_bind, complete_ok]
    refine ⟨_, rfl, ?_, rfl, List.take_left, toReal_signExtend .., rfl, rfl, rfl⟩
    rw [size_plain, List.length_append, List.length_replicate]
    exact Nat.add_sub_cancel' hfit
  · intro hlong
    rw [assignValue_error hlong, except_error_bind, complete_error]

/-! ### Texts out (R91, R118) -/

theorem exec_ststr {s : State} {rs1 : Reg} {addr : BitVec 16} {x : Fpn} (hx : s.v.get rs1 = some x)
    (hr : addr.toNat + (x.size + 1) ≤ 65536) :
    ∃ u, s.memWrite addr.toNat (display x) = .ok u ∧ exec (.ststr rs1 addr) s = .next (u.setQ (x.size + 1)) := by
  have hw := State.memWrite_eq_ok (s := s).mpr ⟨by rwa [display_length], rfl⟩
  refine ⟨_, hw, ?_⟩
  rw [exec, execStstr, State.readReg_some hx, except_ok_bind, hw, except_ok_bind, complete_ok]

/-- The byte of a text that was written, at its place in the text. -/
theorem State.memWrite_bufByte_of_getElem? {s u : State} {a k : Nat} {bs : List Byte} {b : Byte}
    (hw : s.memWrite a bs = .ok u) (hb : bs[k]? = some b) : u.bufByte (a + k) = b := by
  obtain ⟨hk, rfl⟩ := List.getElem?_eq_some_iff.mp hb
  exact State.memWrite_bufByte_inside hw hk

/-- The digits from the top bit down. -/
theorem digits_getElem? {v : Fpn} {i : Nat} (h : i < v.size) :
    (v.bits.reverse.map digitByte)[i]? = some (digitByte (bitAt v (v.size - 1 - i))) := by
  have hi : i < v.bits.length := h
  have hj : v.bits.length - 1 - i < v.bits.length := by omega
  rw [List.getElem?_map, List.getElem?_reverse hi, List.getElem?_eq_getElem hj, bitAt, Fpn.size,
    List.getD_eq_getElem _ _ hj, Option.map_some]

/-- The digits before the point are those of the integer bits. -/
theorem integerDigits_length (v : Fpn) :
    ((v.bits.reverse.map digitByte).take (v.size - v.decimal)).length = v.size - v.decimal := by
  simp [Fpn.size]

theorem display_getElem?_integer {v : Fpn} {k : Nat} (hk : k < v.size - v.decimal) :
    (display v)[k]? = some (digitByte (bitAt v (v.size - 1 - k))) := by
  rw [display, List.getElem?_append_left (by rwa [integerDigits_length]), List.getElem?_take_of_lt hk,
    digits_getElem? (by omega)]

theorem display_getElem?_point (v : Fpn) : (display v)[v.size - v.decimal]? = some chPoint := by
  rw [display, List.getElem?_append_right (integerDigits_length v).le, integerDigits_length, Nat.sub_self]
  rfl

theorem display_getElem?_fraction {v : Fpn} {k : Nat} (hd : v.decimal ≤ v.size) (hk : k < v.decimal) :
    (display v)[v.size - v.decimal + 1 + k]? = some (digitByte (bitAt v (v.decimal - 1 - k))) := by
  have hidx : v.size - v.decimal + 1 + k - (v.size - v.decimal) = k + 1 := by omega
  have hbit : v.size - 1 - (v.size - v.decimal + k) = v.decimal - 1 - k := by omega
  rw [display, List.getElem?_append_right (by rw [integerDigits_length]; omega), integerDigits_length, hidx,
    List.getElem?_cons_succ, List.getElem?_drop, digits_getElem? (by omega), hbit]

/-- Settles O41: the bytes of the display text by their place, and nothing outside them. -/
theorem ststrWritesDisplayText : Obligations.StstrWritesDisplayText := by
  intro s rs1 addr x hx hd hr
  obtain ⟨u, hw, hexec⟩ := exec_ststr hx hr
  refine ⟨_, hexec, ?_, fun k hk => ?_, ?_, fun k hk => ?_, fun a ha => State.memWrite_bufByte_other hw ha⟩
  · obtain ⟨-, rfl⟩ := State.memWrite_eq_ok.mp hw
    rfl
  · rw [State.setQ_bufByte]
    exact State.memWrite_bufByte_of_getElem? hw (display_getElem?_integer hk)
  · rw [State.setQ_bufByte]
    exact State.memWrite_bufByte_of_getElem? hw (display_getElem?_point x)
  · rw [State.setQ_bufByte, Nat.add_assoc, Nat.add_assoc, ← Nat.add_assoc (x.size - x.decimal)]
    exact State.memWrite_bufByte_of_getElem? hw (display_getElem?_fraction hd hk)

/-- Settles O42: the display text is a text of digits with one point, and it parses to the digits it shows. -/
theorem ststrThenLdstrRestoresValue : Obligations.StstrThenLdstrRestoresValue := by
  intro s rs1 rd addr len x hx h1 hd hlen hr
  obtain ⟨u, hw, hexec⟩ := exec_ststr hx (hlen ▸ hr)
  have hheld : bufHolds (u.setQ (x.size + 1)) addr.toNat (display x) := fun k hk =>
    State.memWrite_bufByte_inside hw hk
  have htext := (display_length x).trans hlen.symm
  rw [display_eq_digitText] at hheld htext
  refine ⟨_, hexec, ?_⟩
  have hbits : x.bits.reverse ≠ [] := by
    rw [← List.length_pos_iff, List.length_reverse]; exact h1
  rw [ldstrLoadsDigits _ rd addr len _ _ htext hr hheld (by simpa using hbits)]
  simp only [Option.getD_some, List.take_append_drop, List.reverse_reverse, List.length_drop, List.length_reverse]
  rw [← Fpn.size, Nat.sub_sub_self hd]

/-! ### Queries -/

theorem ofNat_toNat_bool (b : Bool) : BitVec.ofNat 64 b.toNat = if b then 1#64 else 0#64 := by cases b <;> rfl

/-- Settles O39. -/
theorem queriesWriteQ : Obligations.QueriesWriteQ := by
  intro s rs1 x hx
  refine ⟨?_, ?_, ?_, ?_, ?_, complete_query hx, complete_query hx, ?_, ?_, ?_⟩
  case refine_6 | refine_7 | refine_8 => rw [← ofNat_toNat_bool]; exact complete_query hx
  all_goals simp [encode, pack]

/-- Settles O40: the number is `sint`. -/
theorem torealWritesTwosComplementPair : Obligations.TorealWritesTwosComplementPair := by
  intro s rs1 x hx h1
  obtain ⟨hlo, hhi⟩ := sint_bounds h1
  refine ⟨sint x, ?_, hlo, hhi, sint_emod x⟩
  rw [exec, execToreal, State.readReg_some hx, except_ok_bind, complete_ok]
  rfl

/-! ### Equality of values of any two formats (R94) -/

/-- The bits of `v` at the `N` positions from weight `2^(-D)` up, in the words of R94. -/
def extBits (v : Fpn) (D N : Nat) : List Bool := (List.range N).map (fun k : Nat => ext v (-(D : Int) + k))

/-- The extended bits of a value: zeros below it, its own bits, its sign bit above it. -/
theorem extBits_eq {v : Fpn} {D N : Nat} (hD : v.decimal ≤ D) (hN : v.size + (D - v.decimal) ≤ N) :
    extBits v D N =
      List.replicate (D - v.decimal) false ++
        (v.bits ++ List.replicate (N - (v.size + (D - v.decimal))) (sign v)) := by
  have hs : v.size = v.bits.length := rfl
  apply List.ext_getElem
  · simp only [extBits, List.length_map, List.length_range, List.length_append, List.length_replicate]
    omega
  intro k hk _
  simp only [extBits, List.getElem_map, List.getElem_range, List.getElem_append, List.length_replicate,
    List.getElem_replicate, ext]
  by_cases hlow : k < D - v.decimal
  · rw [if_pos (by omega), dif_pos hlow]
  · rw [if_neg (by omega), dif_neg hlow]
    by_cases hmid : k - (D - v.decimal) < v.bits.length
    · have hidx : (-(D : Int) + k + v.decimal).toNat = k - (D - v.decimal) := by omega
      rw [if_pos (by omega), dif_pos hmid, hidx, bitAt, List.getD_eq_getElem _ _ hmid]
    · rw [if_neg (by omega), dif_neg hmid]

/-- A value with its bits extended reads the same. -/
theorem toReal_extBits {v : Fpn} {D N : Nat} (hD : v.decimal ≤ D) (hN : v.size + (D - v.decimal) ≤ N) :
    toReal (Fpn.plain D (extBits v D N)) = toReal v := by
  obtain ⟨k, rfl⟩ := Nat.exists_eq_add_of_le hD
  rw [extBits_eq hD hN, Nat.add_sub_cancel_left]
  exact (toReal_padLow v.decimal _ k false false false false false false).trans (toReal_signExtend ..)

/-- In one format, the real value determines the bits. -/
theorem toReal_plain_inj {D : Nat} {b c : List Bool} (hl : b.length = c.length) :
    toReal (Fpn.plain D b) = toReal (Fpn.plain D c) ↔ b = c := by
  refine ⟨fun h => bits_ext hl ?_, fun h => by rw [h]⟩
  have hpow : (2 : ℚ) ^ D ≠ 0 := by positivity
  have hsint : sint (Fpn.plain D b) = sint (Fpn.plain D c) := by exact_mod_cast (div_left_inj' hpow).mp h
  have hb := sint_emod (Fpn.plain D b)
  have hc := sint_emod (Fpn.plain D c)
  rw [size_plain, uint_plain] at hb hc
  rw [hsint, hl, hc] at hb
  exact_mod_cast hb.symm

/-- R94 compares the extended bits from the lower end of the two ranges to the higher end. -/
theorem equals_eq_true_iff_extBits {a b : Fpn} {D N : Nat} (hD : D = max a.decimal b.decimal)
    (hN : N = (max ((a.size : Int) - a.decimal) ((b.size : Int) - b.decimal) + D).toNat) :
    equals a b = true ↔ extBits a D N = extBits b D N := by
  have hlo : min (-(a.decimal : Int)) (-(b.decimal : Int)) = -(D : Int) := by omega
  rw [equals, hlo, sub_neg_eq_add, ← hN, extBits, extBits, List.map_inj_left, List.all_eq_true]
  simp only [beq_iff_eq]

/-- R94 decides equality of the real values: the two values are extended to one format that holds both. -/
theorem equals_eq_true_iff (a b : Fpn) : equals a b = true ↔ toReal a = toReal b := by
  obtain ⟨D, hD⟩ : ∃ D, D = max a.decimal b.decimal := ⟨_, rfl⟩
  obtain ⟨N, hN⟩ : ∃ N, N = (max ((a.size : Int) - a.decimal) ((b.size : Int) - b.decimal) + D).toNat := ⟨_, rfl⟩
  have ha : toReal (Fpn.plain D (extBits a D N)) = toReal a := toReal_extBits (by omega) (by omega)
  have hb : toReal (Fpn.plain D (extBits b D N)) = toReal b := toReal_extBits (by omega) (by omega)
  rw [equals_eq_true_iff_extBits hD hN, ← ha, ← hb, toReal_plain_inj (by simp [extBits])]

/-- Settles O43. -/
theorem eqIsEqualityOfRealValues : Obligations.EqIsEqualityOfRealValues := by
  intro s rs1 rs2 a b ha hb _ _
  rw [exec, execEq, State.readReg_some ha, except_ok_bind, State.readReg_some hb, except_ok_bind, complete_ok,
    State.setQ, ofNat_toNat_bool]
  simp only [equals_eq_true_iff]

end Sys2Proof.Machine
end
section
/-! SUPPORT. Family Full adder, add and subtract (`spec/41_full_adder_add_sub.md`): the aligned patterns of the common
format are the aligned readings, because that format has room for the integer bits of both operands. What `ADD` and
`SUB` write then follows from the laws of the ripple chain. -/

namespace Sys2Proof.Machine

/-! ### FA -/

/-- Settles O44: the cell adds its three bits (R140). -/
theorem faAddsThreeBits : Obligations.FaAddsThreeBits := by
  intro s a b c
  constructor
  · simp [encode, pack, packFa, Nat.add_assoc]
  · rw [exec, execFa, complete_ok, fa_sum, State.setQ]

/-! ### What ADD and SUB write, for two written sources -/

theorem complete_arith_ok {i : Instr} {rd rs1 rs2 : Reg} {f : Fpn → Fpn → Except FaultKind (Fpn × Nat)} {s : State}
    {l r : Fpn} {p : Fpn × Nat} (hl : s.v.get rs1 = some l) (hr : s.v.get rs2 = some r) (hf : f l r = .ok p) :
    complete i s (arith rd rs1 rs2 f s) = .next ((s.setReg rd p.1).addCost p.2) := by
  rw [arith_eq_ok.mpr ⟨l, r, p, hl, hr, hf, rfl⟩, complete_ok]

theorem exec_add {s : State} {rs1 rs2 : Reg} {l r : Fpn} (rd : Reg) (hl : s.v.get rs1 = some l)
    (hr : s.v.get rs2 = some r) :
    exec (.add rd rs1 rs2) s = .next ((s.setReg rd (add l r).1).addCost (add l r).2) :=
  complete_arith_ok hl hr rfl

theorem exec_sub {s : State} {rs1 rs2 : Reg} {l r : Fpn} (rd : Reg) (hl : s.v.get rs1 = some l)
    (hr : s.v.get rs2 = some r) :
    exec (.sub rd rs1 rs2) s = .next ((s.setReg rd (sub l r).1).addCost (sub l r).2) :=
  complete_arith_ok hl hr rfl

/-! ### The aligned operands as numbers -/

/-- R144, R147: where the width has room for the value's integer bits, the aligned pattern is the aligned reading. -/
theorem bitsToNat_alignBits {v : Fpn} {W D : Nat} (hd : v.decimal ≤ v.size) (hW : v.size - v.decimal + D ≤ W) :
    bitsToNat (alignBits v W D) = alignedNat v D := by
  rw [alignBits_uint, Nat.mod_eq_of_lt (align_fits hd hW), alignedNat]

/-- R143, as the statements spell the decimal index of the result. -/
theorem commonFormat_snd_eq {l r : Fpn} {W D : Nat} (hW : W = max l.size r.size)
    (hD : D = W - max (l.size - l.decimal) (r.size - r.decimal)) : (commonFormat l r).2 = D := by
  rw [commonFormat_snd, ← hW, hD]

/-- R143: the common format has room for the integer bits of both operands. -/
theorem alignBits_commonFormat {l r : Fpn} {W D : Nat} (hl : l.decimal ≤ l.size) (hr : r.decimal ≤ r.size)
    (hW : W = max l.size r.size) (hD : D = W - max (l.size - l.decimal) (r.size - r.decimal)) :
    bitsToNat (alignBits l W D) = alignedNat l D ∧ bitsToNat (alignBits r W D) = alignedNat r D :=
  ⟨bitsToNat_alignBits hl (by omega), bitsToNat_alignBits hr (by omega)⟩

/-- Alignment to its own decimal index does not move a value. -/
theorem alignedNat_self (v : Fpn) : alignedNat v v.decimal = uint v :=
  Nat.mul_div_cancel _ (by positivity)

/-- R145, R147: the sum bits and the carry of `add`. -/
theorem add_uint_overflow {l r : Fpn} {W D : Nat} (hl : l.decimal ≤ l.size) (hr : r.decimal ≤ r.size)
    (hW : W = max l.size r.size) (hD : D = W - max (l.size - l.decimal) (r.size - r.decimal)) :
    uint (add l r).1 = (alignedNat l D + alignedNat r D) % 2 ^ W ∧
      (add l r).1.overflow = decide (2 ^ W ≤ alignedNat l D + alignedNat r D) := by
  obtain ⟨el, er⟩ := alignBits_commonFormat hl hr hW hD
  have h := add_aligned l r
  rwa [commonFormat_snd_eq hW hD, ← hW, el, er] at h

/-- R149, R150: the difference bits and the carry of `sub`. -/
theorem sub_uint_overflow {l r : Fpn} {W D : Nat} (hl : l.decimal ≤ l.size) (hr : r.decimal ≤ r.size)
    (hW : W = max l.size r.size) (hD : D = W - max (l.size - l.decimal) (r.size - r.decimal)) :
    uint (sub l r).1 = (alignedNat l D + 2 ^ W - alignedNat r D) % 2 ^ W ∧
      (sub l r).1.overflow = (decide (0 < alignedNat r D) && decide (alignedNat r D ≤ alignedNat l D)) := by
  obtain ⟨el, er⟩ := alignBits_commonFormat hl hr hW hD
  exact sub_aligned l r hW (commonFormat_snd_eq hW hD).symm el.symm er.symm

/-- Settles O45, from the ripple chain over the aligned readings. -/
theorem addIsModularSumOfAlignedOperands : Obligations.AddIsModularSumOfAlignedOperands := by
  intro s rd rs1 rs2 l r W D hx hy hl hr hW hD
  obtain ⟨hsum, hcarry⟩ := add_uint_overflow hl hr hW hD
  refine ⟨(add l r).1, ?_, ?_, ?_, hsum, hcarry, add_carryin l r, ?_⟩
  · rw [exec_add rd hx hy, add_cost, hW]
  · rw [add_size, hW]
  · rw [add_decimal, commonFormat_snd_eq hW hD]
  · rw [add_truncated, commonFormat_snd_eq hW hD]

/-- Settles O46, from the ripple chain over the minuend and the complemented subtrahend. -/
theorem subIsModularDifferenceOfAlignedOperands : Obligations.SubIsModularDifferenceOfAlignedOperands := by
  intro s rd rs1 rs2 l r W D hx hy hl hr hW hD
  obtain ⟨hdiff, hcarry⟩ := sub_uint_overflow hl hr hW hD
  refine ⟨(sub l r).1, ?_, ?_, ?_, hdiff, hcarry, sub_carryin l r, ?_⟩
  · rw [exec_sub rd hx hy, sub_cost, hW]
  · rw [sub_size, hW]
  · rw [sub_decimal, commonFormat_snd_eq hW hD]
  · rw [sub_truncated, commonFormat_snd_eq hW hD]

/-! ### ADD commutes (R151 (b)) -/

theorem fa_comm (a b c : Bool) : fa a b c = fa b a c := by
  rw [fa, fa, Bool.xor_comm a b, Bool.and_comm a b]

theorem ripple_comm : ∀ (x y : List Bool) (c : Bool), ripple x y c = ripple y x c
  | [], [], _ | [], _ :: _, _ | _ :: _, [], _ => rfl
  | a :: xs, b :: ys, c => by simp only [ripple, fa_comm a b c, ripple_comm xs ys]

theorem commonFormat_comm (l r : Fpn) : commonFormat l r = commonFormat r l := by
  rw [commonFormat, commonFormat, max_comm l.size, max_comm (l.size - l.decimal)]

/-- The whole answer of `add`, flags and cost included, does not depend on the order of the operands. -/
theorem add_comm_operands (l r : Fpn) : add l r = add r l := by
  simp only [add, align, commonFormat_comm l r, ripple_comm (alignBits l _ _), Bool.or_comm (dropsLow l _)]

/-- Settles O47: both orders compute one answer. -/
theorem addCommutes : Obligations.AddCommutes := by
  intro s rd rs1 rs2 l r hl hr
  exact ⟨_, exec_add rd hl hr, add_comm_operands l r ▸ exec_add rd hr hl⟩

/-! ### SUB undoes ADD (R151 (a)) -/

/-- R149 for operands of one format: nothing is moved or dropped. -/
theorem sub_same_format {l r : Fpn} {m D : Nat} (hl : l.size = m) (hr : r.size = m) (dl : l.decimal = D)
    (dr : r.decimal = D) (hD : D ≤ m) :
    (sub l r).1.size = m ∧ (sub l r).1.decimal = D ∧ uint (sub l r).1 = (uint l + 2 ^ m - uint r) % 2 ^ m := by
  have hW : m = max l.size r.size := by omega
  have hF : D = m - max (l.size - l.decimal) (r.size - r.decimal) := by omega
  obtain ⟨hdiff, -⟩ := sub_uint_overflow (l := l) (r := r) (by omega) (by omega) hW hF
  have el : alignedNat l D = uint l := dl ▸ alignedNat_self l
  have er : alignedNat r D = uint r := dr ▸ alignedNat_self r
  refine ⟨by rw [sub_size, hW], by rw [sub_decimal, commonFormat_snd_eq hW hF], by rw [hdiff, el, er]⟩

/-- Modulo `m`, taking away what was added gives the first summand back. -/
theorem add_mod_sub_mod {x y m : Nat} (hx : x < m) (hy : y < m) : ((x + y) % m + m - y) % m = x := by
  calc ((x + y) % m + m - y) % m = ((x + y) % m + (m - y)) % m := by rw [Nat.add_sub_assoc hy.le]
    _ = (x + y + (m - y)) % m := Nat.mod_add_mod _ _ _
    _ = (x + m) % m := by congr 1; omega
    _ = x := by rw [Nat.add_mod_right, Nat.mod_eq_of_lt hx]

/-- R151 (a) on values. -/
theorem sub_add_same_format {a b : Fpn} (hs : a.size = b.size) (hd : a.decimal = b.decimal) (h : a.decimal ≤ a.size) :
    (sub (add a b).1 b).1.bits = a.bits ∧ (sub (add a b).1 b).1.decimal = a.decimal := by
  obtain ⟨addSize, addDecimal, addUint, -⟩ := add_same_format rfl hs.symm rfl hd.symm h
  obtain ⟨subSize, subDecimal, subUint⟩ := sub_same_format addSize hs.symm addDecimal hd.symm h
  refine ⟨bits_ext subSize ?_, subDecimal⟩
  change uint (sub (add a b).1 b).1 = uint a
  rw [subUint, addUint, add_mod_sub_mod (uint_lt a) (hs ▸ uint_lt b)]

/-- Settles O48: `SUB` reads the sum from `rd`, and the second source is still there because `rd ≠ rs2`. -/
theorem subUndoesAdd : Obligations.SubUndoesAdd := by
  intro s rd rs1 rs2 a b ha hb hs hd h hne
  obtain ⟨hbits, hdecimal⟩ := sub_add_same_format hs hd h
  have hsum : ((s.setReg rd (add a b).1).addCost (add a b).2).v.get rd = some (add a b).1 :=
    State.setReg_get_same s rd _
  have hsrc : ((s.setReg rd (add a b).1).addCost (add a b).2).v.get rs2 = some b :=
    (State.setReg_get_other s rd rs2 _ hne.symm).trans hb
  exact ⟨_, _, (sub (add a b).1 b).1, exec_add rd ha hb, exec_sub rd hsum hsrc,
    State.setReg_get_same _ rd _, hbits, hdecimal⟩

end Sys2Proof.Machine
end
section
/-! SUPPORT. Family Multiplier (`spec/42_multiplier.md`): up to 32768 bits the product fits a register, so `MUL` writes
what `mul` answers. With both sign bits 0 the padded patterns are below `2^(n−1)`, their product is below `2^(2n−2)`, and
neither the reduction modulo `2^(2n−1)` nor the new sign bit takes anything from it. -/

namespace Sys2Proof.Machine

/-! ### What MUL writes, for two written sources -/

/-- R171: a product of operands of at most 32768 bits is no wider than a register. -/
theorem mulIntoRegister_eq_mul {l r : Fpn} (h : max l.size r.size ≤ 32768) : mulIntoRegister l r = mul l r :=
  if_neg (by rw [Config.wmax]; omega)

/-- R166, R171: `MUL` completes where the product's format exists and fits a register. -/
theorem exec_mul {s : State} {rs1 rs2 : Reg} {l r : Fpn} {n : Nat} (rd : Reg) (hl : s.v.get rs1 = some l)
    (hr : s.v.get rs2 = some r) (hn : n = max l.size r.size) (hfit : n ≤ 32768)
    (hD : l.decimal + (n - l.size) + (r.decimal + (n - r.size)) ≤ 2 * n - 1) :
    ∃ p, mul l r = .ok p ∧ exec (.mul rd rs1 rs2) s = .next ((s.setReg rd p.1).addCost p.2) := by
  obtain ⟨p, hp⟩ := mul_ok_of_fits hn hD
  exact ⟨p, hp, complete_arith_ok hl hr ((mulIntoRegister_eq_mul (hn ▸ hfit)).trans hp)⟩

/-- R169: the product of two patterns of one bit has one bit. -/
theorem product_lt_of_size_one {l r : Fpn} {n : Nat} (h1 : n = 1) (hl : l.size = 1) (hr : r.size = 1) :
    uint l * 2 ^ (n - l.size) * (uint r * 2 ^ (n - r.size)) < 2 ^ (2 * n - 1) := by
  have hul : uint l ≤ 1 := Nat.le_of_lt_succ (by simpa [hl] using uint_lt l)
  have hur : uint r ≤ 1 := Nat.le_of_lt_succ (by simpa [hr] using uint_lt r)
  have hprod : uint l * uint r ≤ 1 := Nat.mul_le_mul hul hur
  simp only [h1, hl, hr, Nat.sub_self, pow_zero, Nat.mul_one]
  omega

/-- Settles O49: the command writes what `mul` answers, and `mul` is the product of the padded patterns. -/
theorem mulIsUnsignedProduct : Obligations.MulIsUnsignedProduct := by
  intro s rd rs1 rs2 l r n D hl hr hl1 hr1 hn hfit hD hDle
  obtain ⟨p, hp, hexec⟩ := exec_mul rd hl hr hn hfit (by omega)
  obtain ⟨-, hsize, hdec, huint, hcarry, htrunc, hcost, hnocarry⟩ := mul_eq_ok hn (by omega) hp
  refine ⟨p.1, ?_, hsize, by omega, huint, hcarry, htrunc, fun h1 => ?_⟩
  · rw [hexec, hcost, mulCost, floorLog2]
  · exact hnocarry (product_lt_of_size_one h1 (by omega) (by omega))

/-! ### The product of two values with sign bit 0 (R172 (a)) -/

theorem sign_eq_false_iff {v : Fpn} (h : 1 ≤ v.size) : sign v = false ↔ uint v < 2 ^ (v.size - 1) := by
  rw [← Bool.not_eq_true, sign_eq_true_iff h, Nat.not_le]

theorem toReal_of_sign_false {v : Fpn} (h : sign v = false) : toReal v = (uint v : ℚ) / 2 ^ v.decimal := by
  rw [toReal, sint_of_sign_false h, Int.cast_natCast]

/-- Padding keeps a 0 at the top. -/
theorem padded_uint_lt {v : Fpn} {n : Nat} (h1 : 1 ≤ v.size) (hn : v.size ≤ n) (hs : sign v = false) :
    uint v * 2 ^ (n - v.size) < 2 ^ (n - 1) := by
  have hlt := (sign_eq_false_iff h1).mp hs
  calc uint v * 2 ^ (n - v.size) < 2 ^ (v.size - 1) * 2 ^ (n - v.size) :=
        Nat.mul_lt_mul_of_pos_right hlt (by positivity)
    _ = 2 ^ (n - 1) := by rw [← pow_add]; congr 1; omega

/-- The product of two padded patterns with a 0 at the top leaves the top bit of its `2n − 1` bits 0. -/
theorem padded_product_lt {l r : Fpn} {n : Nat} (hl1 : 1 ≤ l.size) (hr1 : 1 ≤ r.size) (hn : n = max l.size r.size)
    (hl : sign l = false) (hr : sign r = false) :
    uint l * 2 ^ (n - l.size) * (uint r * 2 ^ (n - r.size)) < 2 ^ (2 * n - 1 - 1) := by
  calc uint l * 2 ^ (n - l.size) * (uint r * 2 ^ (n - r.size)) < 2 ^ (n - 1) * 2 ^ (n - 1) :=
        Nat.mul_lt_mul'' (padded_uint_lt hl1 (by omega) hl) (padded_uint_lt hr1 (by omega) hr)
    _ = 2 ^ (2 * n - 1 - 1) := by rw [← pow_add]; congr 1; omega

/-- Where nothing is reduced, padding cancels: each zero bit below comes with a fraction bit. -/
theorem toReal_of_padded_product {p l r : Fpn} {i j : Nat} (hp : sign p = false) (hl : sign l = false)
    (hr : sign r = false) (hd : p.decimal = l.decimal + i + (r.decimal + j))
    (hu : uint p = uint l * 2 ^ i * (uint r * 2 ^ j)) : toReal p = toReal l * toReal r := by
  rw [toReal_of_sign_false hp, toReal_of_sign_false hl, toReal_of_sign_false hr, hd, hu]
  push_cast
  field_simp
  ring

/-- R172 (a) on values. -/
theorem mul_nonnegative {l r : Fpn} {p : Fpn × Nat} (hl1 : 1 ≤ l.size) (hr1 : 1 ≤ r.size) (hl : sign l = false)
    (hr : sign r = false) (h : mul l r = .ok p) :
    toReal p.1 = toReal l * toReal r ∧ sign p.1 = false ∧ p.1.overflow = false := by
  obtain ⟨-, hsize, hdec, huint, -, -, -, hnocarry⟩ := mul_eq_ok rfl (by omega) h
  have htop := padded_product_lt hl1 hr1 rfl hl hr
  have hfits := htop.trans_le (Nat.pow_le_pow_right Nat.two_pos (Nat.sub_le (2 * max l.size r.size - 1) 1))
  rw [Nat.mod_eq_of_lt hfits] at huint
  have hsign : sign p.1 = false := by
    rw [sign_eq_false_iff (by omega), hsize, huint]
    exact htop
  exact ⟨toReal_of_padded_product hsign hl hr hdec huint, hsign, hnocarry hfits⟩

/-- Settles O50: an integer bit in one operand leaves room for the product's decimal index. -/
theorem mulOfNonnegativeValuesIsExact : Obligations.MulOfNonnegativeValuesIsExact := by
  intro s rd rs1 rs2 l r hl hr hlwf hrwf hfit hls hrs hint
  obtain ⟨hl1, -, hld, -⟩ := fpn_wf_iff.mp hlwf
  obtain ⟨hr1, -, hrd, -⟩ := fpn_wf_iff.mp hrwf
  obtain ⟨p, hp, hexec⟩ := exec_mul rd hl hr rfl hfit (by omega)
  exact ⟨p.1, p.2, hexec, mul_nonnegative hl1 hr1 hls hrs hp⟩

end Sys2Proof.Machine
end
section
/-! SUPPORT. Family Division (`spec/43_division.md`): each engine is read through one lemma that says what a pass is.
`MDIV` on one integer bit keeps its three values in one format, so a pass is a pass of the recurrence on patterns; the
cost and the final state follow by induction on the passes. `RDIV` on fractions keeps its divisor estimate below 2 and
at most doubles the quotient estimate, so five passes leave room in 6 bits. -/

namespace Sys2Proof.Machine

/-! ### What a division command writes, for two written sources -/

section
variable {rd rs1 rs2 : Reg} {s : State} {a b : Fpn}

theorem complete_divide_ok {i : Instr} {f : Fpn → Fpn → Except FaultKind DivResult} {q : DivResult}
    (ha : s.v.get rs1 = some a) (hb : s.v.get rs2 = some b) (hf : f a b = .ok q) :
    complete i s (divide rd rs1 rs2 f s) =
      .next (((s.setReg rd q.quotient).addCost q.cost).setDiv q.state q.iterations) := by
  rw [divide_eq_ok.mpr ⟨a, b, q, ha, hb, hf, rfl⟩, complete_ok]

theorem exec_mdiv_ok {q : DivResult} (rd : Reg) (ha : s.v.get rs1 = some a) (hb : s.v.get rs2 = some b)
    (h : mdiv a b = .ok q) : exec (.mdiv rd rs1 rs2) s =
      .next (((s.setReg rd q.quotient).addCost q.cost).setDiv q.state q.iterations) :=
  complete_divide_ok ha hb h

theorem exec_rdiv_ok {q : DivResult} (rd : Reg) (ha : s.v.get rs1 = some a) (hb : s.v.get rs2 = some b)
    (h : rdiv a b = .ok q) : exec (.rdiv rd rs1 rs2) s =
      .next (((s.setReg rd q.quotient).addCost q.cost).setDiv q.state q.iterations) :=
  complete_divide_ok ha hb h

theorem exec_rdiv_error {k : FaultKind} (rd : Reg) (ha : s.v.get rs1 = some a) (hb : s.v.get rs2 = some b)
    (h : rdiv a b = .error k) :
    exec (.rdiv rd rs1 rs2) s = .next (takeFault k (encode (.rdiv rd rs1 rs2)) s) := by
  rw [exec, execRdiv, divide, State.readReg_some ha, except_ok_bind, State.readReg_some hb, except_ok_bind, h,
    except_error_bind, complete_error]

end

/-- R37: `DIVITER` holds the passes of a division. -/
theorem State.setDiv_diviter_toNat (s : State) (st : DivState) {n : Nat} (h : n ≤ 5) :
    (s.setDiv st n).diviter.toNat = n := by
  rw [State.setDiv_diviter, BitVec.toNat_ofNat]
  omega

theorem mulCost_mono {m n : Nat} (h : m ≤ n) : mulCost m ≤ mulCost n := by
  have hlog : Nat.log2 m ≤ Nat.log2 n := by
    rw [Nat.log2_eq_log_two, Nat.log2_eq_log_two]; exact Nat.log_mono_right h
  unfold mulCost floorLog2
  omega

/-! ### A pass of MDIV (R188) -/

/-- What a pass does when it answers: both estimates are multiplied by the factor and cut; then it stops, or the next
factor is the complement of the divisor estimate. -/
theorem mdivLoop_succ_eq_ok {n passes cost made : Nat} {one f ai bi : Fpn} {r : DivResult}
    (h : mdivLoop n one (passes + 1) f ai bi cost made = .ok r) :
    ∃ pa pb ai' bi', mul ai f = .ok pa ∧ mul bi f = .ok pb ∧ trunc pa.1 n = .ok ai' ∧ trunc pb.1 n = .ok bi' ∧
      (r = ⟨ai', cost + max pa.2 pb.2, .converged, made + 1⟩ ∨
        mdivLoop n one passes (complement bi').1 ai' bi' (cost + max pa.2 pb.2 + (complement bi').2) (made + 1) =
          .ok r) := by
  simp only [mdivLoop, except_bind_eq_ok] at h
  obtain ⟨pa, hpa, pb, hpb, ai', hai', bi', hbi', h⟩ := h
  refine ⟨pa, pb, ai', bi', hpa, hpb, hai', hbi', ?_⟩
  split at h
  · exact .inl (Except.ok.inj h).symm
  · exact .inr h

/-- A pass that answers, from the answers of its parts. -/
theorem mdivLoop_succ {n : Nat} {one f ai bi ai' bi' : Fpn} {pa pb : Fpn × Nat} (passes cost made : Nat)
    (hpa : mul ai f = .ok pa) (hpb : mul bi f = .ok pb) (hai : trunc pa.1 n = .ok ai')
    (hbi : trunc pb.1 n = .ok bi') :
    mdivLoop n one (passes + 1) f ai bi cost made =
      if equals bi' one then .ok ⟨ai', cost + max pa.2 pb.2, .converged, made + 1⟩
      else mdivLoop n one passes (complement bi').1 ai' bi' (cost + max pa.2 pb.2 + (complement bi').2) (made + 1) := by
  rw [mdivLoop, hpa, except_ok_bind, hpb, except_ok_bind, hai, except_ok_bind, hbi, except_ok_bind]

/-! ### What MDIV writes when its engine answers (R189) -/

/-- The final state, the passes and the cost of a loop with `passes + 1` passes left, when its first multiplication
costs `first`. -/
def MdivEnds (n first cost made passes : Nat) (r : DivResult) : Prop :=
  (r.state = .converged ∧ ∃ j ≤ passes, r.iterations = made + 1 + j ∧
      r.cost = cost + first + j * (mulCost n + n)) ∨
    (r.state = .exhausted ∧ r.iterations = made + 1 + passes ∧
      r.cost = cost + first + n + passes * (mulCost n + n))

/-- A pass before one of the loop's ends. -/
theorem MdivEnds.step {n first cost made passes : Nat} {r : DivResult}
    (h : MdivEnds n (mulCost n) (cost + first + n) (made + 1) passes r) :
    MdivEnds n first cost made (passes + 1) r := by
  obtain ⟨hst, j, hj, hk, hc⟩ | ⟨hst, hk, hc⟩ := h
  · exact .inl ⟨hst, j + 1, by omega, by omega, by rw [hc]; ring⟩
  · exact .inr ⟨hst, by omega, by rw [hc]; ring⟩

/-- The two multiplications of a pass run side by side, so the wider of them is charged. -/
theorem mdivPass_cost {n : Nat} {f ai bi : Fpn} {pa pb : Fpn × Nat} (hn : 1 ≤ n) (ha : ai.size = n) (hf : f.size = n)
    (hpa : mul ai f = .ok pa) (hpb : mul bi f = .ok pb) : max pa.2 pb.2 = mulCost (max n bi.size) := by
  obtain ⟨-, -, -, -, -, -, hca, -⟩ := mul_eq_ok (n := n) (by omega) hn hpa
  obtain ⟨-, -, -, -, -, -, hcb, -⟩ := mul_eq_ok (n := max n bi.size) (by omega) (by omega) hpb
  rw [hca, hcb, max_eq_right (mulCost_mono (le_max_left n bi.size))]

/-- Only the first pass can see a divisor wider than the dividend. -/
theorem mdivLoop_ends {n : Nat} {one : Fpn} {r : DivResult} (hn : 1 ≤ n) (passes : Nat) :
    ∀ {f ai bi : Fpn} {cost made : Nat}, ai.size = n → f.size = n →
      mdivLoop n one (passes + 1) f ai bi cost made = .ok r →
      r.quotient.size = n ∧ MdivEnds n (mulCost (max n bi.size)) cost made passes r := by
  induction passes with
  | zero =>
    intro f ai bi cost made ha hf h
    obtain ⟨pa, pb, ai', bi', hpa, hpb, hai, hbi, h⟩ := mdivLoop_succ_eq_ok h
    rw [mdivPass_cost hn ha hf hpa hpb, complement_cost, trunc_size hbi] at h
    rcases h with rfl | h
    · exact ⟨trunc_size hai, .inl ⟨rfl, 0, le_rfl, rfl, by simp⟩⟩
    · rw [← Except.ok.inj h]
      exact ⟨trunc_size hai, .inr ⟨rfl, rfl, by simp⟩⟩
  | succ passes ih =>
    intro f ai bi cost made ha hf h
    obtain ⟨pa, pb, ai', bi', hpa, hpb, hai, hbi, h⟩ := mdivLoop_succ_eq_ok h
    rw [mdivPass_cost hn ha hf hpa hpb, complement_cost, trunc_size hbi] at h
    rcases h with rfl | h
    · exact ⟨trunc_size hai, .inl ⟨rfl, 0, Nat.zero_le _, rfl, by simp⟩⟩
    · obtain ⟨hsize, hends⟩ := ih (trunc_size hai) (by rw [complement_size, trunc_size hbi]) h
      rw [trunc_size hbi, max_self] at hends
      exact ⟨hsize, hends.step⟩

theorem oneLike_size (a : Fpn) : (oneLike a).size = a.size := by simp [oneLike]

/-- R187: the engine answers only for a dividend with an integer bit, and what its loop answers. -/
theorem mdiv_of_integer_bit {a b : Fpn} (h : a.decimal < a.size) :
    mdiv a b = mdivLoop a.size (oneLike a) 5 (oneLike a) a b 0 0 := if_neg (by omega)

theorem integer_bit_of_mdiv_eq_ok {a b : Fpn} {q : DivResult} (h : mdiv a b = .ok q) : a.decimal < a.size := by
  unfold mdiv at h
  split at h
  · cases h
  · omega

/-- Settles O52, from the ends of the loop with five passes. -/
theorem mdivStateAndCost : Obligations.MdivStateAndCost := by
  intro s rd rs1 rs2 a b q M ha hb ha1 hb1 hM h
  obtain rfl : M = mulCost := funext hM
  have hloop := h
  rw [mdiv_of_integer_bit (integer_bit_of_mdiv_eq_ok h)] at hloop
  obtain ⟨hsize, hends⟩ := mdivLoop_ends ha1 4 rfl (oneLike_size a) hloop
  refine ⟨_, exec_mdiv_ok rd ha hb h, rfl, hsize, ?_, ?_⟩
  · refine State.setDiv_diviter_toNat _ _ ?_
    rcases hends with ⟨-, j, hj, hk, -⟩ | ⟨-, hk, -⟩ <;> omega
  · rw [State.setDiv_divstate]
    obtain ⟨hst, j, hj, hk, hc⟩ | ⟨hst, hk, hc⟩ := hends
    · refine .inl ⟨hst, by rw [hst]; rfl, by omega, by omega, ?_⟩
      have hlater : q.iterations - 1 = j := by omega
      rw [hlater, hc, Nat.zero_add]
    · exact .inr ⟨hst, by rw [hst]; rfl, hk, by rw [hc, Nat.zero_add]⟩

/-! ### MDIV on values with one integer bit (R190) -/

/-- `v` has `n` bits, one of them an integer bit. -/
structure OneIntegerBit (n : Nat) (v : Fpn) : Prop where
  size : v.size = n
  decimal : v.decimal + 1 = n

/-- The flags that a pass leaves on the quotient of size `n` (R190). -/
def PassFlags (n : Nat) (v : Fpn) : Prop := v.carryin = v.overflow ∧ v.truncated = decide (1 < n)

/-- An estimate, multiplied by the factor and cut, has one integer bit again, and its pattern is that of the
recurrence. -/
theorem mul_trunc_oneIntegerBit {n : Nat} {v f : Fpn} (hv : OneIntegerBit v.size v) (hle : v.size ≤ n)
    (hf : OneIntegerBit n f) :
    ∃ p w, mul v f = .ok p ∧ trunc p.1 n = .ok w ∧ p.2 = mulCost n ∧ OneIntegerBit n w ∧ PassFlags n w ∧
      uint w = uint v * 2 ^ (n - v.size) * uint f % 2 ^ (2 * n - 1) / 2 ^ (n - 1) := by
  obtain ⟨-, hvd⟩ := hv
  obtain ⟨hfs, hfd⟩ := hf
  have hn : n = max v.size f.size := by omega
  obtain ⟨p, hp⟩ := mul_ok_of_fits (l := v) (r := f) hn (by omega)
  obtain ⟨-, hsize, hdec, huint, hcarry, htrunc, hcost, -⟩ := mul_eq_ok hn (by omega) hp
  have hcut : p.1.size - n = n - 1 := by omega
  have hw := trunc_eq_ok (v := p.1) (N := n).mpr ⟨by omega, by omega, by omega, rfl⟩
  have hwd := trunc_decimal hw
  obtain ⟨ho, hc, ht⟩ := trunc_flags hw
  refine ⟨p, _, hp, hw, hcost, ⟨trunc_size hw, by omega⟩, ⟨by rw [hc, ho, hcarry], ?_⟩, ?_⟩
  · rw [ht, hcut, truncatedBy, htrunc, Bool.false_or, decide_eq_decide]
    omega
  · rw [trunc_uint hw, huint, hcut, hfs, Nat.sub_self, pow_zero, Nat.mul_one]

theorem OneIntegerBit.complement {n : Nat} {v : Fpn} (h : OneIntegerBit n v) :
    OneIntegerBit n (complement v).1 := by
  obtain ⟨hs, hd⟩ := h
  exact ⟨(complement_size v).trans hs, hd⟩

/-- In one format, the pattern determines the real value and is determined by it. -/
theorem equals_iff_uint_eq {v w : Fpn} (hs : v.size = w.size) (hd : v.decimal = w.decimal) :
    equals v w = true ↔ uint v = uint w := by
  have hv : toReal v = toReal (Fpn.plain w.decimal v.bits) := by rw [← hd]; rfl
  have hw : toReal w = toReal (Fpn.plain w.decimal w.bits) := rfl
  rw [equals_eq_true_iff, hv, hw, toReal_plain_inj hs]
  exact ⟨congrArg bitsToNat, bits_ext hs⟩

theorem oneLike_uint {a : Fpn} (h : a.decimal < a.size) : uint (oneLike a) = 2 ^ a.decimal := by
  have hbits : (oneLike a).bits = natToBits a.size (2 ^ a.decimal) :=
    natToBits_of_forall (fun i _ => by rw [Nat.testBit_two_pow, beq_eq_decide, decide_eq_decide, eq_comm])
  rw [uint, hbits, bitsToNat_natToBits, Nat.mod_eq_of_lt (Nat.pow_lt_pow_right Nat.one_lt_two h)]

/-- The engine's answer is that of the recurrence: the quotient's pattern, the cost, the final state, the passes. -/
def IsRecurrence (n : Nat) (x : Nat × Nat × DivState × Nat) (r : DivResult) : Prop :=
  OneIntegerBit n r.quotient ∧ PassFlags n r.quotient ∧ (uint r.quotient, r.cost, r.state, r.iterations) = x

/-- R188, R190: pass by pass, the loop is the recurrence; a narrower divisor is padded on the first pass. -/
theorem mdivLoop_isRecurrence {n : Nat} {one : Fpn} (hone : OneIntegerBit n one) (hu : uint one = 2 ^ (n - 1))
    (passes : Nat) : ∀ {f ai bi : Fpn} {cost made : Nat}, OneIntegerBit n f → OneIntegerBit n ai →
      OneIntegerBit bi.size bi → bi.size ≤ n → (0 < passes ∨ PassFlags n ai) →
      ∃ r, mdivLoop n one passes f ai bi cost made = .ok r ∧
        IsRecurrence n (mdivNat n passes (uint f) (uint ai) (uint bi * 2 ^ (n - bi.size)) cost made) r := by
  induction passes with
  | zero =>
    intro f ai bi cost made _ ha _ _ hflags
    exact ⟨_, rfl, ha, hflags.resolve_left (lt_irrefl 0), rfl⟩
  | succ passes ih =>
    intro f ai bi cost made hf ha hb hle _
    obtain ⟨pa, ai', hpa, hta, hca, ha', hflags, hua⟩ := mul_trunc_oneIntegerBit (ha.size.symm ▸ ha) ha.size.le hf
    obtain ⟨pb, bi', hpb, htb, hcb, hb', -, hub⟩ := mul_trunc_oneIntegerBit hb hle hf
    have hstop : equals bi' one = true ↔ uint bi' = 2 ^ (n - 1) := by
      obtain ⟨hbs, hbd⟩ := hb'
      obtain ⟨hos, hod⟩ := hone
      rw [equals_iff_uint_eq (by omega) (by omega), hu]
    rw [ha.size, Nat.sub_self, pow_zero, Nat.mul_one] at hua
    rw [mdivLoop_succ passes cost made hpa hpb hta htb, hca, hcb, max_self, complement_cost, hb'.size]
    simp only [mdivNat, ← hua, ← hub]
    by_cases h : uint bi' = 2 ^ (n - 1)
    · rw [if_pos (hstop.mpr h), if_pos h]
      exact ⟨_, rfl, ha', hflags, rfl⟩
    · rw [if_neg (mt hstop.mp h), if_neg h]
      have hnext := ih (cost := cost + mulCost n + n) (made := made + 1) hb'.complement ha'
        (hb'.size.symm ▸ hb') hb'.size.le (.inr hflags)
      rwa [complement_uint, hb'.size, Nat.sub_self, pow_zero, Nat.mul_one] at hnext

/-- Settles O51: `one` has the pattern `2^(n−1)`, with which the recurrence starts. -/
theorem mdivRefinesIntegerRecurrence : Obligations.MdivRefinesIntegerRecurrence := by
  intro s rd rs1 rs2 a b n ha hb hn had hbd hle
  subst hn
  have hone : OneIntegerBit a.size (oneLike a) := ⟨oneLike_size a, had⟩
  have hu : uint (oneLike a) = 2 ^ (a.size - 1) := by rw [oneLike_uint (by omega), ← had, Nat.add_sub_cancel]
  obtain ⟨r, hr, ⟨hsize, hdec⟩, ⟨hcarry, htrunc⟩, hrec⟩ :=
    mdivLoop_isRecurrence hone hu 5 (cost := 0) (made := 0) hone ⟨rfl, had⟩ ⟨rfl, hbd⟩ hle (.inl (by decide))
  rw [← mdiv_of_integer_bit (by omega)] at hr
  rw [hu] at hrec
  exact ⟨_, _, _, _, exec_mdiv_ok rd ha hb hr, hsize, by omega, hcarry, htrunc, hrec⟩

/-! ### MDIV by zero (R192 (a)) -/

/-- A divisor of 0 stays 0, so that no pass converges and the next factor is 0. -/
theorem mdivNat_succ_zero_divisor (n passes f a c k : Nat) :
    mdivNat n (passes + 1) f a 0 c k =
      mdivNat n passes 0 (a * f % 2 ^ (2 * n - 1) / 2 ^ (n - 1)) 0 (c + mulCost n + n) (k + 1) := by
  have hstop : ¬ 0 = 2 ^ (n - 1) := (Nat.two_pow_pos _).ne
  simp only [mdivNat, Nat.zero_mul, Nat.zero_mod, Nat.zero_div, if_neg hstop, Nat.sub_zero, Nat.mod_self, mulCost,
    floorLog2]

/-- From then on the quotient is 0. -/
theorem mdivNat_zero_factor (n passes : Nat) : ∀ a c k : Nat,
    ∃ c', mdivNat n (passes + 1) 0 a 0 c k = (0, c', .exhausted, k + passes + 1) := by
  induction passes with
  | zero =>
    intro a c k
    refine ⟨c + mulCost n + n, ?_⟩
    rw [mdivNat_succ_zero_divisor, Nat.mul_zero, Nat.zero_mod, Nat.zero_div]
    rfl
  | succ passes ih =>
    intro a c k
    obtain ⟨c', h⟩ := ih (a * 0 % 2 ^ (2 * n - 1) / 2 ^ (n - 1)) (c + mulCost n + n) (k + 1)
    exact ⟨c', by rw [mdivNat_succ_zero_divisor, h, Nat.add_right_comm k 1 passes, Nat.add_assoc k passes 1]⟩

/-- Settles O53: the recurrence of O51, started with the divisor 0. -/
theorem mdivByZeroIsExhaustedZero : Obligations.MdivByZeroIsExhaustedZero := by
  intro s rd rs1 rs2 a b ha hb had hbd hle hzero
  obtain ⟨q, c, st, k, hexec, -, -, -, -, hrec⟩ :=
    mdivRefinesIntegerRecurrence s rd rs1 rs2 a b _ ha hb rfl had hbd hle
  rw [hzero, Nat.zero_mul, mdivNat_succ_zero_divisor] at hrec
  obtain ⟨c', hz⟩ := mdivNat_zero_factor a.size 3 _ (0 + mulCost a.size + a.size) 1
  rw [hz] at hrec
  obtain ⟨hq, -, rfl, rfl⟩ : uint q = 0 ∧ c = c' ∧ st = .exhausted ∧ k = 5 := by simpa using hrec
  exact ⟨q, c, hexec, hq⟩

/-! ### Normalisation (R196) -/

theorem isZero_eq_true_iff (v : Fpn) : isZero v = true ↔ uint v = 0 := by
  rw [uint, bitsToNat_eq_zero, isZero, List.all_eq_true]
  simp only [Bool.not_eq_true']

theorem sint_ne_zero {v : Fpn} (h : uint v ≠ 0) : sint v ≠ 0 := by
  intro h0
  have hmod := sint_emod v
  rw [h0, Int.zero_emod] at hmod
  omega

/-- A number lies in the upper half of the numbers of its bit length. -/
theorem two_pow_bitlength_le {x : Nat} (h : x ≠ 0) : 2 ^ (bitlength x - 1) ≤ x ∧ x < 2 ^ bitlength x := by
  have hpos : ¬ bitlength x ≤ 0 := by rw [bitlength_le_iff, pow_zero]; omega
  have hlow : ¬ bitlength x ≤ bitlength x - 1 := by omega
  rw [bitlength_le_iff] at hlow
  exact ⟨by omega, bitlength_le_iff.mp le_rfl⟩

theorem normalise_eq {a b : Fpn} {da : Int}
    (hda : da = (a.decimal : Int) + (bitlength (sint b).natAbs : Int) - b.decimal) :
    normalise a b = if da < 0 ∨ da > a.size then .error .widthMismatch
      else .ok ({ a with decimal := da.toNat }, { b with decimal := bitlength (sint b).natAbs }) := by
  rw [add_sub_assoc] at hda
  subst hda
  rfl

/-- With as many fraction bits as its magnitude has bits, a value that is not 0 has a magnitude in `[1/2, 1)`. -/
theorem abs_toReal_normalised {b b' : Fpn} (h : uint b ≠ 0)
    (hb : b' = { b with decimal := bitlength (sint b).natAbs }) : 1 / 2 ≤ |toReal b'| ∧ |toReal b'| < 1 := by
  have habs : |toReal b'| = ((sint b).natAbs : ℚ) / 2 ^ bitlength (sint b).natAbs := by
    subst hb
    rw [toReal, abs_div, abs_pow, abs_two, Nat.cast_natAbs, Int.cast_abs]
    rfl
  obtain ⟨hlo, hhi⟩ := two_pow_bitlength_le (Int.natAbs_ne_zero.mpr (sint_ne_zero h))
  have hdouble : 2 ^ bitlength (sint b).natAbs ≤ 2 * (sint b).natAbs :=
    calc 2 ^ bitlength (sint b).natAbs ≤ 2 ^ (bitlength (sint b).natAbs - 1 + 1) :=
          Nat.pow_le_pow_right Nat.two_pos (by omega)
      _ = 2 * 2 ^ (bitlength (sint b).natAbs - 1) := pow_succ' 2 _
      _ ≤ 2 * (sint b).natAbs := Nat.mul_le_mul_left 2 hlo
  rw [habs, div_le_div_iff₀ two_pos (by positivity), div_lt_one (by positivity), one_mul, mul_comm]
  exact ⟨by exact_mod_cast hdouble, by exact_mod_cast hhi⟩

/-- Both values are scaled by the same power of two, so that the quotient stays. -/
theorem toReal_div_rescaled {a b a' b' : Fpn} (ha : sint a' = sint a) (hb : sint b' = sint b)
    (hd : a'.decimal + b.decimal = a.decimal + b'.decimal) : toReal a' / toReal b' = toReal a / toReal b := by
  have hpow : (2 : ℚ) ^ a'.decimal * 2 ^ b.decimal = 2 ^ a.decimal * 2 ^ b'.decimal := by
    rw [← pow_add, ← pow_add, hd]
  have hscale : (2 : ℚ) ^ a'.decimal / 2 ^ b'.decimal = 2 ^ a.decimal / 2 ^ b.decimal :=
    (div_eq_div_iff (by positivity) (by positivity)).mpr hpow
  rw [toReal, toReal, toReal, toReal, ha, hb, div_div_div_comm, hscale, div_div_div_comm]

/-- Settles O54: the two branches of `normalise`. -/
theorem normalisationKeepsQuotient : Obligations.NormalisationKeepsQuotient := by
  intro a b da _ hb hda
  rw [normalise_eq hda]
  refine ⟨fun hlo hhi => ?_, fun hout => if_pos hout⟩
  obtain ⟨hhalf, hone⟩ := abs_toReal_normalised hb rfl
  refine ⟨_, _, if_neg (by omega), rfl, rfl, Int.toNat_of_nonneg hlo, hhalf, hone, toReal_div_rescaled rfl rfl ?_⟩
  show da.toNat + b.decimal = a.decimal + bitlength (sint b).natAbs
  omega

/-- R195, R196: what `rdiv` is for a divisor that is not zero. -/
theorem rdiv_of_ne_zero {a b : Fpn} (h : uint b ≠ 0) :
    rdiv a b = (do
      let ab ← normalise a b
      let x ← resize ab.1 (max a.size b.size)
      let y ← resize ab.2 (max a.size b.size)
      rdivLoop (max a.size b.size) (toReal a / toReal b) 5 x y 0 0) :=
  if_neg (mt (isZero_eq_true_iff b).mp h)

/-- Settles O57: the second of the two checks before the loop. -/
theorem rdivWithoutRoomRaisesWidthMismatch : Obligations.RdivWithoutRoomRaisesWidthMismatch := by
  intro s rd rs1 rs2 a b da ha hb hne hda hout
  refine exec_rdiv_error rd ha hb ?_
  rw [rdiv_of_ne_zero hne, normalise_eq hda, if_pos hout, except_error_bind]

/-! ### A pass of RDIV (R199) -/

/-- What a pass does when it answers: both estimates are multiplied by the one difference and resized. -/
theorem rdivLoop_succ_eq_ok {W passes cost made : Nat} {t : ℚ} {x y : Fpn} {r : DivResult}
    (h : rdivLoop W t (passes + 1) x y cost made = .ok r) :
    ∃ px py x' y', mul x (sub two y).1 = .ok px ∧ mul y (sub two y).1 = .ok py ∧ resize px.1 W = .ok x' ∧
      resize py.1 W = .ok y' ∧
      ((closeEnough x' t W = true ∧
          r = ⟨x', cost + max ((sub two y).2 + px.2) ((sub two y).2 + py.2), .converged, made + 1⟩) ∨
        (closeEnough x' t W = false ∧
          rdivLoop W t passes x' y' (cost + max ((sub two y).2 + px.2) ((sub two y).2 + py.2)) (made + 1) =
            .ok r)) := by
  simp only [rdivLoop, except_bind_eq_ok] at h
  obtain ⟨px, hpx, py, hpy, x', hx', y', hy', h⟩ := h
  refine ⟨px, py, x', y', hpx, hpy, hx', hy', ?_⟩
  split at h
  · next hclose => exact .inl ⟨hclose, (Except.ok.inj h).symm⟩
  · next hfar => exact .inr ⟨by simpa using hfar, h⟩

/-- A pass that answers, from the answers of its parts. -/
theorem rdivLoop_succ {W : Nat} {t : ℚ} {x y x' y' : Fpn} {px py : Fpn × Nat} (passes cost made : Nat)
    (hpx : mul x (sub two y).1 = .ok px) (hpy : mul y (sub two y).1 = .ok py) (hx : resize px.1 W = .ok x')
    (hy : resize py.1 W = .ok y') :
    ∃ c, rdivLoop W t (passes + 1) x y cost made =
      if closeEnough x' t W then .ok ⟨x', c, .converged, made + 1⟩
      else rdivLoop W t passes x' y' c (made + 1) := by
  simp only [rdivLoop, hpx, hpy, hx, hy, except_ok_bind]
  exact ⟨_, rfl⟩

/-! ### What RDIV writes when its engine answers (R201) -/

/-- What one pass of working width `m` costs. -/
def rdivPassCost (m : Nat) : Nat := 5 * m + mulCost m

/-- The constant two has three bits, so that the difference has at least three. -/
theorem rdivPass_cost {W m : Nat} {x y : Fpn} {px py : Fpn × Nat} (hm : m = max 3 W) (hx : x.size = W)
    (hy : y.size = W) (hpx : mul x (sub two y).1 = .ok px) (hpy : mul y (sub two y).1 = .ok py) :
    max ((sub two y).2 + px.2) ((sub two y).2 + py.2) = rdivPassCost m := by
  have htwo : two.size = 3 := rfl
  obtain ⟨-, -, -, -, -, -, hcx, -⟩ := mul_eq_ok (n := m) (by rw [sub_size]; omega) (by omega) hpx
  obtain ⟨-, -, -, -, -, -, hcy, -⟩ := mul_eq_ok (n := m) (by rw [sub_size]; omega) (by omega) hpy
  rw [hcx, hcy, max_self, sub_cost, htwo, hy, ← hm, rdivPassCost]

/-- The final state, the passes and the cost of a loop that has made `made` passes, with `passes` left. -/
structure RdivEnds (W m made passes : Nat) (t : ℚ) (r : DivResult) : Prop where
  size : r.quotient.size = W
  cost : r.cost = r.iterations * rdivPassCost m
  state : (r.state = .converged ∧ made < r.iterations ∧ r.iterations ≤ made + passes ∧
      closeEnough r.quotient t W = true) ∨
    (r.state = .exhausted ∧ r.iterations = made + passes ∧ closeEnough r.quotient t W = false)

/-- The estimate that a loop starts with is not close, unless the loop makes a pass. -/
theorem rdivLoop_ends {W m : Nat} {t : ℚ} {r : DivResult} (hm : m = max 3 W) (passes : Nat) :
    ∀ {x y : Fpn} {cost made : Nat}, x.size = W → y.size = W → cost = made * rdivPassCost m →
      (0 < passes ∨ closeEnough x t W = false) → rdivLoop W t passes x y cost made = .ok r →
      RdivEnds W m made passes t r := by
  induction passes with
  | zero =>
    intro x y cost made hx _ hcost hfar h
    rw [← Except.ok.inj h]
    exact ⟨hx, hcost, .inr ⟨rfl, rfl, hfar.resolve_left (lt_irrefl 0)⟩⟩
  | succ passes ih =>
    intro x y cost made hx hy hcost _ h
    obtain ⟨px, py, x', y', hpx, hpy, hrx, hry, h⟩ := rdivLoop_succ_eq_ok h
    have hnext : cost + rdivPassCost m = (made + 1) * rdivPassCost m := by rw [hcost, Nat.succ_mul]
    rw [rdivPass_cost hm hx hy hpx hpy, hnext] at h
    rcases h with ⟨hclose, rfl⟩ | ⟨hfar, h⟩
    · exact ⟨resize_size hrx, rfl, .inl ⟨rfl, Nat.lt_succ_self made, by simp only; omega, hclose⟩⟩
    · obtain ⟨hsize, hc, hst⟩ := ih (resize_size hrx) (resize_size hry) rfl (.inr hfar) h
      refine ⟨hsize, hc, hst.imp ?_ ?_⟩
      · rintro ⟨hst, hlo, hhi, hclose⟩
        exact ⟨hst, by omega, by omega, hclose⟩
      · rintro ⟨hst, hk, hfar⟩
        exact ⟨hst, by omega, hfar⟩

/-- What `rdiv` runs when it answers: both values at the working width, and the loop. -/
theorem rdiv_eq_ok {a b : Fpn} {r : DivResult} {W : Nat} (hW : W = max a.size b.size) (h : rdiv a b = .ok r) :
    ∃ x y, x.size = W ∧ y.size = W ∧ rdivLoop W (toReal a / toReal b) 5 x y 0 0 = .ok r := by
  subst hW
  unfold rdiv at h
  split at h
  · cases h
  · simp only [except_bind_eq_ok] at h
    obtain ⟨ab, -, x, hx, y, hy, h⟩ := h
    exact ⟨x, y, resize_size hx, resize_size hy, h⟩

theorem rdiv_ends {a b : Fpn} {r : DivResult} {W : Nat} (hW : W = max a.size b.size) (h : rdiv a b = .ok r) :
    RdivEnds W (max 3 W) 0 5 (toReal a / toReal b) r := by
  obtain ⟨x, y, hx, hy, h⟩ := rdiv_eq_ok hW h
  exact rdivLoop_ends rfl 5 hx hy (Nat.zero_mul _).symm (.inl (by decide)) h

theorem tolerance_eq (W : Nat) : tolerance W = 8 / 2 ^ W := by
  rw [tolerance, Config.tolSlack]
  norm_num

/-- R200: the stop test, with the tolerance as a number. -/
theorem closeEnough_eq_true_iff {x : Fpn} {t : ℚ} {W : Nat} :
    closeEnough x t W = true ↔ |toReal x - t| < 8 / 2 ^ W := by
  rw [closeEnough, decide_eq_true_eq, tolerance_eq]

/-- Settles O55, from the ends of the loop with five passes. -/
theorem rdivStateAndCost : Obligations.RdivStateAndCost := by
  intro s rd rs1 rs2 a b q W m ha hb _ _ hW hm h
  obtain ⟨hsize, hcost, hst⟩ := rdiv_ends hW h
  rw [← hm] at hcost
  refine ⟨_, exec_rdiv_ok rd ha hb h, rfl, hsize, ?_, hcost, ?_⟩
  · refine State.setDiv_diviter_toNat _ _ ?_
    rcases hst with ⟨-, -, hk, -⟩ | ⟨-, hk, -⟩ <;> omega
  · rw [State.setDiv_divstate, ← closeEnough_eq_true_iff]
    refine hst.imp ?_ ?_
    · rintro ⟨hst, hlo, hhi, hclose⟩
      exact ⟨hst, by rw [hst]; rfl, hlo, by omega, hclose⟩
    · rintro ⟨hst, hk, hfar⟩
      exact ⟨hst, by rw [hst]; rfl, by omega, by rw [hfar]; exact Bool.false_ne_true⟩

/-! ### RDIV on fractions (R199): no pass faults -/

theorem toReal_nonneg {v : Fpn} (h : sign v = false) : 0 ≤ toReal v := by
  rw [toReal_of_sign_false h]; positivity

/-- A bound on a value with sign bit 0 is a bound on its pattern. -/
theorem uint_lt_of_toReal_lt {v : Fpn} {k : Nat} (hs : sign v = false) (h : toReal v < 2 ^ k) :
    uint v < 2 ^ (k + v.decimal) := by
  rw [toReal_of_sign_false hs, div_lt_iff₀ (by positivity), ← pow_add] at h
  exact_mod_cast h

/-- R105: a value with sign bit 0 whose integer part has room is resized without a fault. -/
theorem resize_ok_of_toReal_lt {v : Fpn} {N : Nat} (h0 : 0 < N) (hN : N < v.size) (hs : sign v = false)
    (h : toReal v < 2 ^ (N - 1)) : ∃ w, resize v N = .ok w := by
  have hsum : leadingZeros v.bits + bitlength (uint v) = v.size := leadingZeros_add_bitlength v.bits
  have hfits : bitlength (uint v) ≤ N - 1 + v.decimal := bitlength_le_iff.mpr (uint_lt_of_toReal_lt hs h)
  have htrim : trimmable v = min (leadingZeros v.bits - 1) (v.size - v.decimal - 1) := rfl
  exact ⟨_, resize_shrink_ok h0 hN rfl rfl (by omega)⟩

/-- R105: resizing leaves a 0 at the top, and drops low bits at most. -/
theorem resize_nonneg {v w : Fpn} {N : Nat} (h1 : 1 ≤ v.size) (hs : sign v = false) (h : resize v N = .ok w) :
    sign w = false ∧ toReal w ≤ toReal v := by
  have hsize := resize_size h
  obtain ⟨h0, ⟨hgrow, rfl⟩ | ⟨t, e, hshrink, ht, he, hle, rfl⟩⟩ := resize_eq_ok h
  · have huint : bitsToNat (v.bits ++ List.replicate (N - v.size) (sign v)) = uint v := by
      rw [hs, bitsToNat_append, bitsToNat_replicate_false, Nat.mul_zero, Nat.add_zero, uint]
    have hsign : sign { v with bits := v.bits ++ List.replicate (N - v.size) (sign v) } = false := by
      rw [sign_eq_false_iff (by omega), hsize, uint_mk, huint]
      exact ((sign_eq_false_iff h1).mp hs).trans_le (Nat.pow_le_pow_right Nat.two_pos (by omega))
    refine ⟨hsign, le_of_eq ?_⟩
    rw [toReal_of_sign_false hsign, toReal_of_sign_false hs, uint_mk, huint]
  · have htrim : t ≤ trimmable v := ht ▸ min_le_right _ _
    have huint : bitsToNat ((v.bits.take (v.size - t)).drop e) = uint v / 2 ^ e := by
      rw [bitsToNat_drop, bitsToNat_take_trimmed htrim]
    have hidx : N - 1 + e = v.size - t - 1 := by omega
    have hsign : sign { v with decimal := v.decimal - e, bits := (v.bits.take (v.size - t)).drop e,
                               truncated := truncatedBy v e } = false := by
      rw [sign, bitAt_eq_testBit, hsize, uint_mk, huint, Nat.testBit_div_two_pow, hidx, testBit_top_trimmed htrim, hs]
    refine ⟨hsign, (toReal_cut_bounds (Nat.sub_add_cancel hle).symm ?_).1⟩
    rw [sint_of_sign_false hsign, sint_of_sign_false hs, uint_mk, huint]
    push_cast
    rfl

/-- R144: alignment drops less than one unit of the new last place. -/
theorem alignedNat_bounds {v : Fpn} (D : Nat) (hs : sign v = false) :
    (alignedNat v D : ℚ) / 2 ^ D ≤ toReal v ∧ toReal v < ((alignedNat v D : ℚ) + 1) / 2 ^ D := by
  have hlo : alignedNat v D * 2 ^ v.decimal ≤ uint v * 2 ^ D := Nat.div_mul_le_self _ _
  have hhi : uint v * 2 ^ D < (alignedNat v D + 1) * 2 ^ v.decimal :=
    (Nat.div_lt_iff_lt_mul (by positivity)).mp (Nat.lt_succ_self _)
  rw [toReal_of_sign_false hs, div_le_div_iff₀ (by positivity) (by positivity),
    div_lt_div_iff₀ (by positivity) (by positivity)]
  exact ⟨by exact_mod_cast hlo, by exact_mod_cast hhi⟩

/-- R144: alignment to a decimal index of at least 3 drops at most `1/8`; to the value's own index, nothing. -/
theorem toReal_sub_le_alignedNat {v : Fpn} {D : Nat} (hs : sign v = false) (hD : D = v.decimal ∨ 3 ≤ D) :
    toReal v - 1 / 8 ≤ (alignedNat v D : ℚ) / 2 ^ D := by
  rcases hD with rfl | hD
  · rw [alignedNat_self, toReal_of_sign_false hs]
    linarith
  · have hunit : (1 : ℚ) / 2 ^ D ≤ 1 / 8 := by
      have hpow : (2 : ℚ) ^ 3 ≤ 2 ^ D := pow_le_pow_right₀ (by norm_num) hD
      exact one_div_le_one_div_of_le (by norm_num) (by linarith)
    have hlt := (alignedNat_bounds D hs).2
    rw [add_div] at hlt
    linarith

theorem alignedNat_two (D : Nat) : alignedNat two D = 2 ^ (D + 1) := by
  have hu : uint two = 2 := rfl
  have hd : two.decimal = 0 := rfl
  rw [alignedNat, hu, hd, pow_zero, Nat.div_one, pow_succ']

/-- R198: the format of `2 − y` at a working width of at least 3 has three integer bits at least. -/
theorem sub_two_format {y : Fpn} (h : 3 ≤ y.size) :
    (sub two y).1.size = y.size ∧ (sub two y).1.decimal = y.size - max 3 (y.size - y.decimal) := by
  have hs : two.size = 3 := rfl
  have hd : two.decimal = 0 := rfl
  have hmax : max 3 y.size = y.size := max_eq_right h
  exact ⟨by rw [sub_size, hs, hmax], by rw [sub_decimal, commonFormat_snd, hs, hd, hmax]⟩

/-- The pattern of `2 − y`, when `y` is below 2: nothing is borrowed from above. -/
theorem sub_two_uint {y : Fpn} (h : 3 ≤ y.size) (hd : y.decimal ≤ y.size) (hs : sign y = false)
    (hlt : toReal y < 2) :
    alignedNat y (sub two y).1.decimal ≤ 2 ^ ((sub two y).1.decimal + 1) ∧
      uint (sub two y).1 = 2 ^ ((sub two y).1.decimal + 1) - alignedNat y (sub two y).1.decimal := by
  obtain ⟨-, hdec⟩ := sub_two_format h
  have htwo : two.size = 3 := rfl
  have htwod : two.decimal = 0 := rfl
  obtain ⟨huint, -⟩ := sub_uint_overflow (l := two) (r := y) (W := y.size) (D := (sub two y).1.decimal)
    (by decide) hd (by omega) (by omega)
  have hle : alignedNat y (sub two y).1.decimal ≤ 2 ^ ((sub two y).1.decimal + 1) := by
    have hlo := ((alignedNat_bounds (sub two y).1.decimal hs).1).trans_lt hlt
    rw [div_lt_iff₀ (by positivity), ← pow_succ'] at hlo
    exact_mod_cast hlo.le
  have hroom : 2 ^ ((sub two y).1.decimal + 1) < 2 ^ y.size := Nat.pow_lt_pow_right Nat.one_lt_two (by omega)
  refine ⟨hle, ?_⟩
  rw [huint, alignedNat_two, Nat.sub_add_comm hle, Nat.add_mod_right, Nat.mod_eq_of_lt (by omega)]

/-- What the factor `2 − y` is, for a divisor estimate `y` below 2 of at least 6 bits: at most 2, and at most `1/8`
above the exact difference. -/
theorem sub_two_nonneg {y : Fpn} (h : 6 ≤ y.size) (hd : y.decimal ≤ y.size) (hs : sign y = false)
    (hlt : toReal y < 2) :
    sign (sub two y).1 = false ∧ toReal (sub two y).1 ≤ 2 ∧ toReal (sub two y).1 ≤ 2 - toReal y + 1 / 8 := by
  obtain ⟨hsize, hdec⟩ := sub_two_format (y := y) (by omega)
  obtain ⟨hle, huint⟩ := sub_two_uint (by omega) hd hs hlt
  have hsign : sign (sub two y).1 = false := by
    rw [sign_eq_false_iff (by omega), huint, hsize]
    exact (Nat.sub_le _ _).trans_lt (Nat.pow_lt_pow_right Nat.one_lt_two (by omega))
  have hreal : toReal (sub two y).1 =
      2 - (alignedNat y (sub two y).1.decimal : ℚ) / 2 ^ (sub two y).1.decimal := by
    rw [toReal_of_sign_false hsign, huint, Nat.cast_sub hle, sub_div, pow_succ']
    push_cast
    rw [mul_div_cancel_right₀ _ (by positivity)]
  have hnonneg : 0 ≤ (alignedNat y (sub two y).1.decimal : ℚ) / 2 ^ (sub two y).1.decimal := by positivity
  have hclose := toReal_sub_le_alignedNat (D := (sub two y).1.decimal) hs (by omega)
  rw [hreal]
  exact ⟨hsign, by linarith, by linarith⟩

/-- An estimate inside the loop: of the working width, with sign bit 0, below `bound`. -/
structure Estimate (W : Nat) (bound : ℚ) (v : Fpn) : Prop where
  size : v.size = W
  decimal : v.decimal ≤ W
  sign : sign v = false
  lt : toReal v < bound

/-- R197: a non-negative operand, grown to the working width. -/
theorem Estimate.of_resize {v w : Fpn} {W : Nat} {bound : ℚ} (h1 : 1 ≤ v.size) (hd : v.decimal ≤ v.size)
    (hs : Machine.sign v = false) (hlt : toReal v < bound) (h : resize v W = .ok w) : Estimate W bound w := by
  obtain ⟨hsign, hle⟩ := resize_nonneg h1 hs h
  have hdec := resize_decimal_le h hd
  exact ⟨resize_size h, resize_size h ▸ hdec, hsign, hle.trans_lt hlt⟩

/-- One half of a pass: the product has room for its fraction, and its integer part has room in `W` bits. -/
theorem Estimate.mul_resize {v f : Fpn} {W : Nat} {bound bound' : ℚ} (hv : Estimate W bound v) (hW : 6 ≤ W)
    (hfs : f.size = W) (hfd : f.decimal + 3 ≤ W) (hf : Machine.sign f = false) (hlt : toReal v * toReal f < bound')
    (hb : bound' ≤ 2 ^ (W - 1)) : ∃ p w, mul v f = .ok p ∧ resize p.1 W = .ok w ∧ Estimate W bound' w := by
  obtain ⟨hvs, hvd, hv, -⟩ := hv
  obtain ⟨p, hp⟩ := mul_ok_of_fits (l := v) (r := f) (n := W) (by omega) (by omega)
  obtain ⟨-, hps, hpd, -⟩ := mul_eq_ok (n := W) (by omega) (by omega) hp
  obtain ⟨hreal, hsign, -⟩ := mul_nonnegative (by omega) (by omega) hv hf hp
  rw [← hreal] at hlt
  obtain ⟨w, hw⟩ := resize_ok_of_toReal_lt (v := p.1) (N := W) (by omega) (by omega) hsign (hlt.trans_le hb)
  exact ⟨p, w, hp, hw, Estimate.of_resize (by omega) (by omega) hsign hlt hw⟩

/-- With the factor at most `1/8` above `2 − y`, the next divisor estimate is below 2 again. -/
theorem mul_lt_two {y f : ℚ} (hy : 0 ≤ y) (hf : f ≤ 2 - y + 1 / 8) : y * f < 2 := by
  have hle : y * f ≤ y * (2 - y + 1 / 8) := mul_le_mul_of_nonneg_left hf hy
  nlinarith [sq_nonneg (y - 17 / 16)]

/-- The quotient estimate at most doubles on each pass, so that it stays below `2^5`. -/
theorem rdivLoop_completes {W : Nat} {t : ℚ} (hW : 6 ≤ W) (passes : Nat) :
    ∀ {x y : Fpn} {cost made : Nat}, Estimate W (2 ^ made) x → Estimate W 2 y → made + passes ≤ 5 →
      ∃ r, rdivLoop W t passes x y cost made = .ok r ∧ sign r.quotient = false := by
  induction passes with
  | zero => exact fun hx _ _ => ⟨_, rfl, hx.sign⟩
  | succ passes ih =>
    intro x y cost made hx hy h5
    have hyW := hy.size
    have hyD := hy.decimal
    obtain ⟨hfs, hfd⟩ := sub_two_format (y := y) (by omega)
    obtain ⟨hf, hf2, hfy⟩ := sub_two_nonneg (by omega) (by omega) hy.sign hy.lt
    have hdouble : toReal x * toReal (sub two y).1 < 2 ^ (made + 1) :=
      calc toReal x * toReal (sub two y).1 ≤ toReal x * 2 := mul_le_mul_of_nonneg_left hf2 (toReal_nonneg hx.sign)
        _ < 2 ^ made * 2 := mul_lt_mul_of_pos_right hx.lt two_pos
        _ = 2 ^ (made + 1) := (pow_succ 2 made).symm
    have hroom : ∀ k ≤ 5, (2 : ℚ) ^ k ≤ 2 ^ (W - 1) := fun k hk => pow_le_pow_right₀ one_le_two (by omega)
    obtain ⟨px, x', hpx, hrx, hx'⟩ :=
      hx.mul_resize hW (by omega) (by omega) hf hdouble (hroom _ (by omega))
    obtain ⟨py, y', hpy, hry, hy'⟩ :=
      hy.mul_resize hW (by omega) (by omega) hf (mul_lt_two (toReal_nonneg hy.sign) hfy)
        (by simpa using hroom 1 (by omega))
    obtain ⟨c, hloop⟩ := rdivLoop_succ (t := t) passes cost made hpx hpy hrx hry
    rw [hloop]
    split
    · exact ⟨_, rfl, hx'.sign⟩
    · exact ih hx' hy' (by omega)

/-- R196: a divisor in `[1/2, 1)` is normalised already. -/
theorem normalise_fraction {a b : Fpn} (hd : a.decimal ≤ a.size) (hs : sign b = false) (hlo : 1 / 2 ≤ toReal b)
    (hhi : toReal b < 1) : normalise a b = .ok (a, b) := by
  have hL : bitlength (sint b).natAbs = b.decimal := by
    have hlt := uint_lt_of_toReal_lt (k := 0) hs (by simpa using hhi)
    rw [Nat.zero_add, ← bitlength_le_iff] at hlt
    rw [toReal_of_sign_false hs, div_le_div_iff₀ two_pos (by positivity), one_mul] at hlo
    have hdouble : 2 ^ b.decimal ≤ uint b * 2 := by exact_mod_cast hlo
    have hlow : ¬ bitlength (uint b) < b.decimal := by
      intro hless
      have hsmall : uint b < 2 ^ (b.decimal - 1) := bitlength_le_iff.mp (by omega)
      have hpow : 2 ^ b.decimal = 2 ^ (b.decimal - 1) * 2 := by rw [← pow_succ]; congr 1; omega
      omega
    rw [sint_of_sign_false hs, Int.natAbs_natCast]
    omega
  rw [normalise_eq (da := a.decimal) (by omega), if_neg (by omega), hL, Int.toNat_natCast]

/-- Settles O56: the loop answers, and what it answers is known from O55. -/
theorem rdivCompletesOnFractions : Obligations.RdivCompletesOnFractions := by
  intro s rd rs1 rs2 a b ha hb had hbd hsa hsb ha1 hlo hhi hW
  have hne : uint b ≠ 0 := by
    intro h0
    rw [toReal_of_sign_false hsb, h0, Nat.cast_zero, zero_div] at hlo
    norm_num at hlo
  obtain ⟨x, hx⟩ : ∃ x, resize a (max a.size b.size) = .ok x := ⟨_, resize_grow (by omega) (le_max_left _ _)⟩
  obtain ⟨y, hy⟩ : ∃ y, resize b (max a.size b.size) = .ok y := ⟨_, resize_grow (by omega) (le_max_right _ _)⟩
  have hxE : Estimate _ (2 ^ 0) x := .of_resize (by omega) had.le hsa (by simpa using ha1) hx
  have hyE : Estimate _ 2 y := .of_resize (by omega) hbd.le hsb (by linarith) hy
  obtain ⟨r, hr, hsign⟩ := rdivLoop_completes (t := toReal a / toReal b) hW 5 (cost := 0) hxE hyE le_rfl
  have hok : rdiv a b = .ok r := by
    rw [rdiv_of_ne_zero hne, normalise_fraction had.le hsb hlo hhi, except_ok_bind]
    simp only [hx, hy, except_ok_bind, hr]
  obtain ⟨hsize, -, hst⟩ := rdiv_ends rfl hok
  refine ⟨_, _, _, _, exec_rdiv_ok rd ha hb hok, hsize, hsign, ?_⟩
  obtain ⟨hst, h1, h5, -⟩ | ⟨hst, hk, -⟩ := hst
  · exact ⟨.inl hst, h1, by omega⟩
  · exact ⟨.inr hst, by omega, by omega⟩

end Sys2Proof.Machine
end
section
/-! SUPPORT. Family System (`spec/44_system.md`): what a command does to `COST`, and `CLRCOST` with the words of its
opcode. -/

namespace Sys2Proof.Machine

/-! ### COST over all commands (R220, R222) -/

/-- R222: each shape of `exec_cases` but that of `CLRCOST` leaves `COST` as it was or adds to it. -/
theorem exec_cost_le {i : Instr} {s t : State} (h : exec i s = .next t) (hi : i ≠ .clrcost) : s.cost ≤ t.cost := by
  rcases exec_cases i s t h with ⟨k, rfl⟩ | ⟨r, x, c, -, -, -, -, rfl⟩ | ⟨r, x, c, st, k, -, -, -, rfl⟩ |
    ⟨r, x, -, rfl⟩ | ⟨n, -, rfl⟩ | ⟨p, -, rfl⟩ | ⟨rs1, a, x, u, -, -, hu, rfl⟩ | ⟨hclr, -⟩
  case inr.inl | inr.inr.inl => exact Nat.le_add_right s.cost c
  case inr.inr.inr.inr.inr.inr.inl =>
    obtain ⟨-, rfl⟩ := State.memWrite_eq_ok.mp hu
    exact le_rfl
  case inr.inr.inr.inr.inr.inr.inr => exact absurd hclr hi
  all_goals exact le_rfl

/-- A command takes its fault or leaves the machine as faulted as it was (R246, R250). -/
theorem exec_takeFault_or_faulted_eq {i : Instr} {s t : State} (h : exec i s = .next t) :
    (∃ k, t = takeFault k (encode i) s) ∨ t.faulted = s.faulted := by
  rcases exec_cases i s t h with hk | ⟨r, x, c, -, -, -, -, rfl⟩ | ⟨r, x, c, st, k, -, -, -, rfl⟩ |
    ⟨r, x, -, rfl⟩ | ⟨n, -, rfl⟩ | ⟨p, -, rfl⟩ | ⟨rs1, a, x, u, -, -, hu, rfl⟩ | ⟨-, rfl⟩
  case inl => exact .inl hk
  case inr.inr.inl => exact .inr (State.setDiv_faulted _ st k)
  case inr.inr.inr.inr.inr.inr.inl =>
    obtain ⟨-, rfl⟩ := State.memWrite_eq_ok.mp hu
    exact .inr rfl
  all_goals exact .inr rfl

/-- Settles O13: a command that ends faulted where it did not begin so has taken its fault, which writes no `COST`. -/
theorem costNeverDecreases : Obligations.CostNeverDecreases := by
  intro i s t h
  refine ⟨exec_cost_le h, fun hs ht => ?_⟩
  rcases exec_takeFault_or_faulted_eq h with ⟨k, rfl⟩ | hsame
  · exact takeFault_cost k (encode i) s
  · rw [hsame, hs] at ht
    cases ht

/-! ### CLRCOST and the words of its opcode (R221) -/

/-- R70: of the words with the opcode `0x30`, the decoder reads no command but `CLRCOST`. -/
theorem eq_clrcost_of_decode {w : Word} {i : Instr} (hop : w.extractLsb' 56 8 = 0x30#8) (h : decode w = .ok i) :
    i = .clrcost := by
  have hfields : (fields w).op.toNat = 0x30 := congrArg BitVec.toNat hop
  rw [decode, decodeFields, hfields] at h
  exact (whenUnusedZero_eq_ok.mp h).2.symm

/-- R69, R72: any word with the opcode `0x30` but the one of `CLRCOST` is illegal. -/
theorem legalWord_eq_false_of_op_clrcost {w : Word} (hop : w.extractLsb' 56 8 = 0x30#8) (hw : w ≠ encode .clrcost) :
    legalWord w = false := by
  rw [← Bool.not_eq_true, ← decode_ok_iff_legalWord]
  rintro ⟨i, hdec⟩
  obtain rfl := eq_clrcost_of_decode hop hdec
  exact hw (decodeThenEncodeIsIdentity w .clrcost hdec).symm

/-- Settles O58: a word of the opcode other than that of `CLRCOST` decodes to nothing. -/
theorem clrcostClearsCostOnly : Obligations.ClrcostClearsCostOnly := by
  refine ⟨rfl, fun s => rfl, fun s w rest hop hw hhost hf => ?_⟩
  rw [step_present hhost, ← State.popHost_eq hhost]
  exact runWord_of_illegal hf (legalWord_eq_false_of_op_clrcost hop hw)

end Sys2Proof.Machine
end
section
/-! SUPPORT. Family Exceptions (`spec/60_exceptions.md`): which faults a command takes, and what the host does in the
faulted state. Every command reads its sources, then checks and computes, then writes (R29, R249). `FaultRules` says what
that order makes of a command's answer; it has one rule for a read, one for a check or a computation and one for the
writes, and every command is put together from these three. -/

namespace Sys2Proof.Machine

/-! ### The faults of the operands (R241, R242, R248) -/

/-- The kinds that a check of operands, or a computation on them, raises. -/
def OperandFault (k : FaultKind) : Prop := k = .widthMismatch ∨ k = .invalidArgument ∨ k = .bufferRange

/-- A check or a computation that raises no other kind. -/
def OnlyOperandFaults {α : Type} (f : Except FaultKind α) : Prop := ∀ k, f = .error k → OperandFault k

section
variable {α β : Type}

theorem OnlyOperandFaults.ok {a : α} : OnlyOperandFaults (.ok a) := nofun

theorem OnlyOperandFaults.widthMismatch : OnlyOperandFaults (.error .widthMismatch : Except FaultKind α) :=
  fun _ h => .inl (Except.error.inj h).symm

theorem OnlyOperandFaults.invalidArgument : OnlyOperandFaults (.error .invalidArgument : Except FaultKind α) :=
  fun _ h => .inr (.inl (Except.error.inj h).symm)

theorem OnlyOperandFaults.bufferRange : OnlyOperandFaults (.error .bufferRange : Except FaultKind α) :=
  fun _ h => .inr (.inr (Except.error.inj h).symm)

theorem OnlyOperandFaults.ite {c : Prop} [Decidable c] {f g : Except FaultKind α} (hf : OnlyOperandFaults f)
    (hg : OnlyOperandFaults g) : OnlyOperandFaults (if c then f else g) := by
  split
  · exact hf
  · exact hg

theorem OnlyOperandFaults.bind {f : Except FaultKind α} {g : α → Except FaultKind β} (hf : OnlyOperandFaults f)
    (hg : ∀ a, OnlyOperandFaults (g a)) : OnlyOperandFaults (f >>= g) := by
  intro k h
  rcases except_bind_eq_error.mp h with h | ⟨a, -, h⟩
  · exact hf k h
  · exact hg a k h

end

theorem memRead_onlyOperandFaults (s : State) (addr n : Nat) : OnlyOperandFaults (s.memRead addr n) :=
  .ite .bufferRange .ok

theorem memWrite_onlyOperandFaults (s : State) (addr : Nat) (t : List Byte) : OnlyOperandFaults (s.memWrite addr t) :=
  .ite .bufferRange .ok

theorem parse_onlyOperandFaults (t : List Byte) : OnlyOperandFaults (parse t) :=
  .ite .invalidArgument (.ite .invalidArgument (.ite .invalidArgument .ok))

theorem newValue_onlyOperandFaults (size dec : Nat) : OnlyOperandFaults (newValue size dec) := .ite .invalidArgument .ok

theorem assignValue_onlyOperandFaults (S : Nat) (p : Parsed) : OnlyOperandFaults (assignValue S p) :=
  .ite .widthMismatch .ok

theorem setDigit_onlyOperandFaults (v : Fpn) (index bit : Nat) : OnlyOperandFaults (setDigit v index bit) :=
  .ite .invalidArgument .ok

theorem setDecimal_onlyOperandFaults (v : Fpn) (dec : Nat) : OnlyOperandFaults (setDecimal v dec) :=
  .ite .invalidArgument .ok

theorem resize_onlyOperandFaults (v : Fpn) (N : Nat) : OnlyOperandFaults (resize v N) :=
  .ite .invalidArgument (.ite .ok (.ite .widthMismatch .ok))

theorem pad_onlyOperandFaults (v : Fpn) (N : Nat) : OnlyOperandFaults (pad v N) := .ite .widthMismatch .ok

theorem trunc_onlyOperandFaults (v : Fpn) (N : Nat) : OnlyOperandFaults (trunc v N) :=
  .ite .invalidArgument (.ite .widthMismatch (.ite .widthMismatch .ok))

theorem mul_onlyOperandFaults (l r : Fpn) : OnlyOperandFaults (mul l r) :=
  .bind (pad_onlyOperandFaults l _) fun _ => .bind (pad_onlyOperandFaults r _) fun _ => .ite .widthMismatch .ok

theorem mulIntoRegister_onlyOperandFaults (l r : Fpn) : OnlyOperandFaults (mulIntoRegister l r) :=
  .ite .widthMismatch (mul_onlyOperandFaults l r)

theorem mdivLoop_onlyOperandFaults (n : Nat) (one : Fpn) (passes : Nat) :
    ∀ (f ai bi : Fpn) (cost made : Nat), OnlyOperandFaults (mdivLoop n one passes f ai bi cost made) := by
  induction passes with
  | zero => intro f ai bi cost made; exact .ok
  | succ passes ih =>
    intro f ai bi cost made
    exact .bind (mul_onlyOperandFaults ai f) fun pa => .bind (mul_onlyOperandFaults bi f) fun pb =>
      .bind (trunc_onlyOperandFaults pa.1 n) fun ai' => .bind (trunc_onlyOperandFaults pb.1 n) fun bi' =>
      .ite .ok (ih _ _ _ _ _)

/-- R192: `MDIV` does not look at whether its divisor is zero. -/
theorem mdiv_onlyOperandFaults (a b : Fpn) : OnlyOperandFaults (mdiv a b) :=
  .ite .widthMismatch (mdivLoop_onlyOperandFaults _ _ _ _ _ _ _ _)

theorem normalise_onlyOperandFaults (a b : Fpn) : OnlyOperandFaults (normalise a b) := .ite .widthMismatch .ok

theorem rdivLoop_onlyOperandFaults (W : Nat) (q : ℚ) (passes : Nat) :
    ∀ (x y : Fpn) (cost made : Nat), OnlyOperandFaults (rdivLoop W q passes x y cost made) := by
  induction passes with
  | zero => intro x y cost made; exact .ok
  | succ passes ih =>
    intro x y cost made
    exact .bind (mul_onlyOperandFaults x _) fun px => .bind (mul_onlyOperandFaults y _) fun py =>
      .bind (resize_onlyOperandFaults px.1 W) fun x' => .bind (resize_onlyOperandFaults py.1 W) fun y' =>
      .ite .ok (ih _ _ _ _)

theorem rdiv_onlyOperandFaults {a b : Fpn} (h : isZero b = false) : OnlyOperandFaults (rdiv a b) := by
  rw [rdiv, h]
  exact .bind (normalise_onlyOperandFaults a b) fun ab => .bind (resize_onlyOperandFaults ab.1 _) fun x =>
    .bind (resize_onlyOperandFaults ab.2 _) fun y => rdivLoop_onlyOperandFaults _ _ _ _ _ _ _

/-! ### What the order of the checks makes of a command's answer (R249) -/

/-- The answer `r` of a command that has still to read `srcs`: its writes leave `STATUS.FAULT` and `FCMD`, an empty
source is its cause of `UnwrittenRegister`, and `zero` that of `DivideByZero`. -/
structure FaultRules (srcs : List Reg) (zero : Prop) (s : State) (r : Except FaultKind State) : Prop where
  keeps : ∀ t, r = .ok t → t.faultCode = s.faultCode ∧ t.fcmd = s.fcmd
  unwritten : r = .error .unwrittenRegister ↔ ∃ q ∈ srcs, s.v.get q = none
  divideByZero : r = .error .divideByZero ↔ zero

section
variable {s : State} {srcs : List Reg} {zero : Prop} {rd rs1 rs2 : Reg}

theorem FaultRules.write {t : State} (hcode : t.faultCode = s.faultCode) (hfcmd : t.fcmd = s.fcmd) :
    FaultRules [] False s (.ok t) where
  keeps := by rintro u ⟨⟩; exact ⟨hcode, hfcmd⟩
  unwritten := by simp
  divideByZero := by simp

/-- A check or a computation, once every source is read. -/
theorem FaultRules.compute {α : Type} {f : Except FaultKind α} {g : α → Except FaultKind State}
    (hf : OnlyOperandFaults f) (hg : ∀ a, f = .ok a → FaultRules [] False s (g a)) :
    FaultRules [] False s (f >>= g) := by
  cases f with
  | ok a => exact hg a rfl
  | error k =>
    have hk : OperandFault k := hf k rfl
    refine ⟨nofun, ?_, ?_⟩ <;> rcases hk with rfl | rfl | rfl <;> simp

/-- R27: a read of an empty register is the fault, before anything later is looked at. -/
theorem FaultRules.read {q : Reg} {g : Fpn → Except FaultKind State} (hzero : zero → s.v.get q ≠ none)
    (hg : ∀ x, s.v.get q = some x → FaultRules srcs zero s (g x)) :
    FaultRules (q :: srcs) zero s (s.readReg q >>= g) := by
  cases hq : s.v.get q with
  | none =>
    rw [State.readReg_none hq, except_error_bind]
    have hnz : ¬ zero := fun hz => hzero hz hq
    exact ⟨nofun, by simp [hq], by simp [hnz]⟩
  | some x =>
    obtain ⟨hkeeps, hunwritten, hdiv⟩ := hg x hq
    rw [State.readReg_some hq, except_ok_bind]
    exact ⟨hkeeps, by simpa [hq] using hunwritten, hdiv⟩

theorem FaultRules.convert {f : Fpn → Except FaultKind Fpn} (hf : ∀ x, OnlyOperandFaults (f x)) :
    FaultRules [rs1] False s (convert rd rs1 f s) :=
  .read nofun fun x _ => .compute (hf x) fun _ _ => .write rfl rfl

theorem FaultRules.query {f : Fpn → Nat} : FaultRules [rs1] False s (query rs1 f s) :=
  .read nofun fun _ _ => .write rfl rfl

theorem FaultRules.arith {f : Fpn → Fpn → Except FaultKind (Fpn × Nat)} (hf : ∀ l r, OnlyOperandFaults (f l r)) :
    FaultRules [rs1, rs2] False s (arith rd rs1 rs2 f s) :=
  .read nofun fun l _ => .read nofun fun r _ => .compute (hf l r) fun _ _ => .write rfl rfl

/-- The answer of a division engine, written. -/
theorem FaultRules.writeDivision {f : Except FaultKind DivResult} (hf : OnlyOperandFaults f) :
    FaultRules [] False s (do
      let r ← f
      .ok (((s.setReg rd r.quotient).addCost r.cost).setDiv r.state r.iterations)) :=
  .compute hf fun _ _ => .write (by simp) rfl

end

/-- R195, R243: the command is an `RDIV` with written sources and a divisor whose bits are all 0. -/
def DividesByZero (s : State) : Instr → Prop
  | .rdiv _ rs1 rs2 => ∃ a b, s.v.get rs1 = some a ∧ s.v.get rs2 = some b ∧ ∀ x ∈ b.bits, x = false
  | _ => False

theorem dividesByZero_iff {s : State} {i : Instr} : DividesByZero s i ↔
    ∃ rd rs1 rs2 a b, i = .rdiv rd rs1 rs2 ∧ s.v.get rs1 = some a ∧ s.v.get rs2 = some b ∧
      ∀ x ∈ b.bits, x = false := by
  constructor
  · intro h
    cases i with
    | rdiv rd rs1 rs2 => obtain ⟨a, b, h⟩ := h; exact ⟨rd, rs1, rs2, a, b, rfl, h⟩
    | _ => exact h.elim
  · rintro ⟨rd, rs1, rs2, a, b, rfl, h⟩
    exact ⟨a, b, h⟩

theorem isZero_eq_true_iff_bits (v : Fpn) : isZero v = true ↔ ∀ x ∈ v.bits, x = false :=
  (isZero_eq_true_iff v).trans bitsToNat_eq_zero

/-- R195: the check of the divisor comes after the reads and before everything else. -/
theorem rdiv_faultRules (s : State) (rd rs1 rs2 : Reg) :
    FaultRules [rs1, rs2] (DividesByZero s (.rdiv rd rs1 rs2)) s (divide rd rs1 rs2 rdiv s) := by
  refine .read (by rintro ⟨a, b, ha, -⟩; simp [ha]) fun a ha => ?_
  refine .read (by rintro ⟨a, b, -, hb, -⟩; simp [hb]) fun b hb => ?_
  have hiff : DividesByZero s (.rdiv rd rs1 rs2) ↔ isZero b = true := by
    simp [DividesByZero, ha, hb, isZero_eq_true_iff_bits]
  cases hz : isZero b with
  | true =>
    have hr : rdiv a b = .error .divideByZero := if_pos hz
    rw [hr, except_error_bind]
    exact ⟨nofun, by simp, by simp [hiff, hz]⟩
  | false =>
    rw [eq_false (p := DividesByZero s _) (by simp [hiff, hz])]
    exact .writeDivision (rdiv_onlyOperandFaults hz)

/-- Every command, taken apart into its reads, its checks and its writes. -/
theorem exec_faultRules (i : Instr) (s : State) :
    ∃ r, exec i s = complete i s r ∧ FaultRules (sources i) (DividesByZero s i) s r := by
  cases i with
  | new rd size dec =>
    exact ⟨_, rfl, .compute (newValue_onlyOperandFaults _ _) fun _ _ => .write rfl rfl⟩
  | setint rd imm => exact ⟨_, rfl, .convert fun _ => .ok⟩
  | ldstr rd addr len =>
    exact ⟨_, rfl, .compute (memRead_onlyOperandFaults s _ _) fun t _ =>
      .compute (parse_onlyOperandFaults t) fun _ _ => .write rfl rfl⟩
  | asgstr rd addr len =>
    exact ⟨_, rfl, .read nofun fun old _ => .compute (memRead_onlyOperandFaults s _ _) fun t _ =>
      .compute (parse_onlyOperandFaults t) fun p _ =>
      .compute (assignValue_onlyOperandFaults old.size p) fun _ _ => .write rfl rfl⟩
  | mov rd rs1 => exact ⟨_, rfl, .convert fun _ => .ok⟩
  | compl rd => exact ⟨_, rfl, .read nofun fun _ _ => .write rfl rfl⟩
  | shl rd n => exact ⟨_, rfl, .convert fun _ => .ok⟩
  | shr rd n => exact ⟨_, rfl, .convert fun _ => .ok⟩
  | setdig rd index bit => exact ⟨_, rfl, .convert fun x => setDigit_onlyOperandFaults x _ _⟩
  | setdec rd dec => exact ⟨_, rfl, .convert fun x => setDecimal_onlyOperandFaults x _⟩
  | resize rd rs1 n => exact ⟨_, rfl, .convert fun x => resize_onlyOperandFaults x _⟩
  | pad rd rs1 n => exact ⟨_, rfl, .convert fun x => pad_onlyOperandFaults x _⟩
  | trunc rd rs1 n => exact ⟨_, rfl, .convert fun x => trunc_onlyOperandFaults x _⟩
  | size rs1 => exact ⟨_, rfl, .query⟩
  | decidx rs1 => exact ⟨_, rfl, .query⟩
  | ovf rs1 => exact ⟨_, rfl, .query⟩
  | cin rs1 => exact ⟨_, rfl, .query⟩
  | truncf rs1 => exact ⟨_, rfl, .query⟩
  | toreal rs1 => exact ⟨_, rfl, .read nofun fun _ _ => .write rfl rfl⟩
  | ststr rs1 addr =>
    refine ⟨_, rfl, .read nofun fun x _ => .compute (memWrite_onlyOperandFaults s _ _) fun u hu => ?_⟩
    obtain ⟨-, rfl⟩ := State.memWrite_eq_ok.mp hu
    exact .write rfl rfl
  | eq rs1 rs2 => exact ⟨_, rfl, .read nofun fun _ _ => .read nofun fun _ _ => .write rfl rfl⟩
  | fa a b c => exact ⟨.ok (s.setQ _), rfl, .write rfl rfl⟩
  | add rd rs1 rs2 => exact ⟨_, rfl, .arith fun _ _ => .ok⟩
  | sub rd rs1 rs2 => exact ⟨_, rfl, .arith fun _ _ => .ok⟩
  | mul rd rs1 rs2 => exact ⟨_, rfl, .arith mulIntoRegister_onlyOperandFaults⟩
  | mdiv rd rs1 rs2 =>
    exact ⟨_, rfl, .read nofun fun a _ => .read nofun fun b _ => .writeDivision (mdiv_onlyOperandFaults a b)⟩
  | rdiv rd rs1 rs2 => exact ⟨_, rfl, rdiv_faultRules s rd rs1 rs2⟩
  | clrcost => exact ⟨.ok { s with cost := 0 }, rfl, .write rfl rfl⟩

/-! ### The fault code after a command -/

/-- R38, R240: the six kinds have six codes. -/
theorem FaultKind.code_injective : Function.Injective FaultKind.code := by
  intro j k
  cases j <;> cases k <;> decide

theorem State.faulted_eq_false_iff {s : State} : s.faulted = false ↔ s.faultCode = 0#4 := by
  simp [State.faulted]

/-- R246: from a state that is not faulted, the code of a kind is there exactly when the command's answer is that
fault. -/
theorem FaultRules.faultCode_eq_iff {srcs : List Reg} {zero : Prop} {i : Instr} {s t : State}
    {r : Except FaultKind State} (hr : FaultRules srcs zero s r) (hs : s.faulted = false)
    (ht : complete i s r = .next t) (k : FaultKind) : t.faultCode = k.code ↔ r = .error k := by
  rcases complete_next ht with rfl | ⟨j, rfl, rfl⟩
  · rw [(hr.keeps t rfl).1, State.faulted_eq_false_iff.mp hs]
    simp [k.code_ne_zero.symm]
  · rw [takeFault_faultCode, FaultKind.code_injective.eq_iff, Except.error.injEq]

/-- Settles O18: a command's answer is its writes, which leave `STATUS.FAULT` and `FCMD`, or the fault entry. -/
theorem faultsArePrecise : Obligations.FaultsArePrecise := by
  refine ⟨fun i s => ?_, fun w s => by simp [FaultKind.code]⟩
  obtain ⟨r, hexec, hr⟩ := exec_faultRules i s
  cases r with
  | ok t => exact ⟨t, hexec, .inl (hr.keeps t rfl)⟩
  | error k => exact ⟨takeFault k (encode i) s, hexec, .inr ⟨k, by simp⟩⟩

/-- Settles O19. -/
theorem emptySourceRaisesUnwrittenRegister : Obligations.EmptySourceRaisesUnwrittenRegister := by
  intro i s
  obtain ⟨r, hexec, hr⟩ := exec_faultRules i s
  refine ⟨fun hempty => ⟨?_, takeFault_faultCode _ _ _⟩, fun hwritten hs t ht hcode => ?_⟩
  · rw [hexec, hr.unwritten.mpr hempty, complete_error]
  · have hfault := (hr.faultCode_eq_iff hs (hexec ▸ ht) .unwrittenRegister).mp hcode
    obtain ⟨q, hq, hnone⟩ := hr.unwritten.mp hfault
    exact hwritten q hq hnone

/-- Settles O24. -/
theorem onlyRdivByZeroRaisesDivideByZero : Obligations.OnlyRdivByZeroRaisesDivideByZero := by
  intro i s t hs ht
  obtain ⟨r, hexec, hr⟩ := exec_faultRules i s
  exact ((hr.faultCode_eq_iff hs (hexec ▸ ht) .divideByZero).trans hr.divideByZero).trans dividesByZero_iff

/-! ### Accesses past the end of BUF (R248) -/

/-- Settles O20. -/
theorem accessPastEndRaisesBufferRange : Obligations.AccessPastEndRaisesBufferRange := by
  intro s r addr len x
  refine ⟨fun w => takeFault_faultCode _ w s, fun hpast => ?_, fun hx hpast => ?_, fun hx hpast => ?_⟩
  · rw [exec, execLdstr, State.memRead_eq_error.mpr ⟨hpast, rfl⟩, except_error_bind, complete_error]
  · rw [exec, execAsgstr, State.readReg_some hx, except_ok_bind, State.memRead_eq_error.mpr ⟨hpast, rfl⟩,
      except_error_bind, complete_error]
  · have hw : s.memWrite addr.toNat (display x) = .error .bufferRange :=
      State.memWrite_eq_error.mpr ⟨by rwa [display_length], rfl⟩
    rw [exec, execStstr, State.readReg_some hx, except_ok_bind, hw, except_error_bind, complete_error]

/-! ### Requests that no value can answer (R242) -/

theorem setDigit_error {v : Fpn} {index bit : Nat} (h : index ≥ v.size ∨ bit > 1) :
    setDigit v index bit = .error .invalidArgument := if_pos h

theorem setDecimal_error {v : Fpn} {dec : Nat} (h : dec > v.size) : setDecimal v dec = .error .invalidArgument :=
  if_pos h

theorem resize_zero (v : Fpn) : resize v 0 = .error .invalidArgument := if_pos rfl

theorem trunc_zero (v : Fpn) : trunc v 0 = .error .invalidArgument := if_pos rfl

/-- Settles O21. -/
theorem badRequestsRaiseInvalidArgument : Obligations.BadRequestsRaiseInvalidArgument := by
  intro s rd rs1 m n x
  refine ⟨fun w => takeFault_faultCode _ w s, fun hx hbad => ?_, fun hx hbad => ?_, fun hx => ⟨?_, ?_⟩⟩
  · exact complete_convert_error hx (setDigit_error hbad)
  · exact complete_convert_error hx (setDecimal_error hbad)
  · exact complete_convert_error hx (resize_zero x)
  · exact complete_convert_error hx (trunc_zero x)

/-! ### Widths that cannot be reconciled (R241) -/

theorem pad_error {v : Fpn} {N : Nat} (h : N < v.size) : pad v N = .error .widthMismatch := if_pos h

theorem trunc_error {v : Fpn} {N : Nat} (h0 : 0 < N) (h : N > v.size ∨ v.size - N > v.decimal) :
    trunc v N = .error .widthMismatch := by
  rw [trunc, if_neg h0.ne']
  split
  · rfl
  · next hle => exact if_pos (h.resolve_left hle)

/-- R166: no product has room for the sum of the decimal indices. -/
theorem mul_error_of_no_room {l r : Fpn} {n : Nat} (hn : n = max l.size r.size)
    (h : l.decimal + r.decimal + (2 * n - l.size - r.size) > 2 * n - 1) : mul l r = .error .widthMismatch := by
  have hl := pad_eq_ok (v := l) (N := n).mpr ⟨by omega, rfl⟩
  have hr := pad_eq_ok (v := r) (N := n).mpr ⟨by omega, rfl⟩
  simp only [mul, ← hn, hl, hr, except_ok_bind]
  exact if_pos (by omega)

/-- R171: a product that is wider than a register, or that has no format. -/
theorem mulIntoRegister_error {l r : Fpn} {n : Nat} (hn : n = max l.size r.size)
    (h : n > 32768 ∨ l.decimal + r.decimal + (2 * n - l.size - r.size) > 2 * n - 1) :
    mulIntoRegister l r = .error .widthMismatch := by
  rw [mulIntoRegister, ← hn, Config.wmax]
  split
  · rfl
  · next hfit => exact mul_error_of_no_room hn (h.resolve_left (by omega))

theorem complete_arith_error {i : Instr} {rd rs1 rs2 : Reg} {f : Fpn → Fpn → Except FaultKind (Fpn × Nat)} {s : State}
    {l r : Fpn} {k : FaultKind} (hl : s.v.get rs1 = some l) (hr : s.v.get rs2 = some r) (hf : f l r = .error k) :
    complete i s (arith rd rs1 rs2 f s) = .next (takeFault k (encode i) s) := by
  rw [arith, State.readReg_some hl, except_ok_bind, State.readReg_some hr, except_ok_bind, hf, except_error_bind,
    complete_error]

theorem complete_divide_error {i : Instr} {rd rs1 rs2 : Reg} {f : Fpn → Fpn → Except FaultKind DivResult} {s : State}
    {a b : Fpn} {k : FaultKind} (ha : s.v.get rs1 = some a) (hb : s.v.get rs2 = some b) (hf : f a b = .error k) :
    complete i s (divide rd rs1 rs2 f s) = .next (takeFault k (encode i) s) := by
  rw [divide, State.readReg_some ha, except_ok_bind, State.readReg_some hb, except_ok_bind, hf, except_error_bind,
    complete_error]

theorem mdiv_error_of_no_integer_bit {a b : Fpn} (h : a.decimal ≥ a.size) : mdiv a b = .error .widthMismatch := if_pos h

/-- R190: the product of the dividend and the first factor has twice the dividend's fraction bits, and the cut to the
dividend's size takes more. -/
theorem mdiv_error_of_few_fraction_bits {a b : Fpn} (h : 2 * a.decimal < a.size - 1) :
    mdiv a b = .error .widthMismatch := by
  have hn : a.size = max a.size (oneLike a).size := by rw [oneLike_size, max_self]
  have hone : (oneLike a).decimal = a.decimal := rfl
  obtain ⟨pa, hpa⟩ := mul_ok_of_fits (l := a) (r := oneLike a) hn (by rw [oneLike_size]; omega)
  obtain ⟨-, hsize, hdec, -⟩ := mul_eq_ok hn (by omega) hpa
  rw [oneLike_size] at hdec
  have hcut : trunc pa.1 a.size = .error .widthMismatch := trunc_error (by omega) (.inr (by omega))
  rw [mdiv_of_integer_bit (by omega), mdivLoop, hpa, except_ok_bind]
  cases hpb : mul b (oneLike a) with
  | ok pb => rw [except_ok_bind, hcut, except_error_bind]
  | error k => rw [except_error_bind, (mul_eq_error rfl hpb).1]

/-- Settles O23. -/
theorem irreconcilableWidthsRaiseWidthMismatch : Obligations.IrreconcilableWidthsRaiseWidthMismatch := by
  intro s rd rs1 rs2 n x y hx hy
  refine ⟨fun w => takeFault_faultCode _ w s, fun hpad => ?_, fun h0 htrunc => ?_, fun hmul => ?_, fun hint => ?_,
    fun hfrac => ?_⟩
  · exact complete_convert_error hx (pad_error hpad)
  · exact complete_convert_error hx (trunc_error h0 htrunc)
  · exact complete_arith_error hx hy (mulIntoRegister_error rfl hmul)
  · exact complete_divide_error hx hy (mdiv_error_of_no_integer_bit hint)
  · exact complete_divide_error hx hy (mdiv_error_of_few_fraction_bits hfrac)

/-! ### The faulted state and the host (R247, R254, R258) -/

theorem step_read {s : State} {rest : List HostAction} (h : s.host = .read :: rest) : step s = .next s.popHost := by
  simp [step, h, hostRead]

theorem step_writeBuf {s : State} {a : BitVec 16} {b : Byte} {rest : List HostAction}
    (h : s.host = .writeBuf a b :: rest) : step s = .next (hostWrite a b s.popHost) := by
  simp [step, h]

theorem step_reset {s : State} {rest : List HostAction} (h : s.host = .reset :: rest) :
    step s = .next (hostReset s.popHost) := by
  simp [step, h]

theorem step_idle {s : State} (h : s.host = []) : step s = .next s := by simp [step, h, hostIdle]

theorem runWord_popHost_of_faulted {s : State} (w : Word) (h : s.faulted = true) :
    runWord w s.popHost = .next s.popHost := if_pos h

theorem hostWrite_bufByte (a : BitVec 16) (b : Byte) (s : State) (x : Nat) :
    (hostWrite a b s).bufByte x = if x = a.toNat then b else s.bufByte x := by
  simp only [State.bufByte, hostWrite_buf, hostWrite_epoch, Memory.read_write]
  split <;> rfl

/-- R247: in the faulted state a step other than a reset changes `BUF` and the list of actions at most. -/
theorem step_of_faulted {s t : State} (hf : s.faulted = true) (hr : s.host.head? ≠ some .reset)
    (h : step s = .next t) : t = { s with buf := t.buf, host := t.host } := by
  rcases step_cases h with ⟨-, rfl⟩ | ⟨rest, -, rfl⟩ | ⟨a, b, rest, -, rfl⟩ | ⟨w, rest, -, hw⟩ | ⟨rest, hh, -⟩
  · rfl
  · rfl
  · rfl
  · rw [runWord_popHost_of_faulted w hf] at hw
    cases hw
    rfl
  · exact absurd (by rw [hh]; rfl) hr

/-- Settles O7. -/
theorem faultedBlockIgnoresCommands : Obligations.FaultedBlockIgnoresCommands := by
  intro s hf
  refine ⟨fun w rest hhost => ?_, fun t hr ht => ?_, fun rest hhost => ?_⟩
  · rw [step_present hhost, runWord_popHost_of_faulted w hf, State.popHost_eq hhost]
  · rw [step_of_faulted hf hr ht]
    exact ⟨hf, rfl, rfl, rfl, rfl, rfl, rfl⟩
  · exact ⟨_, step_reset hhost, by simp [State.faulted, State.faultCode]⟩

/-- Settles O9. -/
theorem hostReadsAndWrites : Obligations.HostReadsAndWrites := by
  intro s rest
  refine ⟨fun hhost => ?_, step_idle, fun a b hhost => ⟨_, step_writeBuf hhost, fun x => ?_, ?_⟩⟩
  · rw [step_read hhost, State.popHost_eq hhost]
  · exact hostWrite_bufByte a b s.popHost x
  · rw [State.popHost_eq hhost]
    rfl

end Sys2Proof.Machine
end
section
/-! SUPPORT. Family Reset and hazards (`spec/70_reset_and_hazards.md`): what a reset leaves, and that every state has a
next state. -/

namespace Sys2Proof.Machine

/-! ### Reset (R265, R44) -/

theorem hostReset_get (s : State) (r : Reg) : (hostReset s).v.get r = none := State.reset_get r

theorem hostReset_read (s : State) (a : Nat) : Memory.read (hostReset s).buf a = none := rfl

/-- Settles O8: the reset values are fixed but for the model's own fields, and the reset takes its own action off the
host's list. -/
theorem resetLeavesResetValues : Obligations.ResetLeavesResetValues := by
  intro s rest hhost
  have hrest : (hostReset s.popHost).host = rest := by rw [hostReset_host, State.popHost_host, hhost, List.tail_cons]
  exact ⟨hostReset s.popHost, step_reset hhost, hostReset_get _, hostReset_cost _, hostReset_q _, hostReset_rr _,
    hostReset_status _, hostReset_fcmd _, hostReset_read _, hrest⟩

/-! ### Every step answers (R272, R73) -/

/-- R272: no command is refused or stops the machine; a fault of the hardware is a next state too. -/
theorem exec_answers (i : Instr) (s : State) : ∃ t, exec i s = .next t := by
  obtain ⟨r, hexec, -⟩ := exec_faultRules i s
  rw [hexec]
  exact complete_total i s r

/-- R73: decoding is total, so a presented word is ignored, runs its command or is an illegal command. -/
theorem runWord_answers (w : Word) (s : State) : ∃ t, runWord w s = .next t := by
  cases hf : s.faulted with
  | true => exact ⟨s, if_pos hf⟩
  | false =>
    by_cases hw : legalWord w = true
    · obtain ⟨i, hdec⟩ := (decode_ok_iff_legalWord w).mpr hw
      rw [runWord_of_decode hf hdec]
      exact exec_answers i s
    · exact ⟨_, runWord_of_illegal hf (Bool.eq_false_iff.mpr hw)⟩

/-- Settles O10, by the next action of the host. -/
theorem stepAlwaysAnswers : Obligations.StepAlwaysAnswers := by
  intro s
  cases hhost : s.host with
  | nil => exact ⟨_, step_idle hhost⟩
  | cons action rest =>
    cases action with
    | read => exact ⟨_, step_read hhost⟩
    | writeBuf a b => exact ⟨_, step_writeBuf hhost⟩
    | present w => rw [step_present hhost]; exact runWord_answers w s.popHost
    | reset => exact ⟨_, step_reset hhost⟩

end Sys2Proof.Machine
end
